-- ==== Sys2Proof/Word.lean ====
section
/-! DEFINITION. The word types: a control register is 32 bits wide (00_scope.md R8, XLEN), a buffer-memory unit 8
bits (20_memory.md R60). -/

namespace Sys2Proof

/-- One unit of buffer memory (20_memory.md R60). -/
abbrev Byte := BitVec 8

/-- The width of every control register and of the command word (00_scope.md R8; 30_encoding.md R80). -/
abbrev Word := BitVec 32

end Sys2Proof
end

