-- ==== Sys2Proof/Config.lean ====
section
/-! DEFINITION. What an implementation fixes (00_scope.md R2, R8) and the free values of
93_implementation_defined.md: each free value is an opaque constant, so no proof can learn it. -/

namespace Sys2Proof

/-- The identity string (00_scope.md R2). -/
def Config.identity : String := "BXC-core-v7"

/-- MEM_SIZE of `State.reset` only (log 4). DESIGN CHOICE: 00_scope.md R8 leaves MEM_SIZE open; 256 is the value
95_test_vectors.md uses. Every other statement is over the field `memSize` of State. -/
def Config.memSize : Nat := 256

/-- The largest MEM_SIZE (00_scope.md R8). -/
def Config.maxMemSize : Nat := 2 ^ 28

/-- What the byte at an address holds after power-on (10_state.md R44; 93_implementation_defined.md U3): one free
value per address (log 1). -/
opaque Config.powerOnByte : Nat → Byte

/-- OUT_LEN after a completion with a non-OK result (10_state.md R32; 93_implementation_defined.md U1): one free value
per draw number (log 6). -/
opaque Config.freeWord : Nat → Word

/-- An unspecified byte of the output window (20_memory.md R67; 70_reset_and_hazards.md R231; 93 U2, U4): one free
value per draw number and address (logs 6, 7). -/
opaque Config.freeByte : Nat → Nat → Byte

end Sys2Proof
end

