-- ==== Sys2Proof/Machine/State.lean ====
section
/-! DEFINITION. The state: the tuple of 10_state.md R46, the parameter MEM_SIZE, and three fields that are the model's
own (the host's queue, the last value read, the draw counter: logs 2, 5, 6). Reset values are those of R47. -/

namespace Sys2Proof.Machine

/-- Why the machine stops. No instruction raises the first, and no run reaches the second. -/
inductive Fault where
  /-- A host read or write of a byte of buffer memory, so at an address below MEM_SIZE, while STATUS.BUSY = 1
  (70_reset_and_hazards.md R240; 93 U5). The step raises it for a host transaction; safe: the spec gives the access no
  meaning (log 8). -/
  | hostMemoryWhileBusy
  /-- An engine access at an address that is not below MEM_SIZE, where MemRead and MemWrite are not defined
  (00_scope.md R13). The engine's access operations raise it; the window checks rule it out, so no command reaches it;
  safe. -/
  | engineOutsideMemory
  deriving DecidableEq, Repr

/-- Why an instruction has no meaning. -/
inductive Refusal where
  /-- The instruction has no meaning yet. No arm of exec raises it; safe. -/
  | notModelled (mnemonic : String)
  deriving DecidableEq, Repr

/-- ESTATE (10_state.md R37). -/
inductive EState where
  /-- No command is running. -/
  | idle
  /-- A command is running. -/
  | run
  deriving DecidableEq, Repr

/-- The datapath registers that a command start clears (10_state.md R37, R42). -/
structure Datapath where
  /-- Carry register: the unconsumed stream bits, right-aligned. -/
  c : BitVec 16
  /-- Carry count: how many low bits of `c` are meaningful. -/
  cn : BitVec 5
  /-- Parity accumulator. -/
  p : BitVec 32
  /-- Base8 encode phase: the input byte position mod 3. -/
  ph : BitVec 2
  /-- Input index, relative to IN_ADDR. -/
  i : Word
  /-- Output index, relative to OUT_ADDR. -/
  o : Word
  /-- Input length of the running command. -/
  s : Word
  deriving DecidableEq, Repr

/-- The datapath after `clear_datapath()` (41_command_framework.md R131) and after reset (10_state.md R47). -/
def Datapath.zero : Datapath := { c := 0, cn := 0, p := 0, ph := 0, i := 0, o := 0, s := 0 }

/-- The buffer memory: the bytes that something has written, by rising address. An address that is not listed holds
its power-on byte, which is a free value (log 1). -/
abbrev Memory := List Host.Cell

/-- The width of a host access to the register space (10_state.md R21). -/
inductive BusWidth where
  /-- A byte access. -/
  | b8
  /-- A 16-bit access. -/
  | b16
  /-- A 32-bit access, the one width that reaches a register. -/
  | b32
  /-- A 64-bit access. -/
  | b64
  deriving DecidableEq, Repr

/-- One turn of the host: a bus transaction (30_encoding.md R90), the WAIT of R91, or a reset
(70_reset_and_hazards.md R230, R251). -/
inductive HostOp where
  /-- A register write of `v` at an offset of the register space, which spans 0x00 to 0x3F. -/
  | regWrite (width : BusWidth) (offset : BitVec 6) (v : Word)
  /-- A register read. -/
  | regRead (width : BusWidth) (offset : BitVec 6)
  /-- A byte write through the buffer port. -/
  | memWrite (addr : Nat) (v : Byte)
  /-- A byte read through the buffer port. -/
  | memRead (addr : Nat)
  /-- WAIT by polling: read STATUS until DONE is 1. -/
  | waitDone
  /-- WAIT under interrupts: wait for irq = 1, then read STATUS. -/
  | waitIrq
  /-- The reset input is asserted. -/
  | reset
  deriving DecidableEq, Repr

/-- The machine's state. -/
structure State where
  /-- CMD.OP (10_state.md R23). -/
  op : BitVec 4
  /-- STATUS.BUSY (R27). -/
  busy : Bool
  /-- STATUS.DONE (R28). -/
  done : Bool
  /-- STATUS.RESULT (R29). -/
  result : BitVec 3
  /-- IN_ADDR (R31). -/
  inAddr : Word
  /-- IN_LEN (R31). -/
  inLen : Word
  /-- OUT_ADDR (R31). -/
  outAddr : Word
  /-- OUT_CAP (R31). -/
  outCap : Word
  /-- OUT_LEN (R32). -/
  outLen : Word
  /-- IRQ_EN.DONE_IE (R33). -/
  doneIe : Bool
  /-- ESTATE (R37). -/
  estate : EState
  /-- C, CN, P, PH, I, O and S (R37). -/
  dp : Datapath
  /-- Buffer memory (20_memory.md R60). -/
  mem : Memory
  /-- The parameter MEM_SIZE (00_scope.md R8), which nothing writes (log 4). -/
  memSize : Nat
  /-- The model's own: the host's turns still to come, the next first; `none` is a turn the host leaves to the engine
  (log 2). -/
  bus : List (Option HostOp)
  /-- The model's own: what the host's last read returned (log 5). -/
  rdata : Word
  /-- The model's own: how many times free values have been drawn (log 6). -/
  draws : Nat
  deriving DecidableEq, Repr

/-- The state after power-on and reset of a core with `memSize` bytes of buffer memory (10_state.md R47;
70_reset_and_hazards.md R230). -/
def State.resetWith (memSize : Nat) : State :=
  { op := 0, busy := false, done := false, result := 0
    inAddr := 0, inLen := 0, outAddr := 0, outCap := 0, outLen := 0
    doneIe := false, estate := .idle, dp := Datapath.zero
    mem := [], memSize := memSize, bus := [], rdata := 0, draws := 0 }

/-- The state after reset, at the MEM_SIZE of Config (log 4). -/
def State.reset : State := State.resetWith Config.memSize

end Sys2Proof.Machine
end

