-- ==== Sys2Proof/Machine/Flags.lean ====
section
/-! DEFINITION. STATUS: the result codes (60_exceptions.md R200), the word a host reads (10_state.md R30), the
interrupt output (R35), and which results leave the output window unspecified (20_memory.md R67). -/

namespace Sys2Proof.Machine

/-- The five outcomes of a command (60_exceptions.md R200). -/
inductive Code where
  /-- The command succeeded. -/
  | ok
  /-- An unusable window or a zero length (R201). -/
  | arguments
  /-- Output capacity insufficient (R202). -/
  | overflow
  /-- Malformed, out-of-alphabet or corrupt input (R203). -/
  | srcerror
  /-- A reserved OP (R204). -/
  | error
  deriving DecidableEq, Repr

/-- The number STATUS.RESULT holds for an outcome (60_exceptions.md R200). -/
def resultBits : Code → BitVec 3
  | .ok => 0
  | .arguments => 1
  | .overflow => 2
  | .srcerror => 3
  | .error => 4

/-- The 32-bit value of a STATUS read: RESULT in bits 10:8, DONE in bit 1, BUSY in bit 0, all else 0
(10_state.md R26, R30). -/
def statusWord (s : State) : Word :=
  (0 : BitVec 21) ++ s.result ++ (0 : BitVec 6) ++ BitVec.ofBool s.done ++ BitVec.ofBool s.busy

/-- The interrupt output: DONE and DONE_IE (10_state.md R35; 60_exceptions.md R209). -/
def irq (s : State) : Bool := s.done && s.doneIe

/-- The outcomes after which the output window is unspecified, in a command whose overflow check is up front
(20_memory.md R67). -/
def windowFreeUpFront : Code → Bool
  | .ok => false
  | .arguments => false
  | .overflow => false
  | .srcerror => true
  | .error => false

/-- The outcomes after which the output window is unspecified in DEC32, whose overflow check is incremental
(20_memory.md R67). -/
def windowFreeIncremental : Code → Bool
  | .ok => false
  | .arguments => false
  | .overflow => true
  | .srcerror => true
  | .error => false

end Sys2Proof.Machine
end

