-- ==== Sys2Proof/Machine/Ops.lean ====
section
/-! DEFINITION. The named operations over memory and registers: buffer memory as a canonical list, the engine's byte
accesses, the start of a command (41_command_framework.md R130), its completion (R140; the core's one trap-like event,
60_exceptions.md R207), the host's acknowledgement (R208), and the reset input (70_reset_and_hazards.md R230, R231). -/

namespace Sys2Proof.Machine

/-! ### Buffer memory -/

/-- The canonical form: addresses strictly rise. An address that is not listed holds no written byte, so no entry
equals what an unlisted address holds, and equal memories are equal lists (log 1). -/
abbrev Memory.wf (m : Memory) : Prop := m.Pairwise fun x y => x.1 < y.1

/-- The byte written at an address, if something has written it. -/
def lookup : Memory → Nat → Option Byte
  | [], _ => none
  | (b, w) :: m, a => if a = b then some w else lookup m a

/-- The byte at an address: the one written, or else the power-on byte (10_state.md R44; log 1). -/
def readByte (m : Memory) (a : Nat) : Byte := (lookup m a).getD (Config.powerOnByte a)

/-- Store a byte, keeping the canonical form. -/
def writeByte : Memory → Nat → Byte → Memory
  | [], a, v => [(a, v)]
  | (b, w) :: m, a, v =>
    if a < b then (a, v) :: (b, w) :: m
    else if a = b then (a, v) :: m
    else (b, w) :: writeByte m a v

/-- Store a byte of buffer memory. -/
def storeByte (a : Nat) (v : Byte) (s : State) : State := { s with mem := writeByte s.mem a v }

/-! ### How an engine operation goes on -/

/-- What a piece of a command's pseudocode does: it goes on with a value, it ends the command with an outcome (`raise`
or `finish OK`, 00_scope.md R14), or it makes an access that has no meaning. -/
inductive Flow (α : Type) where
  /-- The pseudocode goes on. -/
  | go (a : α)
  /-- `raise code` or `finish OK`: no later statement runs. -/
  | stop (code : Code) (s : State)
  /-- The machine stops. -/
  | fault (f : Fault)

/-- Sequencing: go on with the value, unless the command has ended. -/
def Flow.bind {α β : Type} (x : Flow α) (k : α → Flow β) : Flow β :=
  match x with
  | .go a => k a
  | .stop code s => .stop code s
  | .fault f => .fault f

/-- `MemRead(a, 1)` (00_scope.md R13). -/
def engineRead (a : Nat) (s : State) : Flow Byte :=
  if a < s.memSize then .go (readByte s.mem a) else .fault .engineOutsideMemory

/-- `MemWrite(a, 1, v)` (00_scope.md R13). -/
def engineWrite (a : Nat) (v : Byte) (s : State) : Flow State :=
  if a < s.memSize then .go (storeByte a v s) else .fault .engineOutsideMemory

/-! ### Unspecified output windows -/

/-- The addresses whose contents a command or a reset may leave unspecified: the bytes of the output window that are in
buffer memory and outside the input window (20_memory.md R65, R67; 70_reset_and_hazards.md R231; log 7). -/
def drawable (s : State) (a : Nat) : Bool :=
  decide (a < s.memSize) && !(decide (s.inAddr.toNat ≤ a) && decide (a < s.inAddr.toNat + s.inLen.toNat))

/-- One free value for each of the first `k` bytes from `base` that `may` admits; `n` numbers the draw. -/
def drawBytes (may : Nat → Bool) (n base : Nat) : Nat → Memory → Memory
  | 0, m => m
  | k + 1, m =>
    let m' := drawBytes may n base k m
    if may (base + k) then writeByte m' (base + k) (Config.freeByte n (base + k)) else m'

/-- The memory with the whole output window unspecified (93_implementation_defined.md U2, U4). -/
def drawOutputWindow (s : State) : Memory :=
  drawBytes (drawable s) s.draws s.outAddr.toNat s.outCap.toNat s.mem

/-! ### Start, completion, acknowledgement, reset -/

/-- Command start: a CMD write of `w` while idle, one indivisible step (41_command_framework.md R130, R131). -/
def startCommand (w : Word) (s : State) : State :=
  { s with op := w.setWidth 4, busy := true, done := false, result := 0, outLen := 0, estate := .run,
           dp := Datapath.zero }

/-- Completion with an outcome (41_command_framework.md R140). OUT_LEN is O on OK and a free value otherwise; `free`
says whether the output window is unspecified (20_memory.md R67). The datapath registers are left as they are. -/
def complete (free : Bool) (code : Code) (s : State) : State :=
  { s with
    result := resultBits code
    outLen := if code = .ok then s.dp.o else Config.freeWord s.draws
    mem := if free then drawOutputWindow s else s.mem
    draws := if code = .ok then s.draws else s.draws + 1
    estate := .idle
    busy := false
    done := true }

/-- The return from a completion: the host clears DONE, and RESULT and OUT_LEN stay (10_state.md R28, R29;
60_exceptions.md R208). -/
def acknowledge (s : State) : State := { s with done := false }

/-- The reset input (70_reset_and_hazards.md R230): every register to its value of 10_state.md R47, memory kept, but for
the output window of a command that it aborts (R231). The fields that are the model's own stay. -/
def assertReset (s : State) : State :=
  { State.resetWith s.memSize with
    mem := if s.busy then drawOutputWindow s else s.mem
    draws := if s.busy then s.draws + 1 else s.draws
    bus := s.bus
    rdata := s.rdata }

/-- From a body to the outcome of its command: falling off the end is `finish OK` (00_scope.md R14). `free` says after
which outcomes the output window is unspecified. -/
def finish (free : Code → Bool) (x : Flow State) : Host.Outcome State Fault Refusal :=
  match x with
  | .go s => .next (complete (free .ok) .ok s)
  | .stop code s => .next (complete (free code) code s)
  | .fault f => .fault f

end Sys2Proof.Machine
end

