-- ==== Sys2Proof/Machine/Operands.lean ====
section
/-! DEFINITION. The operands of a command (30_encoding.md R83): the two windows and their checks, the input length, and
the required output length (41_command_framework.md R134 to R139). All sums are exact integers (00_scope.md R9). -/

namespace Sys2Proof.Machine

/-- The end of the input window (20_memory.md R63). -/
abbrev inEnd (s : State) : Nat := s.inAddr.toNat + s.inLen.toNat

/-- The end of the output window (20_memory.md R63). -/
abbrev outEnd (s : State) : Nat := s.outAddr.toNat + s.outCap.toNat

/-- Whether the windows overlap (20_memory.md R63). -/
def windowsOverlap (s : State) : Bool :=
  decide (0 < s.inLen.toNat) && decide (0 < s.outCap.toNat)
    && decide (s.inAddr.toNat < outEnd s) && decide (s.outAddr.toNat < inEnd s)

/-- `check_windows()` (41_command_framework.md R134). -/
def checkWindows (s : State) : Flow State :=
  if s.memSize < inEnd s then .stop .arguments s
  else if s.memSize < outEnd s then .stop .arguments s
  else if windowsOverlap s then .stop .arguments s
  else .go s

/-- The loop of `scan_string()`: at most `n` bytes from `base + k` on, up to the first 0x00
(41_command_framework.md R135). -/
def scanFrom (base : Nat) (s : State) : Nat → Nat → Flow Nat
  | 0, k => .go k
  | n + 1, k => (engineRead (base + k) s).bind fun b => if b = 0 then .go k else scanFrom base s n (k + 1)

/-- The two kinds of input (41_command_framework.md R136). -/
inductive InputKind where
  /-- A NUL-terminated string: DEC16, DEC32, S2N8. -/
  | string
  /-- IN_LEN bytes or digit values: ENC16, ENC32, ENC8, DEC8. -/
  | bytes
  deriving DecidableEq, Repr

/-- Set S. -/
def setLength (n : Nat) (s : State) : State := { s with dp := { s.dp with s := BitVec.ofNat 32 n } }

/-- The zero-length check of R136. -/
def rejectEmpty (s : State) : Flow State := if s.dp.s = 0 then .stop .arguments s else .go s

/-- `input_length(kind)` (41_command_framework.md R136). -/
def inputLength (kind : InputKind) (s : State) : Flow State :=
  match kind with
  | .string => (scanFrom s.inAddr.toNat s s.inLen.toNat 0).bind fun k => rejectEmpty (setLength k s)
  | .bytes => rejectEmpty (setLength s.inLen.toNat s)

/-- `require(REQ)` (41_command_framework.md R137). -/
def require (req : Nat) (s : State) : Flow State :=
  if s.outCap.toNat < req then .stop .overflow s else .go s

/-- The prologue of every body but DEC32's (41_command_framework.md R139, R144): windows, length, capacity, with REQ a
function of S. -/
def prologue (kind : InputKind) (req : Nat → Nat) (s : State) : Flow State :=
  (checkWindows s).bind fun s => (inputLength kind s).bind fun s => require (req s.dp.s.toNat) s

/-- The prologue of DEC32, which has no up-front capacity check (41_command_framework.md R138, R144). -/
def prologueUnbounded (kind : InputKind) (s : State) : Flow State :=
  (checkWindows s).bind fun s => inputLength kind s

/-! ### REQ by command (41_command_framework.md R138) -/

/-- ENC16: two symbols a byte and the NUL. -/
def reqEnc16 (n : Nat) : Nat := 2 * n + 1

/-- ENC32: a multiple of 8 symbols and the NUL. -/
def reqEnc32 (n : Nat) : Nat := 8 * ((n + 4) / 5) + 1

/-- The symbols ENC8 writes for the bytes after the last whole triple: T = (0, 3, 6). -/
def enc8Tail (r : Nat) : Nat :=
  match r with
  | 0 => 0
  | 1 => 3
  | _ => 6

/-- ENC8: eight digits for three bytes, the tail and the NUL. -/
def reqEnc8 (n : Nat) : Nat := 8 * (n / 3) + enc8Tail (n % 3) + 1

/-- DEC16: a byte for two symbols. -/
def reqDec16 (n : Nat) : Nat := n / 2

/-- DEC8: three bytes for eight digits, and one for each three left. -/
def reqDec8 (n : Nat) : Nat := 3 * (n / 8) + n % 8 / 3

/-- S2N8: a digit value for a character. -/
def reqS2n8 (n : Nat) : Nat := n

end Sys2Proof.Machine
end

