-- ==== Sys2Proof/Machine/Roms.lean ====
section
/-! DEFINITION. The seven constant tables (10_state.md R43; 40_datapath.md R100 to R104), with the character codes of
00_scope.md R16, and the padding table of base32 (43_base32.md R160). -/

namespace Sys2Proof.Machine

/-- The contents of HEXSYM: `0` to `9`, `A` to `F` (40_datapath.md R100). -/
def hexSymTable : List Byte :=
  [0x30, 0x31, 0x32, 0x33, 0x34, 0x35, 0x36, 0x37, 0x38, 0x39, 0x41, 0x42, 0x43, 0x44, 0x45, 0x46]

/-- The contents of B32SYM: `A` to `Z`, `2` to `7` (40_datapath.md R100). -/
def b32SymTable : List Byte :=
  [0x41, 0x42, 0x43, 0x44, 0x45, 0x46, 0x47, 0x48, 0x49, 0x4A, 0x4B, 0x4C, 0x4D, 0x4E, 0x4F, 0x50,
   0x51, 0x52, 0x53, 0x54, 0x55, 0x56, 0x57, 0x58, 0x59, 0x5A, 0x32, 0x33, 0x34, 0x35, 0x36, 0x37]

/-- The contents of B8SYM: `1` to `8` (40_datapath.md R100). -/
def b8SymTable : List Byte := [0x31, 0x32, 0x33, 0x34, 0x35, 0x36, 0x37, 0x38]

/-- HEXSYM. -/
def hexSym (g : BitVec 4) : Byte := hexSymTable.getD g.toNat 0

/-- B32SYM. -/
def b32Sym (g : BitVec 5) : Byte := b32SymTable.getD g.toNat 0

/-- B8SYM. -/
def b8Sym (g : BitVec 3) : Byte := b8SymTable.getD g.toNat 0

/-- Whether a byte lies in a range of character codes. -/
def inRange (lo hi ch : Byte) : Bool := lo ≤ ch && ch ≤ hi

/-- HEXVAL; `none` is INVALID (40_datapath.md R101). -/
def hexVal (ch : Byte) : Option (BitVec 4) :=
  if inRange 0x30 0x39 ch then some ((ch - 0x30).setWidth 4)
  else if inRange 0x41 0x46 ch then some ((ch - 0x37).setWidth 4)
  else if inRange 0x61 0x66 ch then some ((ch - 0x57).setWidth 4)
  else none

/-- B32VAL; `none` is INVALID (40_datapath.md R102). -/
def b32Val (ch : Byte) : Option (BitVec 5) :=
  if inRange 0x41 0x5A ch then some ((ch - 0x41).setWidth 5)
  else if inRange 0x61 0x7A ch then some ((ch - 0x61).setWidth 5)
  else if inRange 0x32 0x37 ch then some ((ch - 0x18).setWidth 5)
  else none

/-- B8VAL; `none` is INVALID (40_datapath.md R103). -/
def b8Val (ch : Byte) : Option (BitVec 3) :=
  if inRange 0x31 0x38 ch then some ((ch - 0x31).setWidth 3) else none

/-- The contents of WEIGHT (40_datapath.md R104). -/
def weightTable : List Nat := [0, 1, 1, 2, 1, 2, 2, 3]

/-- WEIGHT. -/
def weight (g : BitVec 3) : Nat := weightTable.getD g.toNat 0

/-- The character `=` (00_scope.md R16). -/
def padChar : Byte := 0x3D

/-- PADCOUNT, indexed by a byte count mod 5 (43_base32.md R160). -/
def padCount (r : Nat) : Nat :=
  match r with
  | 0 => 0
  | 1 => 6
  | 2 => 4
  | 3 => 3
  | _ => 1

end Sys2Proof.Machine
end

