-- ==== Sys2Proof/Machine/Reframer.lean ====
section
/-! DEFINITION. The bit-group reframer, the parity accumulator and the output buffer writer (40_datapath.md R105 to
R114), and the loop that walks the input. -/

namespace Sys2Proof.Machine

/-- `mask(k)`, at the width of C (00_scope.md R11). -/
def carryMask (k : Nat) : BitVec 16 := BitVec.ofNat 16 (2 ^ k - 1)

/-! ### Pack: bytes to groups (40_datapath.md R105, R107) -/

/-- The loop of `pack_byte`: cut the oldest `n` bits off while at least `n` are held. The first argument bounds the
number of groups. -/
def cutGroups (n : Nat) : Nat → Datapath → List (BitVec n) × Datapath
  | 0, d => ([], d)
  | fuel + 1, d =>
    if n ≤ d.cn.toNat then
      let left := d.cn.toNat - n
      let g := (d.c >>> left).setWidth n
      let r := cutGroups n fuel { d with cn := BitVec.ofNat 5 left, c := d.c &&& carryMask left }
      (g :: r.1, r.2)
    else ([], d)

/-- Shift an input byte into the carry. -/
def shiftIn (b : Byte) (d : Datapath) : Datapath :=
  { d with c := (d.c <<< 8) ||| b.setWidth 16, cn := d.cn + 8 }

/-- `pack_byte(b, N)`: the complete groups, oldest first, and the datapath after (40_datapath.md R105). -/
def packByte (n : Nat) (b : Byte) (d : Datapath) : List (BitVec n) × Datapath :=
  let d' := shiftIn b d
  cutGroups n d'.cn.toNat d'

/-- `flush_group(N)`: the held bits in the high positions, zeros below; `none` if the carry is empty
(40_datapath.md R107). -/
def flushGroup (n : Nat) (d : Datapath) : Option (BitVec n) × Datapath :=
  if d.cn = 0 then (none, d)
  else (some ((d.c <<< (n - d.cn.toNat)).setWidth n), { d with c := 0, cn := 0 })

/-! ### Unpack: symbol values to bytes (40_datapath.md R108) -/

/-- `unpack_symbol(v, N)`: at most one byte, and the datapath after. -/
def unpackSymbol {n : Nat} (v : BitVec n) (d : Datapath) : List Byte × Datapath :=
  let c := (d.c <<< n) ||| v.setWidth 16
  let cn := d.cn + BitVec.ofNat 5 n
  if 8 ≤ cn.toNat then
    let left := cn.toNat - 8
    ([(c >>> left).setWidth 8], { d with c := c &&& carryMask left, cn := BitVec.ofNat 5 left })
  else ([], { d with c := c, cn := cn })

/-! ### Parity accumulator (40_datapath.md R110) -/

/-- `add_weight(g)`, modulo 2^32. -/
def addWeight (g : BitVec 3) (s : State) : State :=
  { s with dp := { s.dp with p := s.dp.p + BitVec.ofNat 32 (weight g) } }

/-! ### Output buffer writer (40_datapath.md R111 to R114) -/

/-- The guard and the store that the three output primitives share: one byte at OUT_ADDR + O. -/
def writeOut (v : Byte) (s : State) : Flow State :=
  if s.outCap.toNat ≤ s.dp.o.toNat then .stop .overflow s
  else engineWrite (s.outAddr.toNat + s.dp.o.toNat) v s

/-- O <- O + 1. -/
def advanceOut (s : State) : State := { s with dp := { s.dp with o := s.dp.o + 1 } }

/-- `emit_symbol(ch)` (40_datapath.md R112). -/
def emitSymbol (ch : Byte) (s : State) : Flow State := (writeOut ch s).bind fun s => .go (advanceOut s)

/-- `emit_byte(b)` (40_datapath.md R113). -/
def emitByte (b : Byte) (s : State) : Flow State := (writeOut b s).bind fun s => .go (advanceOut s)

/-- `emit_terminator()`: a NUL, and O stays (40_datapath.md R114). -/
def emitTerminator (s : State) : Flow State := writeOut 0x00 s

/-! ### Loops -/

/-- `for x in xs: body(x)`. -/
def forEach {α : Type} (body : α → State → Flow State) : List α → State → Flow State
  | [], s => .go s
  | x :: xs, s => (body x s).bind (forEach body xs)

/-- I <- I + 1. -/
def advanceIn (s : State) : State := { s with dp := { s.dp with i := s.dp.i + 1 } }

/-- Put a datapath into the state. -/
def withDatapath (d : Datapath) (s : State) : State := { s with dp := d }

/-- `while I < S: b <- MemRead(IN_ADDR + I, 1); body; I <- I + 1`. The first argument bounds the number of
iterations (41_command_framework.md R142). -/
def inputLoop (body : Byte → State → Flow State) : Nat → State → Flow State
  | 0, s => .go s
  | fuel + 1, s =>
    if s.dp.i.toNat < s.dp.s.toNat then
      (engineRead (s.inAddr.toNat + s.dp.i.toNat) s).bind fun b =>
        (body b s).bind fun s => inputLoop body fuel (advanceIn s)
    else .go s

/-- The input loop of a command: at most S iterations. -/
def forInput (body : Byte → State → Flow State) (s : State) : Flow State := inputLoop body s.dp.s.toNat s

/-- The inner loop of an encode: emit the symbol of every group that a byte completes, after `note` has seen it. -/
def emitGroups (n : Nat) (rom : BitVec n → Byte) (note : BitVec n → State → State) (b : Byte) (s : State) :
    Flow State :=
  let r := packByte n b s.dp
  forEach (fun g s => emitSymbol (rom g) (note g s)) r.1 (withDatapath r.2 s)

/-- The inner loop of a decode: emit the byte that a symbol value completes, if there is one. -/
def emitUnpacked {n : Nat} (v : BitVec n) (s : State) : Flow State :=
  let r := unpackSymbol v s.dp
  forEach emitByte r.1 (withDatapath r.2 s)

end Sys2Proof.Machine
end

