-- ==== Sys2Proof/Machine/Base16.lean ====
section
/-! DEFINITION. ENC16 and DEC16 (42_base16.md R150 to R152). -/

namespace Sys2Proof.Machine

/-- The body of ENC16 (42_base16.md R151). -/
def enc16Body (s : State) : Flow State :=
  (prologue .bytes reqEnc16 s).bind fun s =>
    (forInput (emitGroups 4 hexSym fun _ s => s) s).bind emitTerminator

/-- ENC16 (42_base16.md R151). -/
def execEnc16 (s : State) : Host.Outcome State Fault Refusal := finish windowFreeUpFront (enc16Body s)

/-- One character of DEC16: SRCERROR outside `0-9A-Fa-f` (42_base16.md R152). -/
def dec16Symbol (ch : Byte) (s : State) : Flow State :=
  match hexVal ch with
  | none => .stop .srcerror s
  | some v => emitUnpacked v s

/-- An odd length is a source error (42_base16.md R152). -/
def rejectOdd (s : State) : Flow State := if s.dp.s.toNat % 2 = 1 then .stop .srcerror s else .go s

/-- The body of DEC16 (42_base16.md R152). -/
def dec16Body (s : State) : Flow State :=
  (prologue .string reqDec16 s).bind fun s => (rejectOdd s).bind (forInput dec16Symbol)

/-- DEC16 (42_base16.md R152). -/
def execDec16 (s : State) : Host.Outcome State Fault Refusal := finish windowFreeUpFront (dec16Body s)

end Sys2Proof.Machine
end

