-- ==== Sys2Proof/Machine/Base32.lean ====
section
/-! DEFINITION. ENC32 and DEC32 (43_base32.md R160 to R163). -/

namespace Sys2Proof.Machine

/-- The final partial group of ENC32, if there is one (43_base32.md R161; 40_datapath.md R107). -/
def enc32Flush (s : State) : Flow State :=
  let r := flushGroup 5 s.dp
  match r.1 with
  | none => .go (withDatapath r.2 s)
  | some g => emitSymbol (b32Sym g) (withDatapath r.2 s)

/-- `while O mod 8 != 0: emit_symbol('=')`; the first argument bounds the number of iterations, which is at most 7
(43_base32.md R161). -/
def padToEight : Nat → State → Flow State
  | 0, s => .go s
  | fuel + 1, s => if s.dp.o.toNat % 8 = 0 then .go s else (emitSymbol padChar s).bind (padToEight fuel)

/-- The body of ENC32 (43_base32.md R161). -/
def enc32Body (s : State) : Flow State :=
  (prologue .bytes reqEnc32 s).bind fun s =>
    (forInput (emitGroups 5 b32Sym fun _ s => s) s).bind fun s =>
      (enc32Flush s).bind fun s => (padToEight 8 s).bind emitTerminator

/-- ENC32 (43_base32.md R161). -/
def execEnc32 (s : State) : Host.Outcome State Fault Refusal := finish windowFreeUpFront (enc32Body s)

/-- `while K < S`: `n` characters from index K on must all be `=`; then `finish OK` (43_base32.md R163). -/
def padRun : Nat → Nat → State → Flow State
  | 0, _, s => .stop .ok s
  | n + 1, k, s =>
    (engineRead (s.inAddr.toNat + k) s).bind fun ch =>
      if ch = padChar then padRun n (k + 1) s else .stop .srcerror s

/-- The first `=` of DEC32: the characters left must be exactly PADCOUNT[O mod 5], all `=` (43_base32.md R163). -/
def dec32Padding (s : State) : Flow State :=
  let left := s.dp.s.toNat - s.dp.i.toNat
  if left = padCount (s.dp.o.toNat % 5) then padRun left s.dp.i.toNat s else .stop .srcerror s

/-- One character of DEC32 (43_base32.md R163). -/
def dec32Symbol (ch : Byte) (s : State) : Flow State :=
  if ch = padChar then dec32Padding s
  else
    match b32Val ch with
    | none => .stop .srcerror s
    | some v => emitUnpacked v s

/-- The body of DEC32: no up-front capacity check (43_base32.md R163). -/
def dec32Body (s : State) : Flow State := (prologueUnbounded .string s).bind (forInput dec32Symbol)

/-- DEC32 (43_base32.md R163). -/
def execDec32 (s : State) : Host.Outcome State Fault Refusal := finish windowFreeIncremental (dec32Body s)

end Sys2Proof.Machine
end

