-- ==== Sys2Proof/Machine/Base8.lean ====
section
/-! DEFINITION. ENC8, DEC8 and S2N8 (44_base8.md R170 to R177). -/

namespace Sys2Proof.Machine

/-- PH <- (PH + 1) mod 3 (44_base8.md R171). -/
def advancePhase (s : State) : State :=
  { s with dp := { s.dp with ph := BitVec.ofNat 2 ((s.dp.ph.toNat + 1) % 3) } }

/-- One byte of ENC8: its groups are weighed and emitted, and the phase advances (44_base8.md R171). -/
def enc8Byte (b : Byte) (s : State) : Flow State :=
  (emitGroups 3 b8Sym addWeight b s).bind fun s => .go (advancePhase s)

/-- The value of the check digit: the data bits left, above the check field (44_base8.md R171, R173). -/
def checkDigit (cb : Nat) (d : Datapath) : BitVec 3 :=
  BitVec.ofNat 3 (((d.c &&& carryMask d.cn.toNat).toNat <<< cb) + d.p.toNat % (2 * cb))

/-- The check digit of ENC8, when the length is not a multiple of 3; its weight is not added to P
(44_base8.md R171). -/
def enc8Check (s : State) : Flow State :=
  let cb := s.dp.s.toNat % 3
  if cb = 0 then .go s
  else
    (emitSymbol (b8Sym (checkDigit cb s.dp)) s).bind fun s => .go (withDatapath { s.dp with c := 0, cn := 0 } s)

/-- The body of ENC8 (44_base8.md R171). -/
def enc8Body (s : State) : Flow State :=
  (prologue .bytes reqEnc8 s).bind fun s =>
    (forInput enc8Byte s).bind fun s => (enc8Check s).bind emitTerminator

/-- ENC8 (44_base8.md R171). -/
def execEnc8 (s : State) : Host.Outcome State Fault Refusal := finish windowFreeUpFront (enc8Body s)

/-- A digit count must leave 0, 3 or 6 digits after the whole octets (44_base8.md R174). -/
def rejectMisaligned (s : State) : Flow State :=
  let r := s.dp.s.toNat % 8
  if r = 0 ∨ r = 3 ∨ r = 6 then .go s else .stop .srcerror s

/-- The input loop of DEC8, which carries the last digit read; the first argument bounds the number of iterations
(44_base8.md R174). -/
def digitLoop : Nat → BitVec 3 → State → Flow (BitVec 3 × State)
  | 0, last, s => .go (last, s)
  | fuel + 1, last, s =>
    if s.dp.i.toNat < s.dp.s.toNat then
      (engineRead (s.inAddr.toNat + s.dp.i.toNat) s).bind fun b =>
        if 7 < b.toNat then .stop .srcerror s
        else
          (emitUnpacked (b.setWidth 3) (addWeight (b.setWidth 3) s)).bind fun s =>
            digitLoop fuel (b.setWidth 3) (advanceIn s)
    else .go (last, s)

/-- The check of DEC8, when a check digit exists: the low bits left in C against the weight of every digit but the last
(44_base8.md R174, R175). -/
def dec8Check (last : BitVec 3) (s : State) : Flow State :=
  let cb := s.dp.s.toNat % 8 / 3
  if s.dp.s.toNat % 8 = 0 then .go s
  else if (s.dp.c &&& carryMask cb).toNat = (s.dp.p - BitVec.ofNat 32 (weight last)).toNat % (2 * cb) then .go s
  else .stop .srcerror s

/-- The body of DEC8 (44_base8.md R174). -/
def dec8Body (s : State) : Flow State :=
  (prologue .bytes reqDec8 s).bind fun s =>
    (rejectMisaligned s).bind fun s =>
      (digitLoop s.dp.s.toNat 0 s).bind fun r => dec8Check r.1 r.2

/-- DEC8 (44_base8.md R174). -/
def execDec8 (s : State) : Host.Outcome State Fault Refusal := finish windowFreeUpFront (dec8Body s)

/-- One character of S2N8: SRCERROR outside `1` to `8` (44_base8.md R177). -/
def s2n8Symbol (ch : Byte) (s : State) : Flow State :=
  match b8Val ch with
  | none => .stop .srcerror s
  | some v => emitByte (v.setWidth 8) s

/-- The body of S2N8: no terminator is written (44_base8.md R177). -/
def s2n8Body (s : State) : Flow State := (prologue .string reqS2n8 s).bind (forInput s2n8Symbol)

/-- S2N8 (44_base8.md R177). -/
def execS2n8 (s : State) : Host.Outcome State Fault Refusal := finish windowFreeUpFront (s2n8Body s)

end Sys2Proof.Machine
end

