-- ==== Sys2Proof/Machine/Reserved.lean ====
section
/-! DEFINITION. The reserved commands (41_command_framework.md R133): ERROR before every other check. -/

namespace Sys2Proof.Machine

/-- `raise ERROR()`, the whole body of a reserved OP (41_command_framework.md R133). -/
def reservedBody (s : State) : Flow State := .stop .error s

/-- RSVD0 (41_command_framework.md R133). -/
def execRsvd0 (s : State) : Host.Outcome State Fault Refusal := finish windowFreeUpFront (reservedBody s)

/-- RSVD8 (41_command_framework.md R133): the same for every OP of the row. -/
def execRsvd8 (_op : BitVec 4) (s : State) : Host.Outcome State Fault Refusal :=
  finish windowFreeUpFront (reservedBody s)

end Sys2Proof.Machine
end

