-- ==== Sys2Proof/Syntax.lean ====
section
/-! DEFINITION. The instructions: the commands of 30_encoding.md R82, one constructor per row of
opcode_table.json. No command has an immediate operand (R83): the operands are in the operand registers. -/

namespace Sys2Proof

/-- A command (30_encoding.md R82). -/
inductive Instr where
  /-- RSVD0: OP 0x0, reserved (41_command_framework.md R133). -/
  | rsvd0
  /-- ENC16: base16 encode (42_base16.md R151). -/
  | enc16
  /-- DEC16: base16 decode (42_base16.md R152). -/
  | dec16
  /-- ENC32: base32 encode (43_base32.md R161). -/
  | enc32
  /-- DEC32: base32 decode (43_base32.md R163). -/
  | dec32
  /-- ENC8: base8 encode with check digit (44_base8.md R171). -/
  | enc8
  /-- DEC8: base8 decode, numeric form (44_base8.md R174). -/
  | dec8
  /-- S2N8: base8 string-to-numeric (44_base8.md R177). -/
  | s2n8
  /-- RSVD8: OP 0x8 to 0xF, reserved (41_command_framework.md R133); `op` is the OP field. -/
  | rsvd8 (op : BitVec 4)
  deriving DecidableEq, Repr

end Sys2Proof
end

