-- ==== Sys2Proof/Machine/Dispatch.lean ====
section
/-! DEFINITION. Dispatch on the command (41_command_framework.md R132): from the state after the start of R130 to the
state after the completion of R140, as one transition (R141). -/

namespace Sys2Proof.Machine

-- One arm per row of 41_command_framework.md R132.
def exec (i : Instr) (s : State) : Host.Outcome State Fault Refusal :=
  match i with
  | .rsvd0 => Sys2Proof.Machine.execRsvd0 s
  | .enc16 => Sys2Proof.Machine.execEnc16 s
  | .dec16 => Sys2Proof.Machine.execDec16 s
  | .enc32 => Sys2Proof.Machine.execEnc32 s
  | .dec32 => Sys2Proof.Machine.execDec32 s
  | .enc8 => Sys2Proof.Machine.execEnc8 s
  | .dec8 => Sys2Proof.Machine.execDec8 s
  | .s2n8 => Sys2Proof.Machine.execS2n8 s
  | .rsvd8 op => Sys2Proof.Machine.execRsvd8 op s

end Sys2Proof.Machine
end

