-- ==== Sys2Proof/WellFormed.lean ====
section
/-! DEFINITION. Which instructions the encoding admits: the one check is that RSVD8 carries an OP of its own row. -/

namespace Sys2Proof

/-- The instructions that some command word stands for. RSVD8's row fixes bit 3 of OP to 1 (opcode_table.json, match
0x8, mask 0x8). -/
def wellFormed : Instr → Bool
  | .rsvd0 => true
  | .enc16 => true
  | .dec16 => true
  | .enc32 => true
  | .dec32 => true
  | .enc8 => true
  | .dec8 => true
  | .s2n8 => true
  | .rsvd8 op => op.getLsbD 3

end Sys2Proof
end

