-- ==== Sys2Proof/Decode.lean ====
section
/-! DEFINITION. The command word (30_encoding.md R80 to R89): the decoder, total over all 2^32 words, the opcode
table it follows, and the encoder. Nothing is rejected: every word is a command (R89), a reserved OP included (R88). -/

namespace Sys2Proof

/-- OP of a command word: bits 3:0 (30_encoding.md R80). -/
def opField (w : Word) : BitVec 4 := w.setWidth 4

/-- The command that an OP selects (30_encoding.md R82). -/
def decodeOp (op : BitVec 4) : Instr :=
  match op.toNat with
  | 0x0 => .rsvd0
  | 0x1 => .enc16
  | 0x2 => .dec16
  | 0x3 => .enc32
  | 0x4 => .dec32
  | 0x5 => .enc8
  | 0x6 => .dec8
  | 0x7 => .s2n8
  | _ => .rsvd8 op

/-- The decoder: only bits 3:0 are read (30_encoding.md R81, R88, R89). -/
def decode (w : Word) : Instr := decodeOp (opField w)

/-- A row of opcode_table.json: a word with `w &&& mask = pattern` is the command `toInstr w`. -/
structure OpcodeRow where
  /-- The row's mnemonic. -/
  mnemonic : String
  /-- The row's match. -/
  pattern : Word
  /-- The row's mask. -/
  mask : Word
  /-- The command, given OP. -/
  toInstr : BitVec 4 → Instr

/-- opcode_table.json, row by row, in its order. -/
def opcodeTable : List OpcodeRow :=
  [ { mnemonic := "RSVD0", pattern := 0x00000000, mask := 0x0000000F, toInstr := fun _ => .rsvd0 },
    { mnemonic := "ENC16", pattern := 0x00000001, mask := 0x0000000F, toInstr := fun _ => .enc16 },
    { mnemonic := "DEC16", pattern := 0x00000002, mask := 0x0000000F, toInstr := fun _ => .dec16 },
    { mnemonic := "ENC32", pattern := 0x00000003, mask := 0x0000000F, toInstr := fun _ => .enc32 },
    { mnemonic := "DEC32", pattern := 0x00000004, mask := 0x0000000F, toInstr := fun _ => .dec32 },
    { mnemonic := "ENC8", pattern := 0x00000005, mask := 0x0000000F, toInstr := fun _ => .enc8 },
    { mnemonic := "DEC8", pattern := 0x00000006, mask := 0x0000000F, toInstr := fun _ => .dec8 },
    { mnemonic := "S2N8", pattern := 0x00000007, mask := 0x0000000F, toInstr := fun _ => .s2n8 },
    { mnemonic := "RSVD8", pattern := 0x00000008, mask := 0x00000008, toInstr := fun op => .rsvd8 op } ]

/-- The rows that match a word (30_encoding.md R89). -/
def matchingRows (w : Word) : List OpcodeRow :=
  opcodeTable.filter fun r => w &&& r.mask == r.pattern

/-- OP of a command (30_encoding.md R82). -/
def encodeOp : Instr → BitVec 4
  | .rsvd0 => 0x0
  | .enc16 => 0x1
  | .dec16 => 0x2
  | .enc32 => 0x3
  | .dec32 => 0x4
  | .enc8 => 0x5
  | .dec8 => 0x6
  | .s2n8 => 0x7
  | .rsvd8 op => op

/-- The encoder: the command word whose ignored bits are 0 (30_encoding.md R80, R88). -/
def encode (i : Instr) : Word := (encodeOp i).setWidth 32

/-- The decoder on a word numbered as opcode_table.json numbers its bits: the command word is the single 32-bit word,
and the bits above `nbits` are 0. -/
def decodeTableWord (nbits w : Nat) : Option Instr := some (decode (BitVec.ofNat 32 (w % 2 ^ nbits)))

end Sys2Proof
end

