-- ==== Sys2Proof/Machine/HostBus.lean ====
section
/-! DEFINITION. The host's side of the core: the register map (10_state.md R20 to R36), the buffer port
(20_memory.md R62), one turn of the host (30_encoding.md R90, R91; 70_reset_and_hazards.md R251), and what the engine
fetches. -/

namespace Sys2Proof.Machine

/-- The nine control registers (10_state.md R22). -/
inductive Reg where
  /-- 0x00 -/
  | cmd
  /-- 0x04 -/
  | status
  /-- 0x08 -/
  | inAddr
  /-- 0x0C -/
  | inLen
  /-- 0x10 -/
  | outAddr
  /-- 0x14 -/
  | outCap
  /-- 0x18 -/
  | outLen
  /-- 0x1C -/
  | irqEn
  /-- 0x20 -/
  | memsize
  deriving DecidableEq, Repr

/-- The offset of a register (10_state.md R22). -/
def regOffset : Reg → BitVec 6
  | .cmd => 0x00
  | .status => 0x04
  | .inAddr => 0x08
  | .inLen => 0x0C
  | .outAddr => 0x10
  | .outCap => 0x14
  | .outLen => 0x18
  | .irqEn => 0x1C
  | .memsize => 0x20

/-- The register at an offset; `none` at an unmapped or misaligned one (10_state.md R20, R21). -/
def regAt (offset : BitVec 6) : Option Reg :=
  match offset.toNat with
  | 0x00 => some .cmd
  | 0x04 => some .status
  | 0x08 => some .inAddr
  | 0x0C => some .inLen
  | 0x10 => some .outAddr
  | 0x14 => some .outCap
  | 0x18 => some .outLen
  | 0x1C => some .irqEn
  | 0x20 => some .memsize
  | _ => none

/-- What a 32-bit read of a register returns; reserved fields read as 0, and no read has a side effect
(10_state.md R25, R30 to R36). -/
def readReg (r : Reg) (s : State) : Word :=
  match r with
  | .cmd => s.op.setWidth 32
  | .status => statusWord s
  | .inAddr => s.inAddr
  | .inLen => s.inLen
  | .outAddr => s.outAddr
  | .outCap => s.outCap
  | .outLen => s.outLen
  | .irqEn => (BitVec.ofBool s.doneIe).setWidth 32
  | .memsize => BitVec.ofNat 32 s.memSize

/-- What a 32-bit write of `v` to a register does (10_state.md R24, R28, R31 to R34, R36). -/
def writeReg (r : Reg) (v : Word) (s : State) : State :=
  match r with
  | .cmd => if s.busy then s else startCommand v s
  | .status => if v.getLsbD 1 then acknowledge s else s
  | .inAddr => if s.busy then s else { s with inAddr := v }
  | .inLen => if s.busy then s else { s with inLen := v }
  | .outAddr => if s.busy then s else { s with outAddr := v }
  | .outCap => if s.busy then s else { s with outCap := v }
  | .outLen => s
  | .irqEn => { s with doneIe := v.getLsbD 0 }
  | .memsize => s

/-- The register that an access reaches: only an aligned 32-bit access to a mapped offset reaches one
(10_state.md R21). -/
def regReached (width : BusWidth) (offset : BitVec 6) : Option Reg :=
  match width with
  | .b8 => none
  | .b16 => none
  | .b32 => regAt offset
  | .b64 => none

/-- What a read of the register space returns; 0 where it reaches no register (10_state.md R21). -/
def busRead (width : BusWidth) (offset : BitVec 6) (s : State) : Word :=
  match regReached width offset with
  | some r => readReg r s
  | none => 0

/-- What a write to the register space does; nothing where it reaches no register (10_state.md R21). -/
def busWrite (width : BusWidth) (offset : BitVec 6) (v : Word) (s : State) : State :=
  match regReached width offset with
  | some r => writeReg r v s
  | none => s

/-- What a read through the buffer port returns (20_memory.md R62). -/
def portRead (a : Nat) (s : State) : Byte := if a < s.memSize then readByte s.mem a else 0x00

/-- What a write through the buffer port does (20_memory.md R62). -/
def portWrite (a : Nat) (v : Byte) (s : State) : State :=
  if a < s.memSize then storeByte a v s else s

/-- Whether an access through the buffer port is a protocol violation: it is to buffer memory, whose addresses are those
below MEM_SIZE (20_memory.md R60), while BUSY = 1 (R62; 70_reset_and_hazards.md R240; log 8). -/
def portViolation (a : Nat) (s : State) : Bool := s.busy && decide (a < s.memSize)

/-- Return a value to the host (log 5). -/
def answer (v : Word) (s : State) : State := { s with rdata := v }

/-- A WAIT that has not ended: the engine gets the next turn, and then the host tries again (30_encoding.md R91;
log 2). -/
def retry (op : HostOp) (s : State) : State := { s with bus := none :: some op :: s.bus }

/-- One turn of the host, already taken off the queue (30_encoding.md R90, R91). An access to buffer memory
while BUSY = 1 has no meaning (70_reset_and_hazards.md R240; log 8). -/
def hostTurn (op : HostOp) (s : State) : Host.Outcome State Fault Refusal :=
  match op with
  | .regWrite width offset v => .next (busWrite width offset v s)
  | .regRead width offset => .next (answer (busRead width offset s) s)
  | .memWrite a v => if portViolation a s then .fault .hostMemoryWhileBusy else .next (portWrite a v s)
  | .memRead a =>
    if portViolation a s then .fault .hostMemoryWhileBusy else .next (answer ((portRead a s).setWidth 32) s)
  | .waitDone =>
    if s.done then .next (answer (statusWord s) s) else .next (retry .waitDone (answer (statusWord s) s))
  | .waitIrq => if irq s then .next (answer (statusWord s) s) else .next (retry .waitIrq s)
  | .reset => .next (assertReset s)

/-- The command word that the running engine dispatches on: CMD as it reads (10_state.md R25;
41_command_framework.md R132). -/
def fetchWord (s : State) : Word := readReg .cmd s

/-- The command that the running engine dispatches on (41_command_framework.md R132). -/
def fetch (s : State) : Instr := decode (fetchWord s)

/-- Whether the engine runs a command: ESTATE is RUN (10_state.md R37; 60_exceptions.md R216). -/
def running (s : State) : Bool := s.estate = .run

/-- The word `w` written to CMD of an idle host: the command has started, and the engine has the next turn. -/
def presentCommand (w : Word) (s : State) : State := startCommand w { s with bus := [] }

end Sys2Proof.Machine
end

