-- ==== Sys2Proof/Machine/Step.lean ====
section
/-! DEFINITION. One step: the host's next turn, or the engine's (00_scope.md R18; 20_memory.md R72). -/

namespace Sys2Proof.Machine

/-- The engine's turn: a running engine runs its command to completion (41_command_framework.md R141); an idle one does
nothing (60_exceptions.md R216). -/
def engineTurn (s : State) : Host.Outcome State Fault Refusal :=
  if running s then exec (fetch s) s else .next s

/-- One step of the machine. The head of the host's queue moves next; an empty queue or an idle slot leaves the turn to
the engine (log 2). -/
def step (s : State) : Host.Outcome State Fault Refusal :=
  match s.bus with
  | [] => engineTurn s
  | none :: rest => engineTurn { s with bus := rest }
  | some op :: rest => hostTurn op { s with bus := rest }

/-- The state whose very next step runs the command word `w`: the CMD write has been accepted (41_command_framework.md
R130) and the host leaves the turn to the engine (log 10). -/
def State.withFetchWord (s : State) (nbits w : Nat) : State := presentCommand (BitVec.ofNat 32 (w % 2 ^ nbits)) s

end Sys2Proof.Machine
end

