-- ==== Sys2Proof/Safety.lean ====
section
/-! DEFINITION. The terms that claims use: the invariant of every run, the start and the outcomes of a command, and the
codecs as functions of the bit stream (20_memory.md R68; 40_datapath.md R117), written without the engine's loops. -/

namespace Sys2Proof.Machine

/-! ### States -/

/-- The engine has just started a command: the state after 41_command_framework.md R130, as far as R130 fixes it. -/
abbrev Started (s : State) : Prop :=
  s.busy = true ∧ s.done = false ∧ s.result = 0 ∧ s.outLen = 0 ∧ s.estate = .run ∧ s.dp = Datapath.zero

/-- The windows are valid and do not overlap (20_memory.md R63; 41_command_framework.md R134). -/
abbrev Usable (s : State) : Prop :=
  s.inAddr.toNat + s.inLen.toNat ≤ s.memSize ∧ s.outAddr.toNat + s.outCap.toNat ≤ s.memSize ∧
  ¬(0 < s.inLen.toNat ∧ 0 < s.outCap.toNat ∧ s.inAddr.toNat < s.outAddr.toNat + s.outCap.toNat ∧
    s.outAddr.toNat < s.inAddr.toNat + s.inLen.toNat)

/-- What holds of every state of a run. The bounds of the datapath are the spec's for a running command; between commands
they rest on 41_command_framework.md R140, which leaves the datapath registers as they are (log 9). -/
structure Inv (s : State) : Prop where
  /-- 00_scope.md R8. -/
  memSize_pos : 1 ≤ s.memSize
  /-- 00_scope.md R8. -/
  memSize_le : s.memSize ≤ Config.maxMemSize
  /-- Memory has its canonical form, which is the model's own (log 1). -/
  mem_wf : Memory.wf s.mem
  /-- 20_memory.md R60: no byte lies outside the buffer memory. -/
  mem_inside : ∀ c ∈ s.mem, c.1 < s.memSize
  /-- 10_state.md R37: ESTATE mirrors BUSY. -/
  mirrors : s.busy = true ↔ s.estate = .run
  /-- 10_state.md R27. -/
  not_busy_and_done : ¬(s.busy = true ∧ s.done = true)
  /-- 70_reset_and_hazards.md R242, and a command is one engine step (41_command_framework.md R141; log 3). -/
  busy_started : s.busy = true → Started s
  /-- 60_exceptions.md R200: codes 5 to 7 are never written. -/
  result_le : s.result.toNat ≤ 4
  /-- 10_state.md R38 (between commands: log 9). -/
  carry_canonical : s.dp.c.toNat < 2 ^ s.dp.cn.toNat
  /-- 10_state.md R39 (between commands: log 9). -/
  count_le : s.dp.cn.toNat ≤ 7
  /-- 10_state.md R37: the phase is a position mod 3 (between commands: log 9). -/
  phase_le : s.dp.ph.toNat ≤ 2
  /-- 40_datapath.md R116 (between commands: log 9). -/
  in_index_le : s.dp.i.toNat ≤ s.memSize
  /-- 40_datapath.md R116 (between commands: log 9). -/
  out_index_le : s.dp.o.toNat ≤ s.memSize
  /-- 40_datapath.md R116 (between commands: log 9). -/
  length_le : s.dp.s.toNat ≤ s.memSize

/-! ### What a command reads -/

/-- The `n` bytes of memory from address `a` on. -/
def bytesAt (m : Memory) (a n : Nat) : List Byte := (List.range n).map fun k => readByte m (a + k)

/-- The bytes of the input window (20_memory.md R69). -/
def inputBytes (s : State) : List Byte := bytesAt s.mem s.inAddr.toNat s.inLen.toNat

/-- The string in the input window: the bytes before the first 0x00, or all of them (41_command_framework.md R135). -/
def inputString (s : State) : List Byte := (inputBytes s).takeWhile fun b => b != 0

/-- The commands whose input is bytes or digit values (41_command_framework.md R136). -/
def byteCommands : List Instr := [.enc16, .enc32, .enc8, .dec8]

/-- The commands whose input is a string (41_command_framework.md R136). -/
def stringCommands : List Instr := [.dec16, .dec32, .s2n8]

/-- The seven commands that are not reserved (30_encoding.md R82). -/
def codecCommands : List Instr := [.enc16, .dec16, .enc32, .dec32, .enc8, .dec8, .s2n8]

/-- The encodes, which end their output with a NUL (40_datapath.md R114). -/
def encodeCommands : List Instr := [.enc16, .enc32, .enc8]

/-- S of a command (41_command_framework.md R136). -/
def inputSize (i : Instr) (s : State) : Nat :=
  if i ∈ stringCommands then (inputString s).length else s.inLen.toNat

/-- REQ of a command with an up-front check (41_command_framework.md R138; for ENC8 the closed form ceil(8S/3)). -/
def requiredOutput (i : Instr) (n : Nat) : Option Nat :=
  match i with
  | .rsvd0 => none
  | .enc16 => some (2 * n + 1)
  | .dec16 => some (n / 2)
  | .enc32 => some (8 * ((n + 4) / 5) + 1)
  | .dec32 => none
  | .enc8 => some ((8 * n + 2) / 3 + 1)
  | .dec8 => some (3 * (n / 8) + n % 8 / 3)
  | .s2n8 => some n
  | .rsvd8 _ => none

/-! ### What a command leaves -/

/-- What no command writes: CMD, the operand registers, IRQ_EN, MEM_SIZE, and the model's queue and read value. -/
def ControlKept (s t : State) : Prop :=
  t.op = s.op ∧ t.inAddr = s.inAddr ∧ t.inLen = s.inLen ∧ t.outAddr = s.outAddr ∧ t.outCap = s.outCap ∧
  t.doneIe = s.doneIe ∧ t.memSize = s.memSize ∧ t.bus = s.bus ∧ t.rdata = s.rdata

/-- The command that ran in `s` has completed in `t` with a result code (41_command_framework.md R140). -/
def CompletedWith (code : BitVec 3) (s t : State) : Prop :=
  t.result = code ∧ t.busy = false ∧ t.done = true ∧ t.estate = .idle ∧ ControlKept s t

/-- Every byte outside the `n` bytes from `a` on is unchanged. -/
def KeptOutside (s t : State) (a n : Nat) : Prop :=
  ∀ x, x < a ∨ a + n ≤ x → readByte t.mem x = readByte s.mem x

/-- Command `i` completes with OK: it writes exactly `out` at OUT_ADDR, no other byte changes, and OUT_LEN is `n`
(20_memory.md R67; 41_command_framework.md R140). -/
def Succeeds (i : Instr) (s : State) (out : List Byte) (n : Nat) : Prop :=
  ∃ t, exec i s = .next t ∧ CompletedWith 0 s t ∧ t.outLen.toNat = n ∧ t.draws = s.draws ∧
    bytesAt t.mem s.outAddr.toNat out.length = out ∧ KeptOutside s t s.outAddr.toNat out.length

/-- Command `i` completes with a code other than OK, no byte of memory changes, and OUT_LEN is the free value of this
draw (20_memory.md R67; 93_implementation_defined.md U1). -/
def FailsUntouched (i : Instr) (s : State) (code : BitVec 3) : Prop :=
  ∃ t, exec i s = .next t ∧ CompletedWith code s t ∧ t.outLen = Config.freeWord s.draws ∧ t.draws = s.draws + 1 ∧
    t.mem = s.mem

/-- Command `i` completes with a code other than OK, every byte of the output window is the free value of this draw and
no other byte changes (20_memory.md R67; 93_implementation_defined.md U1, U2). -/
def FailsWindowFree (i : Instr) (s : State) (code : BitVec 3) : Prop :=
  ∃ t, exec i s = .next t ∧ CompletedWith code s t ∧ t.outLen = Config.freeWord s.draws ∧ t.draws = s.draws + 1 ∧
    (∀ a, s.outAddr.toNat ≤ a → a < s.outAddr.toNat + s.outCap.toNat → readByte t.mem a = Config.freeByte s.draws a) ∧
    KeptOutside s t s.outAddr.toNat s.outCap.toNat

/-! ### The bit stream -/

/-- The bits of a value, the most significant first (20_memory.md R68). -/
def bitsOf {n : Nat} (v : BitVec n) : List Bool := (List.range n).map v.getMsbD

/-- The bit stream of a list of bytes, symbol values or digits (20_memory.md R68). -/
def bitStream {n : Nat} (vs : List (BitVec n)) : List Bool := vs.flatMap bitsOf

/-- Element `k` of a stream cut into `n`-bit elements: bits `[kn, kn + n)`, the first most significant, zero-filled below
where the stream has ended (40_datapath.md R117). -/
def element (n : Nat) (bits : List Bool) (k : Nat) : BitVec n :=
  BitVec.ofNat n ((List.range n).foldl (fun v j => 2 * v + (bits.getD (k * n + j) false).toNat) 0)

/-- The first `count` elements of a stream. -/
def elements (n count : Nat) (bits : List Bool) : List (BitVec n) := (List.range count).map (element n bits)

/-- The Hamming weight of a group: its number of 1 bits (40_datapath.md R104). -/
def hamming (g : BitVec 3) : Nat := (bitsOf g).count true

/-- The sum of the Hamming weights of a list of groups. -/
def hammingSum (gs : List (BitVec 3)) : Nat := (gs.map hamming).sum

/-! ### The codecs -/

/-- The base16 text of bytes (42_base16.md R150, R151). -/
def hexText (bs : List Byte) : List Byte := (elements 4 (2 * bs.length) (bitStream bs)).map hexSym

/-- The base32 text of bytes: ceil(8L/5) data symbols and PADCOUNT[L mod 5] `=` (43_base32.md R161, R162). -/
def b32Text (bs : List Byte) : List Byte :=
  (elements 5 ((8 * bs.length + 4) / 5) (bitStream bs)).map b32Sym ++ List.replicate (padCount (bs.length % 5)) padChar

/-- The full groups of a base8 encode (44_base8.md R171, R172). -/
def b8Groups (bs : List Byte) : List (BitVec 3) := elements 3 (8 * bs.length / 3) (bitStream bs)

/-- The last digit of a base8 encode, if the length is not a multiple of 3: the stream bits left, and below them the
weight of the full groups mod 2^cb, cb = L mod 3 (44_base8.md R173). -/
def b8Last (bs : List Byte) : List (BitVec 3) :=
  if bs.length % 3 = 0 then []
  else [element 3 (bitStream bs) (8 * bs.length / 3) +
    BitVec.ofNat 3 (hammingSum (b8Groups bs) % 2 ^ (bs.length % 3))]

/-- The base8 text of bytes (44_base8.md R171). -/
def b8Text (bs : List Byte) : List Byte := (b8Groups bs ++ b8Last bs).map b8Sym

/-- The bytes that a list of `n`-bit values decodes to: the whole bytes of its stream (40_datapath.md R109). -/
def decodedBytes {n : Nat} (vs : List (BitVec n)) : List Byte := elements 8 (n * vs.length / 8) (bitStream vs)

/-- The check of DEC8 on digits: none when the count is a multiple of 8, else the low cb bits of the last digit against
the weight of all the others, cb = (count mod 8) / 3 (44_base8.md R175). -/
abbrev checkPasses (ds : List (BitVec 3)) : Prop :=
  ds.length % 8 = 0 ∨
  (ds.getLastD 0).toNat % 2 ^ (ds.length % 8 / 3) = hammingSum ds.dropLast % 2 ^ (ds.length % 8 / 3)

/-! ### The reframer on lists -/

/-- `pack_byte` on each byte in turn: all groups, and the datapath after (40_datapath.md R106). -/
def packAll (n : Nat) : List Byte → Datapath → List (BitVec n) × Datapath
  | [], d => ([], d)
  | b :: bs, d =>
    let r := packByte n b d
    let q := packAll n bs r.2
    (r.1 ++ q.1, q.2)

/-- `unpack_symbol` on each value in turn: all bytes, and the datapath after (40_datapath.md R109). -/
def unpackAll {n : Nat} : List (BitVec n) → Datapath → List Byte × Datapath
  | [], d => ([], d)
  | v :: vs, d =>
    let r := unpackSymbol v d
    let q := unpackAll vs r.2
    (r.1 ++ q.1, q.2)

end Sys2Proof.Machine
end

