-- ==== Sys2Proof/Certificates/Slice0/Obligations.lean ====
section
/-! DEFINITION. The statements for the provers, in the order of OBLIGATIONS.json. A rule about a host access is stated of
the step that takes it: the queue `bus` and the value read `rdata` are the model's own carriers of the host's side (logs
2 and 5), and no rule of the spec. -/

open Sys2Proof Sys2Proof.Machine

/-! ### Command words -/

/-- 30_encoding.md R80, R82, R88: decode and encode agree in both directions; the encoder's ignored bits are 0. -/
def Obligations.DecodeEncodeAgree : Prop :=
  (∀ i : Instr, wellFormed i = true → decode (encode i) = i ∧ (encode i).toNat < 16) ∧
  (∀ w : Word, wellFormed (decode w) = true ∧ encode (decode w) = w &&& 0x0000000F)

/-- 30_encoding.md R89: exactly one row of the opcode table matches a word, and the decoder gives that row's command. -/
def Obligations.ExactlyOneRowMatches : Prop :=
  ∀ w : Word, ∃ r, matchingRows w = [r] ∧ decode w = r.toInstr (w.extractLsb' 0 4)

/-- 30_encoding.md R82: command words written out from the opcode table. -/
def Obligations.SampleWordsDecode : Prop :=
  decode 0x00000000 = .rsvd0 ∧ decode 0x00000001 = .enc16 ∧ decode 0x00000002 = .dec16 ∧
  decode 0x00000003 = .enc32 ∧ decode 0x00000004 = .dec32 ∧ decode 0x00000015 = .enc8 ∧
  decode 0xFFFFFFF6 = .dec8 ∧ decode 0x00000007 = .s2n8 ∧ decode 0x00000008 = .rsvd8 0x8 ∧
  decode 0x8000000F = .rsvd8 0xF

/-- 30_encoding.md R88: a command word acts as the same word with bits 31:4 zero. -/
def Obligations.UpperBitsOfCommandWordIgnored : Prop :=
  ∀ (w : Word) (s : State),
    decode w = decode (w &&& 0x0000000F) ∧ writeReg .cmd w s = writeReg .cmd (w &&& 0x0000000F) s

/-! ### The step -/

/-- 41_command_framework.md R132, R141: while ESTATE is RUN, the engine's turn is exec of the command that CMD.OP
decodes to, after an idle slot of the queue is taken off; while it is IDLE the engine does nothing (60_exceptions.md
R216). The queue is the model's own (log 2). -/
def Obligations.StepRunsFetchedCommand : Prop :=
  (∀ s : State, s.estate = .run → s.bus = [] → step s = exec (decode (s.op.setWidth 32)) s) ∧
  (∀ (s : State) rest, s.estate = .run → s.bus = none :: rest →
    step s = exec (decode (s.op.setWidth 32)) { s with bus := rest }) ∧
  (∀ s : State, s.estate = .idle → s.bus = [] → step s = .next s) ∧
  (∀ (s : State) rest, s.estate = .idle → s.bus = none :: rest → step s = .next { s with bus := rest })

/-- 41_command_framework.md R130, R132: the state that withFetchWord gives has started the command of the word, and its
next step runs it (log 10). -/
def Obligations.PresentedWordRunsNext : Prop :=
  ∀ (s : State) (nbits w : Nat),
    Started (s.withFetchWord nbits w) ∧
    ∃ i, decodeTableWord nbits w = some i ∧ step (s.withFetchWord nbits w) = exec i (s.withFetchWord nbits w)

/-- 10_state.md R24; 41_command_framework.md R131: a CMD write while idle starts the command of its OP, with every
datapath register cleared; while BUSY it changes nothing. Bits 31:4 have no effect in either case. -/
def Obligations.CmdWriteStartsCommand : Prop :=
  ∀ (s : State) rest (w : Word), s.bus = some (.regWrite .b32 0x00 w) :: rest →
    (s.busy = false → step s = .next { s with
      bus := rest, op := w.extractLsb' 0 4, busy := true, done := false, result := 0, outLen := 0, estate := .run,
      dp := { c := 0, cn := 0, p := 0, ph := 0, i := 0, o := 0, s := 0 } }) ∧
    (s.busy = true → step s = .next { s with bus := rest })

/-- 70_reset_and_hazards.md R241: writes to CMD and the operand registers while BUSY are ignored; writes to IRQ_EN and
STATUS take effect. -/
def Obligations.WritesWhileBusy : Prop :=
  ∀ (s : State) rest (off : BitVec 6) (w : Word), s.bus = some (.regWrite .b32 off w) :: rest → s.busy = true →
    (off ∈ [0x00, 0x08, 0x0C, 0x10, 0x14] → step s = .next { s with bus := rest }) ∧
    (off = 0x1C → step s = .next { s with bus := rest, doneIe := w.getLsbD 0 }) ∧
    (off = 0x04 → step s = .next { s with bus := rest, done := if w.getLsbD 1 then false else s.done })

/-- 10_state.md R31: the four operand registers store all 32 bits while idle, keep their value while BUSY, read as stored
and reset to 0. -/
def Obligations.OperandRegisters : Prop :=
  (∀ (s : State) rest (v : Word),
    (s.bus = some (.regWrite .b32 0x08 v) :: rest →
      step s = .next { s with bus := rest, inAddr := if s.busy then s.inAddr else v }) ∧
    (s.bus = some (.regWrite .b32 0x0C v) :: rest →
      step s = .next { s with bus := rest, inLen := if s.busy then s.inLen else v }) ∧
    (s.bus = some (.regWrite .b32 0x10 v) :: rest →
      step s = .next { s with bus := rest, outAddr := if s.busy then s.outAddr else v }) ∧
    (s.bus = some (.regWrite .b32 0x14 v) :: rest →
      step s = .next { s with bus := rest, outCap := if s.busy then s.outCap else v }) ∧
    (s.bus = some (.regRead .b32 0x08) :: rest → step s = .next { s with bus := rest, rdata := s.inAddr }) ∧
    (s.bus = some (.regRead .b32 0x0C) :: rest → step s = .next { s with bus := rest, rdata := s.inLen }) ∧
    (s.bus = some (.regRead .b32 0x10) :: rest → step s = .next { s with bus := rest, rdata := s.outAddr }) ∧
    (s.bus = some (.regRead .b32 0x14) :: rest → step s = .next { s with bus := rest, rdata := s.outCap })) ∧
  ∀ n : Nat, (State.resetWith n).inAddr = 0 ∧ (State.resetWith n).inLen = 0 ∧ (State.resetWith n).outAddr = 0 ∧
    (State.resetWith n).outCap = 0

/-- 10_state.md R28, R29; 60_exceptions.md R208: a STATUS write clears DONE exactly when bit 1 is set, and changes
nothing else. -/
def Obligations.StatusWriteClearsDoneOnly : Prop :=
  ∀ (s : State) rest (v : Word), s.bus = some (.regWrite .b32 0x04 v) :: rest →
    step s = .next { s with bus := rest, done := if v.getLsbD 1 then false else s.done }

/-- 10_state.md R33, R34: IRQ_EN holds bit 0 of what is written at any time, and reads back with all other bits 0;
MEMSIZE reads as MEM_SIZE and ignores writes. OUT_LEN ignores writes too (R32). -/
def Obligations.IrqEnAndReadOnlyRegisters : Prop :=
  (∀ (s : State) rest (v : Word),
    (s.bus = some (.regWrite .b32 0x1C v) :: rest → step s = .next { s with bus := rest, doneIe := v.getLsbD 0 }) ∧
    (s.bus = some (.regRead .b32 0x1C) :: rest →
      step s = .next { s with bus := rest, rdata := if s.doneIe then 1 else 0 }) ∧
    (s.bus = some (.regWrite .b32 0x20 v) :: rest → step s = .next { s with bus := rest }) ∧
    (s.bus = some (.regRead .b32 0x20) :: rest →
      step s = .next { s with bus := rest, rdata := BitVec.ofNat 32 s.memSize }) ∧
    (s.bus = some (.regWrite .b32 0x18 v) :: rest → step s = .next { s with bus := rest })) ∧
  ∀ n : Nat, (State.resetWith n).doneIe = false

/-- 10_state.md R25, R30 to R34: what a 32-bit read of each register returns; a read changes nothing else.
The field that holds the value read is the model's own (log 5). -/
def Obligations.RegisterReadValues : Prop :=
  ∀ (s : State) rest (off : BitVec 6) (v : Word),
    (off, v) ∈ [((0x00 : BitVec 6), s.op.setWidth 32), (0x04, statusWord s), (0x08, s.inAddr), (0x0C, s.inLen),
      (0x10, s.outAddr), (0x14, s.outCap), (0x18, s.outLen), (0x1C, if s.doneIe then 1 else 0),
      (0x20, BitVec.ofNat 32 s.memSize)] →
    s.bus = some (.regRead .b32 off) :: rest → step s = .next { s with bus := rest, rdata := v }

/-- 10_state.md R30: a STATUS read returns RESULT in bits 10:8, DONE in bit 1, BUSY in bit 0 and 0 elsewhere, and changes
nothing else. -/
def Obligations.StatusReadLayout : Prop :=
  ∀ (s : State) rest, s.bus = some (.regRead .b32 0x04) :: rest →
    ∃ v : Word, step s = .next { s with bus := rest, rdata := v } ∧
      v.toNat = 256 * s.result.toNat + 2 * s.done.toNat + s.busy.toNat

/-- 10_state.md R21: an access of another width, or at an unmapped or misaligned offset, reads 0 or is ignored. -/
def Obligations.InertRegisterAccesses : Prop :=
  ∀ (s : State) rest (width : BusWidth) (off : BitVec 6) (v : Word),
    (width ≠ .b32 ∨ off.toNat % 4 ≠ 0 ∨ 0x20 < off.toNat) →
    (s.bus = some (.regRead width off) :: rest → step s = .next { s with bus := rest, rdata := 0 }) ∧
    (s.bus = some (.regWrite width off v) :: rest → step s = .next { s with bus := rest })

/-- 20_memory.md R60, R62; 70_reset_and_hazards.md R240: the buffer port. Below MEM_SIZE it reads and writes the byte while
idle, and R240 stops the machine while BUSY; at and above MEM_SIZE a read returns 0 and a write is ignored, whether or not
a command runs. That the violation is confined to addresses below MEM_SIZE is the model's reading (log 8). -/
def Obligations.BufferPortReadsAndWrites : Prop :=
  ∀ (s : State) rest (a : Nat) (v : Byte),
    (s.busy = false → a < s.memSize → s.bus = some (.memRead a) :: rest →
      step s = .next { s with bus := rest, rdata := (readByte s.mem a).setWidth 32 }) ∧
    (s.busy = false → a < s.memSize → s.bus = some (.memWrite a v) :: rest →
      ∃ t, step s = .next t ∧ t = { s with bus := rest, mem := t.mem } ∧ readByte t.mem a = v ∧
        ∀ x, x ≠ a → readByte t.mem x = readByte s.mem x) ∧
    (s.memSize ≤ a → s.bus = some (.memRead a) :: rest → step s = .next { s with bus := rest, rdata := 0 }) ∧
    (s.memSize ≤ a → s.bus = some (.memWrite a v) :: rest → step s = .next { s with bus := rest }) ∧
    (s.busy = true → a < s.memSize → s.bus = some (.memRead a) :: rest ∨ s.bus = some (.memWrite a v) :: rest →
      step s = .fault .hostMemoryWhileBusy)

/-- 70_reset_and_hazards.md R240; 20_memory.md R60, R62: while BUSY, an access through the buffer port stops the machine
exactly when its address is one of buffer memory, below MEM_SIZE. That R240 stops there, and R62 governs at and above
MEM_SIZE, is the model's reading (log 8). -/
def Obligations.BufferPortWhileBusyFaults : Prop :=
  ∀ (s : State) rest (a : Nat) (v : Byte), s.busy = true →
    (s.bus = some (.memRead a) :: rest → (step s = .fault .hostMemoryWhileBusy ↔ a < s.memSize)) ∧
    (s.bus = some (.memWrite a v) :: rest → (step s = .fault .hostMemoryWhileBusy ↔ a < s.memSize))

/-- 10_state.md R35; 60_exceptions.md R209: irq is DONE and DONE_IE, and 0 after reset; it falls with an acknowledgement,
with a start, with a cleared DONE_IE (which keeps DONE) and with a reset, and rises at once when DONE_IE is set while DONE
is 1. -/
def Obligations.IrqFollowsDoneAndEnable : Prop :=
  ∀ (s : State) (v : Word) (n : Nat),
    (irq s = true ↔ s.done = true ∧ s.doneIe = true) ∧
    irq (State.resetWith n) = false ∧
    (v.getLsbD 1 = true → irq (writeReg .status v s) = false) ∧
    (s.busy = false → irq (writeReg .cmd v s) = false) ∧
    (v.getLsbD 0 = false → irq (writeReg .irqEn v s) = false ∧ (writeReg .irqEn v s).done = s.done) ∧
    irq (assertReset s) = false ∧
    (v.getLsbD 0 = true → s.done = true → irq (writeReg .irqEn v s) = true)

/-- 30_encoding.md R91: WAIT reads STATUS and ends when DONE is 1 (or irq is 1); until then the engine gets a turn and
the WAIT stays next. That polls and engine turns alternate is the model's choice (log 2). -/
def Obligations.WaitEndsWhenDone : Prop :=
  ∀ (s : State) rest,
    (s.bus = some .waitDone :: rest → s.done = true → step s = .next { s with bus := rest, rdata := statusWord s }) ∧
    (s.bus = some .waitDone :: rest → s.done = false →
      step s = .next { s with bus := none :: some .waitDone :: rest, rdata := statusWord s }) ∧
    (s.bus = some .waitIrq :: rest → irq s = true → step s = .next { s with bus := rest, rdata := statusWord s }) ∧
    (s.bus = some .waitIrq :: rest → irq s = false → step s = .next { s with bus := none :: some .waitIrq :: rest })

/-- 10_state.md R47; 70_reset_and_hazards.md R230: the registers after power-on and reset, for every MEM_SIZE; memory
holds its power-on bytes. -/
def Obligations.ResetRegisterValues : Prop :=
  ∀ (n : Nat) (s : State), s = State.resetWith n → s.op = 0 ∧ s.busy = false ∧ s.done = false ∧ s.result = 0 ∧ s.inAddr = 0 ∧
    s.inLen = 0 ∧ s.outAddr = 0 ∧ s.outCap = 0 ∧ s.outLen = 0 ∧ s.doneIe = false ∧ irq s = false ∧ s.estate = .idle ∧
    s.dp.c = 0 ∧ s.dp.cn = 0 ∧ s.dp.p = 0 ∧ s.dp.ph = 0 ∧ s.dp.i = 0 ∧ s.dp.o = 0 ∧ s.dp.s = 0 ∧ s.memSize = n ∧
    ∀ a, readByte s.mem a = Config.powerOnByte a

/-- 70_reset_and_hazards.md R230, R231: a reset puts every register to its reset value. While idle, memory is unchanged.
While BUSY, the output window is free (as far as it lies in buffer memory and outside the input window: log 7), and
every other byte is unchanged. -/
def Obligations.ResetTurn : Prop :=
  ∀ (s : State) rest, s.bus = some .reset :: rest →
    ∃ t, step s = .next t ∧
      t = { State.resetWith s.memSize with bus := rest, rdata := s.rdata, mem := t.mem, draws := t.draws } ∧
      (s.busy = false → t.mem = s.mem ∧ t.draws = s.draws) ∧
      (s.busy = true → t.draws = s.draws + 1 ∧ ∀ a, readByte t.mem a =
        if s.outAddr.toNat ≤ a ∧ a < s.outAddr.toNat + s.outCap.toNat ∧ a < s.memSize ∧
          ¬(s.inAddr.toNat ≤ a ∧ a < s.inAddr.toNat + s.inLen.toNat)
        then Config.freeByte s.draws a else readByte s.mem a)

/-! ### The commands: results -/

/-- 41_command_framework.md R133: the OPs 0x0 and 0x8 to 0xF are reserved; such a command completes with ERROR from every
state, whatever its operands, memory is not touched, and STATUS reads 0x402. -/
def Obligations.ReservedCompletesWithError : Prop :=
  (∀ w : Word, (w.extractLsb' 0 4 = 0 ∨ 8 ≤ (w.extractLsb' 0 4).toNat) →
    decode w = .rsvd0 ∨ decode w = .rsvd8 (w.extractLsb' 0 4)) ∧
  ∀ (s : State) (i : Instr), (i = .rsvd0 ∨ ∃ op, i = .rsvd8 op) →
    ∃ t, exec i s = .next t ∧ CompletedWith 4 s t ∧ statusWord t = 0x00000402 ∧ t.mem = s.mem

/-- 42_base16.md R151: ENC16 writes two upper-case hex digits a byte, most significant nibble first, and a NUL. -/
def Obligations.Enc16WritesHexText : Prop :=
  ∀ s : State, Started s → Usable s → 0 < s.inLen.toNat → 2 * s.inLen.toNat + 1 ≤ s.outCap.toNat →
    Succeeds .enc16 s (hexText (inputBytes s) ++ [0x00]) (2 * s.inLen.toNat)

/-- 42_base16.md R152: DEC16 of an even, non-empty string of hex digits writes the bytes of its nibbles. -/
def Obligations.Dec16WritesBytes : Prop :=
  ∀ (s : State) (vs : List (BitVec 4)), Started s → Usable s → (inputString s).map hexVal = vs.map some →
    vs ≠ [] → vs.length % 2 = 0 → vs.length / 2 ≤ s.outCap.toNat →
    Succeeds .dec16 s (decodedBytes vs) (vs.length / 2)

/-- 43_base32.md R161, R162: ENC32 writes the 5-bit groups of the stream, the last one zero-filled below, PADCOUNT[L mod
5] `=`, and a NUL. -/
def Obligations.Enc32WritesBase32Text : Prop :=
  ∀ s : State, Started s → Usable s → 0 < s.inLen.toNat → 8 * ((s.inLen.toNat + 4) / 5) + 1 ≤ s.outCap.toNat →
    Succeeds .enc32 s (b32Text (inputBytes s) ++ [0x00]) (8 * ((s.inLen.toNat + 4) / 5))

/-- 43_base32.md R163: DEC32 of a string with no padding writes the whole bytes of its stream, whatever its length
and its last bits. -/
def Obligations.Dec32WritesUnpaddedBytes : Prop :=
  ∀ (s : State) (vs : List (BitVec 5)), Started s → Usable s → (inputString s).map b32Val = vs.map some →
    vs ≠ [] → 5 * vs.length / 8 ≤ s.outCap.toNat →
    Succeeds .dec32 s (decodedBytes vs) (5 * vs.length / 8)

/-- 43_base32.md R163, R164: DEC32 of q symbols and p `=` completes with OK exactly for the padding counts of R164's
table; then it writes the whole bytes of the q symbols, and otherwise it is a source error. -/
def Obligations.Dec32PaddingAcceptance : Prop :=
  ∀ (s : State) (syms : List Byte) (vs : List (BitVec 5)) (p : Nat), Started s → Usable s →
    inputString s = syms ++ List.replicate p padChar → 1 ≤ p → syms.map b32Val = vs.map some →
    5 * vs.length / 8 ≤ s.outCap.toNat →
    (p = [0, 0, 6, 6, 4, 3, 3, 1].getD (vs.length % 8) 0 → Succeeds .dec32 s (decodedBytes vs) (5 * vs.length / 8)) ∧
    (p ≠ [0, 0, 6, 6, 4, 3, 3, 1].getD (vs.length % 8) 0 → FailsWindowFree .dec32 s 3)

/-- 44_base8.md R171 to R173: ENC8 writes the 3-bit groups, the check digit when L is not a multiple of 3, and a
NUL. -/
def Obligations.Enc8WritesDigitsAndCheck : Prop :=
  ∀ s : State, Started s → Usable s → 0 < s.inLen.toNat → (8 * s.inLen.toNat + 2) / 3 + 1 ≤ s.outCap.toNat →
    Succeeds .enc8 s (b8Text (inputBytes s) ++ [0x00]) ((8 * s.inLen.toNat + 2) / 3)

/-- 44_base8.md R174, R175: DEC8 of aligned digits whose check passes writes the whole bytes of their stream. -/
def Obligations.Dec8WritesCheckedBytes : Prop :=
  ∀ (s : State) (ds : List (BitVec 3)), Started s → Usable s → inputBytes s = ds.map (fun d => d.setWidth 8) →
    ds ≠ [] → ds.length % 8 ∈ [0, 3, 6] → 3 * (ds.length / 8) + ds.length % 8 / 3 ≤ s.outCap.toNat →
    checkPasses ds →
    Succeeds .dec8 s (decodedBytes ds) (3 * (ds.length / 8) + ds.length % 8 / 3)

/-- 44_base8.md R177: S2N8 writes the digit value of each character, and no terminator. -/
def Obligations.S2n8WritesDigitValues : Prop :=
  ∀ s : State, Started s → Usable s → inputString s ≠ [] → (∀ ch ∈ inputString s, 0x31 ≤ ch ∧ ch ≤ 0x38) →
    (inputString s).length ≤ s.outCap.toNat →
    Succeeds .s2n8 s ((inputString s).map fun ch => ch - 0x31) (inputString s).length

/-! ### The commands: round trips -/

/-- 42_base16.md R153: ENC16 of at least one byte into 2L + 1 bytes succeeds, and DEC16 of what it wrote, anywhere and in
any other state, gives the bytes back; a length of 0 gives ARGUMENTS. -/
def Obligations.Base16RoundTrip : Prop :=
  ∀ s : State, Started s → Usable s →
    (s.inLen.toNat = 0 → FailsUntouched .enc16 s 1) ∧
    (0 < s.inLen.toNat → 2 * s.inLen.toNat + 1 ≤ s.outCap.toNat →
      ∃ t, exec .enc16 s = .next t ∧ t.result = 0 ∧
        ∀ u : State, Started u → Usable u →
          bytesAt u.mem u.inAddr.toNat (2 * s.inLen.toNat + 1) =
            bytesAt t.mem s.outAddr.toNat (2 * s.inLen.toNat + 1) →
          2 * s.inLen.toNat ≤ u.inLen.toNat → s.inLen.toNat ≤ u.outCap.toNat →
          Succeeds .dec16 u (inputBytes s) s.inLen.toNat)

/-- 43_base32.md R165: ENC32 of at least one byte with enough capacity succeeds, and DEC32 of what it wrote, anywhere and
in any other state, gives the bytes back. -/
def Obligations.Base32RoundTrip : Prop :=
  ∀ s : State, Started s → Usable s → 0 < s.inLen.toNat → 8 * ((s.inLen.toNat + 4) / 5) + 1 ≤ s.outCap.toNat →
    ∃ t, exec .enc32 s = .next t ∧ t.result = 0 ∧
      ∀ u : State, Started u → Usable u →
        bytesAt u.mem u.inAddr.toNat (8 * ((s.inLen.toNat + 4) / 5) + 1) =
          bytesAt t.mem s.outAddr.toNat (8 * ((s.inLen.toNat + 4) / 5) + 1) →
        8 * ((s.inLen.toNat + 4) / 5) ≤ u.inLen.toNat → s.inLen.toNat ≤ u.outCap.toNat →
        Succeeds .dec32 u (inputBytes s) s.inLen.toNat

/-- 44_base8.md R178: ENC8 of at least one byte with enough capacity succeeds, S2N8 of what it wrote succeeds, and DEC8 of
the ceil(8L/3) digit values that S2N8 wrote gives the bytes back. -/
def Obligations.Base8RoundTrip : Prop :=
  ∀ s : State, Started s → Usable s → 0 < s.inLen.toNat → (8 * s.inLen.toNat + 2) / 3 + 1 ≤ s.outCap.toNat →
    ∃ t, exec .enc8 s = .next t ∧ t.result = 0 ∧
      ∀ u : State, Started u → Usable u →
        bytesAt u.mem u.inAddr.toNat ((8 * s.inLen.toNat + 2) / 3 + 1) =
          bytesAt t.mem s.outAddr.toNat ((8 * s.inLen.toNat + 2) / 3 + 1) →
        (8 * s.inLen.toNat + 2) / 3 ≤ u.inLen.toNat → (8 * s.inLen.toNat + 2) / 3 ≤ u.outCap.toNat →
        ∃ v, exec .s2n8 u = .next v ∧ v.result = 0 ∧ v.outLen.toNat = (8 * s.inLen.toNat + 2) / 3 ∧
          ∀ x : State, Started x → Usable x → x.inLen.toNat = (8 * s.inLen.toNat + 2) / 3 →
            inputBytes x = bytesAt v.mem u.outAddr.toNat ((8 * s.inLen.toNat + 2) / 3) →
            s.inLen.toNat ≤ x.outCap.toNat →
            Succeeds .dec8 x (inputBytes s) s.inLen.toNat

/-! ### The commands: errors -/

/-- 41_command_framework.md R134: a window outside memory, or windows that overlap, give ARGUMENTS in every one of the
seven commands, and nothing is written. -/
def Obligations.UnusableWindowsGiveArguments : Prop :=
  ∀ (i : Instr) (s : State), i ∈ codecCommands → ¬Usable s → FailsUntouched i s 1

/-- 41_command_framework.md R136: an input of length 0 gives ARGUMENTS, and nothing is written. -/
def Obligations.EmptyInputGivesArguments : Prop :=
  ∀ (i : Instr) (s : State), i ∈ codecCommands → Usable s → inputSize i s = 0 → FailsUntouched i s 1

/-- 41_command_framework.md R137, R138: a capacity below REQ gives OVERFLOW, before any source check, and nothing is
written. -/
def Obligations.ShortCapacityGivesOverflow : Prop :=
  ∀ (i : Instr) (s : State) (req : Nat), Usable s → inputSize i s ≠ 0 →
    requiredOutput i (inputSize i s) = some req → s.outCap.toNat < req → FailsUntouched i s 2

/-- 42_base16.md R152: an odd length or a character that is no hex digit is a source error. -/
def Obligations.Dec16SourceErrors : Prop :=
  ∀ s : State, Started s → Usable s → inputString s ≠ [] → (inputString s).length / 2 ≤ s.outCap.toNat →
    ((inputString s).length % 2 = 1 ∨ ∃ ch ∈ inputString s, hexVal ch = none) → FailsWindowFree .dec16 s 3

/-- 43_base32.md R163: DEC32 reports whichever comes first in input order. With `vs` the values of the symbols before
the first character that is no symbol: if they hold more bytes than OUT_CAP, OVERFLOW; else if the next character is no
`=`, or is an `=` whose tail is not exactly PADCOUNT[O mod 5] `=`, SRCERROR. -/
def Obligations.Dec32FirstErrorInInputOrder : Prop :=
  (∀ (s : State) (pre post : List Byte) (vs : List (BitVec 5)), Started s → Usable s →
    inputString s = pre ++ post → pre.map b32Val = vs.map some → s.outCap.toNat < 5 * vs.length / 8 →
    FailsWindowFree .dec32 s 2) ∧
  (∀ (s : State) (pre post : List Byte) (ch : Byte) (vs : List (BitVec 5)), Started s → Usable s →
    inputString s = pre ++ ch :: post → pre.map b32Val = vs.map some → 5 * vs.length / 8 ≤ s.outCap.toNat →
    ((ch ≠ padChar ∧ b32Val ch = none) ∨
      (ch = padChar ∧ ch :: post ≠ List.replicate (padCount (5 * vs.length / 8 % 5)) padChar)) →
    FailsWindowFree .dec32 s 3)

/-- 44_base8.md R174: a misaligned digit count, a digit above 7, or a check that fails is a source error. -/
def Obligations.Dec8SourceErrors : Prop :=
  ∀ s : State, Started s → Usable s → 0 < s.inLen.toNat →
    3 * (s.inLen.toNat / 8) + s.inLen.toNat % 8 / 3 ≤ s.outCap.toNat →
    (s.inLen.toNat % 8 ∉ [0, 3, 6] ∨ (∃ b ∈ inputBytes s, 7 < b.toNat) ∨
      ¬checkPasses ((inputBytes s).map fun b => b.setWidth 3)) →
    FailsWindowFree .dec8 s 3

/-- 44_base8.md R177: a character outside `1` to `8` is a source error. -/
def Obligations.S2n8SourceErrors : Prop :=
  ∀ s : State, Started s → Usable s → (inputString s).length ≤ s.outCap.toNat →
    (∃ ch ∈ inputString s, ch < 0x31 ∨ 0x38 < ch) → FailsWindowFree .s2n8 s 3

/-- 60_exceptions.md R204: ERROR comes from a reserved OP and from nothing else; and the encodes never give SRCERROR
(R203). No state is left out. -/
def Obligations.ErrorOnlyFromReserved : Prop :=
  ∀ (i : Instr) (s : State), ∃ t, exec i s = .next t ∧
    (t.result = 4 ↔ i = .rsvd0 ∨ ∃ op, i = .rsvd8 op) ∧ (i ∈ encodeCommands → t.result ≠ 3)

/-- 44_base8.md R176: what the check detects. `ds` passes the check and has a check digit; the window holds it with one
digit replaced. With the last digit replaced, DEC8 still completes with OK exactly when the low cb bits stay; with an
earlier one replaced, exactly when the weights agree mod 2^cb. Otherwise it is a source error. -/
def Obligations.CheckDetectsCorruption : Prop :=
  ∀ (s : State) (ds : List (BitVec 3)), Started s → Usable s → ds.length % 8 ∈ [3, 6] → checkPasses ds →
    3 * (ds.length / 8) + ds.length % 8 / 3 ≤ s.outCap.toNat →
    (∀ (pre : List (BitVec 3)) (d d' : BitVec 3), ds = pre ++ [d] →
      inputBytes s = (pre ++ [d']).map (fun x => x.setWidth 8) →
      ∃ t, exec .dec8 s = .next t ∧ (t.result = 0 ∨ t.result = 3) ∧
        (t.result = 0 ↔ (d ^^^ d').toNat % 2 ^ (ds.length % 8 / 3) = 0)) ∧
    (∀ (pre post : List (BitVec 3)) (g g' : BitVec 3), post ≠ [] → ds = pre ++ g :: post →
      inputBytes s = (pre ++ g' :: post).map (fun x => x.setWidth 8) →
      ∃ t, exec .dec8 s = .next t ∧ (t.result = 0 ∨ t.result = 3) ∧
        (t.result = 0 ↔ hamming g % 2 ^ (ds.length % 8 / 3) = hamming g' % 2 ^ (ds.length % 8 / 3)))

/-! ### The commands: whole-machine rules -/

/-- 41_command_framework.md R140, R142: every command completes, from every state; no command faults or is refused. OUT_LEN
is O on OK and otherwise the free value of this draw; the draw counter is the model's own (log 6). O is read in the state
after the completion, which 10_state.md R42 calls unspecified there; the model keeps it as R140 leaves it (log 9). -/
def Obligations.EveryCommandCompletes : Prop :=
  ∀ (i : Instr) (s : State), ∃ t, exec i s = .next t ∧ CompletedWith t.result s t ∧ t.result.toNat ≤ 4 ∧
    (t.result = 0 → t.outLen = t.dp.o ∧ t.draws = s.draws) ∧
    (t.result ≠ 0 → t.outLen = Config.freeWord s.draws ∧ t.draws = s.draws + 1)

/-- 41_command_framework.md R140, with 10_state.md R24 and R31: a completion writes RESULT, OUT_LEN, BUSY and DONE, and no
command changes another control register. 20_memory.md R65, R67: none changes a byte outside the output window, nor a byte
of a valid input window. -/
def Obligations.CommandFrame : Prop :=
  ∀ (i : Instr) (s t : State), exec i s = .next t →
    ControlKept s t ∧ KeptOutside s t s.outAddr.toNat s.outCap.toNat ∧
    (Usable s → bytesAt t.mem s.inAddr.toNat s.inLen.toNat = inputBytes s)

/-- 20_memory.md R67: after ERROR, ARGUMENTS, and OVERFLOW in a command other than DEC32, memory is unchanged. -/
def Obligations.RefusedCommandsWriteNothing : Prop :=
  ∀ (i : Instr) (s t : State), Started s → exec i s = .next t →
    (t.result = 4 ∨ t.result = 1 ∨ (t.result = 2 ∧ i ≠ .dec32)) → t.mem = s.mem

/-- 20_memory.md R66, R67: after OK, the bytes written are the first O_final of the output window (and the NUL of an
encode); every other byte is unchanged. -/
def Obligations.OkWritesOnlyThePrefix : Prop :=
  ∀ (i : Instr) (s t : State), Started s → exec i s = .next t → t.result = 0 →
    KeptOutside s t s.outAddr.toNat (t.outLen.toNat + if i ∈ encodeCommands then 1 else 0) ∧
    t.outLen.toNat + (if i ∈ encodeCommands then 1 else 0) ≤ s.outCap.toNat

/-- 20_memory.md R65, R66: the engine reads only the input window and writes only the output window, so two started states
that agree on the operands, MEM_SIZE and the input bytes complete with the same result, and on OK with the same output
count and the same bytes written, whatever the rest of buffer memory holds. -/
def Obligations.OutcomeDependsOnInputWindowOnly : Prop :=
  ∀ (i : Instr) (s s' t t' : State), Started s → Started s' →
    s.inAddr = s'.inAddr → s.inLen = s'.inLen → s.outAddr = s'.outAddr → s.outCap = s'.outCap →
    s.memSize = s'.memSize → inputBytes s = inputBytes s' →
    exec i s = .next t → exec i s' = .next t' →
    t.result = t'.result ∧
    (t.result = 0 → t.outLen = t'.outLen ∧
      bytesAt t.mem s.outAddr.toNat (t.outLen.toNat + if i ∈ encodeCommands then 1 else 0) =
        bytesAt t'.mem s.outAddr.toNat (t.outLen.toNat + if i ∈ encodeCommands then 1 else 0))

/-! ### The datapath -/

/-- 40_datapath.md R106: packing a list of bytes from an empty carry gives the first (8k) div N slices of the stream,
and leaves its last 8k mod N bits in the carry. -/
def Obligations.PackCutsTheStream : Prop :=
  ∀ (n : Nat) (bs : List Byte), n ∈ [3, 4, 5] →
    (packAll n bs Datapath.zero).1 = elements n (8 * bs.length / n) (bitStream bs) ∧
    (packAll n bs Datapath.zero).2.cn.toNat = 8 * bs.length % n ∧
    ∀ j < 8 * bs.length % n, (packAll n bs Datapath.zero).2.c.getLsbD (8 * bs.length % n - 1 - j) =
      (bitStream bs).getD (8 * bs.length / n * n + j) false

/-- 40_datapath.md R109: unpacking a list of N-bit values from an empty carry gives the whole bytes of the stream, and
leaves its last Nk mod 8 bits in the carry. -/
def Obligations.UnpackJoinsTheStream : Prop :=
  ∀ (n : Nat) (vs : List (BitVec n)), n ∈ [3, 4, 5] →
    (unpackAll vs Datapath.zero).1 = decodedBytes vs ∧
    (unpackAll vs Datapath.zero).2.cn.toNat = n * vs.length % 8 ∧
    ∀ j < n * vs.length % 8, (unpackAll vs Datapath.zero).2.c.getLsbD (n * vs.length % 8 - 1 - j) =
      (bitStream vs).getD (n * vs.length / 8 * 8 + j) false

/-- 10_state.md R38, R39: every reframer primitive keeps the carry canonical and within its bounds. -/
def Obligations.CarryStaysCanonical : Prop :=
  ∀ (n : Nat) (d : Datapath), n ∈ [3, 4, 5] → d.c.toNat < 2 ^ d.cn.toNat →
    (∀ b : Byte, d.cn.toNat ≤ n - 1 →
      (packByte n b d).2.c.toNat < 2 ^ (packByte n b d).2.cn.toNat ∧ (packByte n b d).2.cn.toNat ≤ n - 1 ∧
        (packByte n b d).1.length ≤ 3) ∧
    (∀ v : BitVec n, d.cn.toNat ≤ 7 →
      (unpackSymbol v d).2.c.toNat < 2 ^ (unpackSymbol v d).2.cn.toNat ∧ (unpackSymbol v d).2.cn.toNat ≤ 7 ∧
        (unpackSymbol v d).1.length ≤ 1) ∧
    (flushGroup n d).2.c.toNat < 2 ^ (flushGroup n d).2.cn.toNat

/-- 40_datapath.md R100 to R104: the contents of the ROMs. A symbol's value is the index it stands at, a lower-case letter
counts as its upper-case one, and no other byte has a value; WEIGHT is the number of 1 bits. -/
def Obligations.RomContents : Prop :=
  (∀ g : BitVec 4, (hexSym g).toNat = if g.toNat < 10 then 0x30 + g.toNat else 0x37 + g.toNat) ∧
  (∀ g : BitVec 5, (b32Sym g).toNat = if g.toNat < 26 then 0x41 + g.toNat else 0x18 + g.toNat) ∧
  (∀ g : BitVec 3, (b8Sym g).toNat = 0x31 + g.toNat) ∧
  (∀ (ch : Byte) (g : BitVec 4),
    hexVal ch = some g ↔ ch = hexSym g ∨ (0x61 ≤ ch ∧ ch ≤ 0x66 ∧ ch - 0x20 = hexSym g)) ∧
  (∀ (ch : Byte) (g : BitVec 5),
    b32Val ch = some g ↔ ch = b32Sym g ∨ (0x61 ≤ ch ∧ ch ≤ 0x7A ∧ ch - 0x20 = b32Sym g)) ∧
  (∀ (ch : Byte) (g : BitVec 3), b8Val ch = some g ↔ ch = b8Sym g) ∧
  (∀ g : BitVec 3, weight g = [0, 1, 1, 2, 1, 2, 2, 3].getD g.toNat 0 ∧ weight g = hamming g)

/-! ### The machine over every step -/

/-- Every step keeps the invariant. From the spec's rules: MEM_SIZE between 1 and 2^28 (00_scope.md R8), no byte of
memory outside it (20_memory.md R60), ESTATE and BUSY in step (10_state.md R37), BUSY and DONE never both 1 (R27),
RESULT at most 4 (60_exceptions.md R200). The model's own: memory is a list in canonical form (log 1). The model's
reading: while BUSY the state is the one just after the start, since a command is one engine step (log 3); and while
idle the datapath registers, which R42 calls unspecified after a completion, hold what the command left in them
(41_command_framework.md R140; log 9), so that the bounds of R38, R39 and 40_datapath.md R116, which the spec gives for
a running command, hold between commands too. -/
def Obligations.StepKeepsTheInvariants : Prop :=
  ∀ s t : State, Inv s → step s = .next t → Inv t

/-- The reset state meets the invariant, for every MEM_SIZE of 00_scope.md R8; the MEM_SIZE of State.reset is the model's
choice (log 4). -/
def Obligations.ResetMeetsTheInvariants : Prop :=
  (∀ n : Nat, 1 ≤ n → n ≤ 2 ^ 28 → Inv (State.resetWith n)) ∧ Inv State.reset

/-- 70_reset_and_hazards.md R240: a step stops only for a host access to a byte of buffer memory while BUSY = 1, and no
step is refused. That the stop is confined to addresses below MEM_SIZE is the model's reading (log 8). -/
def Obligations.OnlyBusyPortAccessStops : Prop :=
  ∀ s : State,
    (∀ f, step s = .fault f → f = .hostMemoryWhileBusy ∧ s.busy = true ∧
      ∃ rest a, a < s.memSize ∧ (s.bus = some (.memRead a) :: rest ∨ ∃ v, s.bus = some (.memWrite a v) :: rest)) ∧
    (∀ r, step s ≠ .refused r)

/-- 10_state.md R27, R28, R29: what sets and clears BUSY and DONE, and what changes RESULT. -/
def Obligations.StatusChangesOnlyAtItsEvents : Prop :=
  ∀ s t : State, Inv s → step s = .next t →
    (s.busy = false → t.busy = true → ∃ w rest, s.bus = some (.regWrite .b32 0x00 w) :: rest) ∧
    (s.busy = true → t.busy = false → t.done = true ∨ ∃ rest, s.bus = some .reset :: rest) ∧
    (s.done = false → t.done = true → s.busy = true ∧ t.busy = false ∧ (s.bus = [] ∨ ∃ rest, s.bus = none :: rest)) ∧
    (s.done = true → t.done = false → (∃ rest, s.bus = some .reset :: rest) ∨
      (∃ w rest, s.bus = some (.regWrite .b32 0x00 w) :: rest ∧ t.busy = true) ∨
      ∃ v rest, s.bus = some (.regWrite .b32 0x04 v) :: rest ∧ v.getLsbD 1 = true) ∧
    (s.result ≠ t.result → (∃ rest, s.bus = some .reset :: rest) ∨
      (∃ w rest, s.bus = some (.regWrite .b32 0x00 w) :: rest ∧ t.busy = true ∧ t.result = 0) ∨
      (s.busy = true ∧ t.busy = false ∧ t.done = true))

/-- 20_memory.md R61, R65; 70_reset_and_hazards.md R231: a byte of memory changes only by a host write to it while idle, or,
inside the output window, by the running engine or by a reset that aborts it. MEM_SIZE never changes. The model's choices:
the engine's writes fall in the one step in which BUSY falls (log 3), and an aborting reset spares the input window and
everything outside buffer memory also where the windows overlap or are invalid (log 7). -/
def Obligations.MemoryChangesOnlyByItsAgents : Prop :=
  ∀ (s t : State), Inv s → step s = .next t → t.memSize = s.memSize ∧
    ∀ a, readByte t.mem a ≠ readByte s.mem a → a < s.memSize ∧
      ((s.busy = false ∧ ∃ v rest, s.bus = some (.memWrite a v) :: rest) ∨
       (s.busy = true ∧ t.busy = false ∧ s.outAddr.toNat ≤ a ∧ a < s.outAddr.toNat + s.outCap.toNat ∧
         ¬(s.inAddr.toNat ≤ a ∧ a < s.inAddr.toNat + s.inLen.toNat)))

/-- 70_reset_and_hazards.md R232: a command's outcome does not depend on the datapath values left before it: two idle
states that differ only there are the same state after the start. -/
def Obligations.StartForgetsTheDatapath : Prop :=
  ∀ (s : State) (d : Datapath) rest (w : Word), s.bus = some (.regWrite .b32 0x00 w) :: rest → s.busy = false →
    step { s with dp := d } = step s ∧ ∃ t, step s = .next t ∧ Started t ∧ t.op = w.extractLsb' 0 4

/-- 41_command_framework.md R142; 70_reset_and_hazards.md R250: from a running state, the first step in which the host
leaves the turn to the engine completes the command. That one turn suffices is the model's granularity (log 3). -/
def Obligations.EngineTurnCompletesTheCommand : Prop :=
  ∀ s : State, s.estate = .run → (s.bus = [] ∨ ∃ rest, s.bus = none :: rest) →
    ∃ t, step s = .next t ∧ t.busy = false ∧ t.done = true ∧ t.estate = .idle
end

