-- ==== Sys2Proof/Laws/Memory.lean ====
section
/-! SUPPORT. Buffer memory: read after write, the canonical form and its bounds under every memory operation, and that
canonical memories with the same bytes are the same list. -/

namespace Sys2Proof.Machine

/-! ### Read after write -/

theorem lookup_writeByte (m : Memory) (a x : Nat) (v : Byte) :
    lookup (writeByte m a v) x = if x = a then some v else lookup m x := by
  induction m with
  | nil => simp [writeByte, lookup]
  | cons c m ih =>
    obtain ⟨b, w⟩ := c
    simp only [writeByte]
    split
    · simp [lookup]
    · split
      · next h => subst h; by_cases hx : x = a <;> simp [lookup, hx]
      · next hne =>
        simp only [lookup, ih]
        by_cases hb : x = b
        · have hba : ¬b = a := fun h => hne h.symm
          simp [hb, hba]
        · simp [hb]

theorem readByte_writeByte (m : Memory) (a x : Nat) (v : Byte) :
    readByte (writeByte m a v) x = if x = a then v else readByte m x := by
  unfold readByte
  rw [lookup_writeByte]
  split <;> rfl

@[simp] theorem readByte_writeByte_same (m : Memory) (a : Nat) (v : Byte) : readByte (writeByte m a v) a = v := by
  simp [readByte_writeByte]

theorem readByte_writeByte_other (m : Memory) {a x : Nat} (v : Byte) (h : x ≠ a) :
    readByte (writeByte m a v) x = readByte m x := by
  simp [readByte_writeByte, h]

@[simp] theorem readByte_nil (a : Nat) : readByte [] a = Config.powerOnByte a := rfl

/-! ### The canonical form -/

theorem mem_writeByte {m : Memory} {a : Nat} {v : Byte} {c : Host.Cell} (h : c ∈ writeByte m a v) :
    c = (a, v) ∨ c ∈ m := by
  induction m with
  | nil => simpa [writeByte] using h
  | cons d m ih =>
    obtain ⟨b, w⟩ := d
    simp only [writeByte] at h
    split at h
    · simpa using h
    · split at h
      · simp only [List.mem_cons] at h ⊢; tauto
      · simp only [List.mem_cons] at h ⊢
        rcases h with h | h
        · exact .inr (.inl h)
        · exact (ih h).imp id .inr

/-- A store keeps the canonical form. -/
theorem writeByte_wf {m : Memory} (a : Nat) (v : Byte) (h : Memory.wf m) : Memory.wf (writeByte m a v) := by
  induction m with
  | nil => simp [writeByte]
  | cons d m ih =>
    obtain ⟨b, w⟩ := d
    have hm : ∀ y ∈ m, b < y.1 := (List.pairwise_cons.1 h).1
    have hp : Memory.wf m := (List.pairwise_cons.1 h).2
    simp only [writeByte]
    split
    · next hlt =>
      refine List.pairwise_cons.2 ⟨fun y hy => ?_, h⟩
      rcases List.mem_cons.1 hy with rfl | hy
      · exact hlt
      · exact Nat.lt_trans hlt (hm y hy)
    · split
      · next heq => subst heq; exact List.pairwise_cons.2 ⟨hm, hp⟩
      · next hge hne =>
        refine List.pairwise_cons.2 ⟨fun y hy => ?_, ih hp⟩
        rcases mem_writeByte hy with rfl | hy
        · simp only; omega
        · exact hm y hy

/-- A store below a bound keeps every entry below it. -/
theorem writeByte_inside {m : Memory} {n a : Nat} (v : Byte) (ha : a < n) (h : ∀ c ∈ m, c.1 < n) :
    ∀ c ∈ writeByte m a v, c.1 < n := by
  intro c hc
  rcases mem_writeByte hc with rfl | hc
  · exact ha
  · exact h c hc

/-- Drawing keeps the canonical form. -/
theorem drawBytes_wf (may : Nat → Bool) (n base k : Nat) {m : Memory} (h : Memory.wf m) :
    Memory.wf (drawBytes may n base k m) := by
  induction k with
  | zero => exact h
  | succ k ih =>
    simp only [drawBytes]
    split
    · exact writeByte_wf _ _ ih
    · exact ih

/-- What drawing leaves at an address. -/
theorem readByte_drawBytes (may : Nat → Bool) (n base k : Nat) (m : Memory) (x : Nat) :
    readByte (drawBytes may n base k m) x =
      if base ≤ x ∧ x < base + k ∧ may x = true then Config.freeByte n x else readByte m x := by
  induction k with
  | zero => simp [drawBytes]; omega
  | succ k ih =>
    simp only [drawBytes]
    by_cases hx : x = base + k
    · subst hx
      by_cases hm : may (base + k) = true
      · simp [hm]
      · simp [hm, ih]
    · have key : (base ≤ x ∧ x < base + k ∧ may x = true) ↔ (base ≤ x ∧ x < base + (k + 1) ∧ may x = true) := by
        constructor <;> rintro ⟨h1, h2, h3⟩ <;> exact ⟨h1, by omega, h3⟩
      split
      · rw [readByte_writeByte_other _ _ hx, ih]; simp only [key]
      · rw [ih]; simp only [key]

theorem drawBytes_inside {may : Nat → Bool} {n bound : Nat} (base k : Nat) {m : Memory}
    (hmay : ∀ a, may a = true → a < bound) (h : ∀ c ∈ m, c.1 < bound) :
    ∀ c ∈ drawBytes may n base k m, c.1 < bound := by
  induction k with
  | zero => exact h
  | succ k ih =>
    simp only [drawBytes]
    split
    · next hm => exact writeByte_inside _ (hmay _ hm) ih
    · exact ih

theorem drawable_iff (s : State) (a : Nat) :
    drawable s a = true ↔ a < s.memSize ∧ ¬(s.inAddr.toNat ≤ a ∧ a < s.inAddr.toNat + s.inLen.toNat) := by
  simp only [drawable, Bool.and_eq_true, Bool.not_eq_true', Bool.and_eq_false_iff, decide_eq_true_eq, decide_eq_false_iff_not]
  omega

/-- What an unspecified output window leaves at an address: a free value inside, the old byte outside. -/
theorem readByte_drawOutputWindow (s : State) (x : Nat) :
    readByte (drawOutputWindow s) x =
      if s.outAddr.toNat ≤ x ∧ x < s.outAddr.toNat + s.outCap.toNat ∧ x < s.memSize ∧
        ¬(s.inAddr.toNat ≤ x ∧ x < s.inAddr.toNat + s.inLen.toNat)
      then Config.freeByte s.draws x else readByte s.mem x := by
  simp only [drawOutputWindow, readByte_drawBytes, drawable_iff]

theorem drawOutputWindow_wf {s : State} (h : Memory.wf s.mem) : Memory.wf (drawOutputWindow s) :=
  drawBytes_wf _ _ _ _ h

theorem drawOutputWindow_inside {s : State} (h : ∀ c ∈ s.mem, c.1 < s.memSize) :
    ∀ c ∈ drawOutputWindow s, c.1 < s.memSize :=
  drawBytes_inside _ _ (fun a ha => ((drawable_iff s a).1 ha).1) h

/-- The memory after reset is canonical. -/
theorem resetWith_wf (n : Nat) : Memory.wf (State.resetWith n).mem := List.Pairwise.nil

/-! ### Equal memories are equal lists -/

theorem lookup_below {m : Memory} {a : Nat} (h : ∀ c ∈ m, a < c.1) : lookup m a = none := by
  induction m with
  | nil => rfl
  | cons c m ih =>
    obtain ⟨b, w⟩ := c
    have : a < b := h (b, w) (by simp)
    simp [lookup, Nat.ne_of_lt this, ih fun c hc => h c (by simp [hc])]

/-- Canonical memories in which the same addresses hold the same written bytes are the same list. -/
theorem memory_ext {m m' : Memory} (h : Memory.wf m) (h' : Memory.wf m') (heq : ∀ a, lookup m a = lookup m' a) :
    m = m' := by
  induction m generalizing m' with
  | nil =>
    cases m' with
    | nil => rfl
    | cons c m' => have := heq c.1; simp [lookup] at this
  | cons c m ih =>
    obtain ⟨a, v⟩ := c
    obtain ⟨hc, hm⟩ := List.pairwise_cons.1 h
    cases m' with
    | nil => have := heq a; simp [lookup] at this
    | cons c' m' =>
      obtain ⟨b, w⟩ := c'
      obtain ⟨hc', hm'⟩ := List.pairwise_cons.1 h'
      have hab : a = b := by
        rcases Nat.lt_trichotomy a b with hlt | heq' | hgt
        · have e := heq a
          have hnone : lookup ((b, w) :: m') a = none :=
            lookup_below fun c hcm => by
              rcases List.mem_cons.1 hcm with rfl | hcm
              · exact hlt
              · exact Nat.lt_trans hlt (hc' c hcm)
          rw [hnone] at e
          simp [lookup] at e
        · exact heq'
        · have e := heq b
          have hnone : lookup ((a, v) :: m) b = none :=
            lookup_below fun c hcm => by
              rcases List.mem_cons.1 hcm with rfl | hcm
              · exact hgt
              · exact Nat.lt_trans hgt (hc c hcm)
          rw [hnone] at e
          simp [lookup] at e
      subst hab
      have hvw : v = w := by simpa [lookup] using heq a
      subst hvw
      congr 1
      refine ih hm hm' fun x => ?_
      by_cases hx : x = a
      · subst hx
        rw [lookup_below hc, lookup_below hc']
      · simpa [lookup, hx] using heq x

end Sys2Proof.Machine
end

