-- ==== Sys2Proof/Laws/Flow.lean ====
section
/-! SUPPORT. Sequencing: the equations of `Flow.bind`, what a result tells of its parts, and `Holds`, a postcondition of
a piece of pseudocode, with its rules for sequencing and for the two loops. -/

namespace Sys2Proof.Machine

variable {α β γ : Type}

@[simp] theorem bind_go (a : α) (k : α → Flow β) : (Flow.go a).bind k = k a := rfl

@[simp] theorem bind_stop (code : Code) (s : State) (k : α → Flow β) : (Flow.stop code s).bind k = .stop code s := rfl

@[simp] theorem bind_fault (f : Fault) (k : α → Flow β) : (Flow.fault f : Flow α).bind k = .fault f := rfl

theorem bind_assoc (x : Flow α) (k : α → Flow β) (l : β → Flow γ) :
    (x.bind k).bind l = x.bind fun a => (k a).bind l := by
  cases x <;> rfl

theorem bind_eq_go {x : Flow α} {k : α → Flow β} {b : β} :
    x.bind k = .go b ↔ ∃ a, x = .go a ∧ k a = .go b := by
  cases x <;> simp

theorem bind_eq_stop {x : Flow α} {k : α → Flow β} {code : Code} {s : State} :
    x.bind k = .stop code s ↔ x = .stop code s ∨ ∃ a, x = .go a ∧ k a = .stop code s := by
  cases x <;> simp

/-- A postcondition: `go` of the value it goes on with, `stop` of the outcome and state it ends with; and it does not
fault. -/
def Holds (go : α → Prop) (stop : Code → State → Prop) : Flow α → Prop
  | .go a => go a
  | .stop code s => stop code s
  | .fault _ => False

variable {G : α → Prop} {H : β → Prop} {Q : Code → State → Prop}

@[simp] theorem holds_go (a : α) : Holds G Q (.go a) ↔ G a := Iff.rfl

@[simp] theorem holds_stop (code : Code) (s : State) : Holds G Q (.stop code s : Flow α) ↔ Q code s := Iff.rfl

@[simp] theorem holds_fault (f : Fault) : Holds G Q (.fault f : Flow α) ↔ False := Iff.rfl

/-- Sequencing. -/
theorem Holds.bind {x : Flow α} {k : α → Flow β} (hx : Holds G Q x) (hk : ∀ a, G a → Holds H Q (k a)) :
    Holds H Q (x.bind k) := by
  cases x with
  | go a => exact hk a hx
  | stop code s => exact hx
  | fault f => exact hx

/-- A weaker postcondition. -/
theorem Holds.mono {G' : α → Prop} {Q' : Code → State → Prop} {x : Flow α} (hx : Holds G Q x)
    (hG : ∀ a, G a → G' a) (hQ : ∀ code s, Q code s → Q' code s) : Holds G' Q' x := by
  cases x with
  | go a => exact hG a hx
  | stop code s => exact hQ code s hx
  | fault f => exact hx

/-- Two postconditions together. -/
theorem Holds.and {G' : α → Prop} {Q' : Code → State → Prop} {x : Flow α} (hx : Holds G Q x) (hx' : Holds G' Q' x) :
    Holds (fun a => G a ∧ G' a) (fun code s => Q code s ∧ Q' code s) x := by
  cases x with
  | go a => exact ⟨hx, hx'⟩
  | stop code s => exact ⟨hx, hx'⟩
  | fault f => exact hx

/-- `for x in xs`: an invariant that the body keeps, indexed by the items still to come. -/
theorem holds_forEach {P : List α → State → Prop} {body : α → State → Flow State}
    (hbody : ∀ x xs s, P (x :: xs) s → Holds (P xs) Q (body x s)) :
    ∀ xs s, P xs s → Holds (P []) Q (forEach body xs s)
  | [], _, h => h
  | x :: xs, s, h => (hbody x xs s h).bind fun s' h' => holds_forEach hbody xs s' h'

/-- The input loop: an invariant that one iteration keeps; the bound on the number of iterations is large enough, so the
loop ends with I at S. -/
theorem holds_inputLoop {P : State → Prop} {body : Byte → State → Flow State}
    (hiter : ∀ s, P s → s.dp.i.toNat < s.dp.s.toNat →
      Holds (fun s' => P s' ∧ s'.dp.s.toNat - s'.dp.i.toNat + 1 = s.dp.s.toNat - s.dp.i.toNat) Q
        ((engineRead (s.inAddr.toNat + s.dp.i.toNat) s).bind fun b => (body b s).bind fun s => .go (advanceIn s))) :
    ∀ fuel s, P s → s.dp.s.toNat - s.dp.i.toNat ≤ fuel →
      Holds (fun s' => P s' ∧ s'.dp.s.toNat ≤ s'.dp.i.toNat) Q (inputLoop body fuel s)
  | 0, s, h, hf => by
    simp only [inputLoop, holds_go]
    exact ⟨h, by omega⟩
  | fuel + 1, s, h, hf => by
    simp only [inputLoop]
    split
    · next hlt =>
      have key := hiter s h hlt
      have : (engineRead (s.inAddr.toNat + s.dp.i.toNat) s).bind
          (fun b => (body b s).bind fun s => inputLoop body fuel (advanceIn s)) =
          ((engineRead (s.inAddr.toNat + s.dp.i.toNat) s).bind
            fun b => (body b s).bind fun s => .go (advanceIn s)).bind (inputLoop body fuel) := by
        simp [bind_assoc]
      rw [this]
      refine key.bind fun s' hs' => holds_inputLoop hiter fuel s' hs'.1 ?_
      omega
    · next hge =>
      simp only [holds_go]
      exact ⟨h, by omega⟩

end Sys2Proof.Machine
end

