-- ==== Sys2Proof/Laws/State.lean ====
section
/-! SUPPORT. One lemma per field of State and named update of it: what the update leaves there. -/

namespace Sys2Proof.Machine

/-! ### storeByte -/

@[simp] theorem storeByte_op (a : Nat) (v : Byte) (s : State) : (storeByte a v s).op = s.op := rfl
@[simp] theorem storeByte_busy (a : Nat) (v : Byte) (s : State) : (storeByte a v s).busy = s.busy := rfl
@[simp] theorem storeByte_done (a : Nat) (v : Byte) (s : State) : (storeByte a v s).done = s.done := rfl
@[simp] theorem storeByte_result (a : Nat) (v : Byte) (s : State) : (storeByte a v s).result = s.result := rfl
@[simp] theorem storeByte_inAddr (a : Nat) (v : Byte) (s : State) : (storeByte a v s).inAddr = s.inAddr := rfl
@[simp] theorem storeByte_inLen (a : Nat) (v : Byte) (s : State) : (storeByte a v s).inLen = s.inLen := rfl
@[simp] theorem storeByte_outAddr (a : Nat) (v : Byte) (s : State) : (storeByte a v s).outAddr = s.outAddr := rfl
@[simp] theorem storeByte_outCap (a : Nat) (v : Byte) (s : State) : (storeByte a v s).outCap = s.outCap := rfl
@[simp] theorem storeByte_outLen (a : Nat) (v : Byte) (s : State) : (storeByte a v s).outLen = s.outLen := rfl
@[simp] theorem storeByte_doneIe (a : Nat) (v : Byte) (s : State) : (storeByte a v s).doneIe = s.doneIe := rfl
@[simp] theorem storeByte_estate (a : Nat) (v : Byte) (s : State) : (storeByte a v s).estate = s.estate := rfl
@[simp] theorem storeByte_dp (a : Nat) (v : Byte) (s : State) : (storeByte a v s).dp = s.dp := rfl
@[simp] theorem storeByte_mem (a : Nat) (v : Byte) (s : State) : (storeByte a v s).mem = writeByte s.mem a v := rfl
@[simp] theorem storeByte_memSize (a : Nat) (v : Byte) (s : State) : (storeByte a v s).memSize = s.memSize := rfl
@[simp] theorem storeByte_bus (a : Nat) (v : Byte) (s : State) : (storeByte a v s).bus = s.bus := rfl
@[simp] theorem storeByte_rdata (a : Nat) (v : Byte) (s : State) : (storeByte a v s).rdata = s.rdata := rfl
@[simp] theorem storeByte_draws (a : Nat) (v : Byte) (s : State) : (storeByte a v s).draws = s.draws := rfl

/-! ### startCommand -/

@[simp] theorem startCommand_op (w : Word) (s : State) : (startCommand w s).op = w.setWidth 4 := rfl
@[simp] theorem startCommand_busy (w : Word) (s : State) : (startCommand w s).busy = true := rfl
@[simp] theorem startCommand_done (w : Word) (s : State) : (startCommand w s).done = false := rfl
@[simp] theorem startCommand_result (w : Word) (s : State) : (startCommand w s).result = 0 := rfl
@[simp] theorem startCommand_inAddr (w : Word) (s : State) : (startCommand w s).inAddr = s.inAddr := rfl
@[simp] theorem startCommand_inLen (w : Word) (s : State) : (startCommand w s).inLen = s.inLen := rfl
@[simp] theorem startCommand_outAddr (w : Word) (s : State) : (startCommand w s).outAddr = s.outAddr := rfl
@[simp] theorem startCommand_outCap (w : Word) (s : State) : (startCommand w s).outCap = s.outCap := rfl
@[simp] theorem startCommand_outLen (w : Word) (s : State) : (startCommand w s).outLen = 0 := rfl
@[simp] theorem startCommand_doneIe (w : Word) (s : State) : (startCommand w s).doneIe = s.doneIe := rfl
@[simp] theorem startCommand_estate (w : Word) (s : State) : (startCommand w s).estate = .run := rfl
@[simp] theorem startCommand_dp (w : Word) (s : State) : (startCommand w s).dp = Datapath.zero := rfl
@[simp] theorem startCommand_mem (w : Word) (s : State) : (startCommand w s).mem = s.mem := rfl
@[simp] theorem startCommand_memSize (w : Word) (s : State) : (startCommand w s).memSize = s.memSize := rfl
@[simp] theorem startCommand_bus (w : Word) (s : State) : (startCommand w s).bus = s.bus := rfl
@[simp] theorem startCommand_rdata (w : Word) (s : State) : (startCommand w s).rdata = s.rdata := rfl
@[simp] theorem startCommand_draws (w : Word) (s : State) : (startCommand w s).draws = s.draws := rfl

/-! ### complete -/

@[simp] theorem complete_op (free : Bool) (code : Code) (s : State) : (complete free code s).op = s.op := rfl
@[simp] theorem complete_busy (free : Bool) (code : Code) (s : State) : (complete free code s).busy = false := rfl
@[simp] theorem complete_done (free : Bool) (code : Code) (s : State) : (complete free code s).done = true := rfl
@[simp] theorem complete_result (free : Bool) (code : Code) (s : State) :
    (complete free code s).result = resultBits code := rfl
@[simp] theorem complete_inAddr (free : Bool) (code : Code) (s : State) :
    (complete free code s).inAddr = s.inAddr := rfl
@[simp] theorem complete_inLen (free : Bool) (code : Code) (s : State) : (complete free code s).inLen = s.inLen := rfl
@[simp] theorem complete_outAddr (free : Bool) (code : Code) (s : State) :
    (complete free code s).outAddr = s.outAddr := rfl
@[simp] theorem complete_outCap (free : Bool) (code : Code) (s : State) :
    (complete free code s).outCap = s.outCap := rfl
@[simp] theorem complete_outLen (free : Bool) (code : Code) (s : State) :
    (complete free code s).outLen = if code = .ok then s.dp.o else Config.freeWord s.draws := rfl
@[simp] theorem complete_doneIe (free : Bool) (code : Code) (s : State) :
    (complete free code s).doneIe = s.doneIe := rfl
@[simp] theorem complete_estate (free : Bool) (code : Code) (s : State) : (complete free code s).estate = .idle := rfl
@[simp] theorem complete_dp (free : Bool) (code : Code) (s : State) : (complete free code s).dp = s.dp := rfl
@[simp] theorem complete_mem (free : Bool) (code : Code) (s : State) :
    (complete free code s).mem = if free then drawOutputWindow s else s.mem := rfl
@[simp] theorem complete_memSize (free : Bool) (code : Code) (s : State) :
    (complete free code s).memSize = s.memSize := rfl
@[simp] theorem complete_bus (free : Bool) (code : Code) (s : State) : (complete free code s).bus = s.bus := rfl
@[simp] theorem complete_rdata (free : Bool) (code : Code) (s : State) : (complete free code s).rdata = s.rdata := rfl
@[simp] theorem complete_draws (free : Bool) (code : Code) (s : State) :
    (complete free code s).draws = if code = .ok then s.draws else s.draws + 1 := rfl

/-! ### acknowledge -/

@[simp] theorem acknowledge_op (s : State) : (acknowledge s).op = s.op := rfl
@[simp] theorem acknowledge_busy (s : State) : (acknowledge s).busy = s.busy := rfl
@[simp] theorem acknowledge_done (s : State) : (acknowledge s).done = false := rfl
@[simp] theorem acknowledge_result (s : State) : (acknowledge s).result = s.result := rfl
@[simp] theorem acknowledge_inAddr (s : State) : (acknowledge s).inAddr = s.inAddr := rfl
@[simp] theorem acknowledge_inLen (s : State) : (acknowledge s).inLen = s.inLen := rfl
@[simp] theorem acknowledge_outAddr (s : State) : (acknowledge s).outAddr = s.outAddr := rfl
@[simp] theorem acknowledge_outCap (s : State) : (acknowledge s).outCap = s.outCap := rfl
@[simp] theorem acknowledge_outLen (s : State) : (acknowledge s).outLen = s.outLen := rfl
@[simp] theorem acknowledge_doneIe (s : State) : (acknowledge s).doneIe = s.doneIe := rfl
@[simp] theorem acknowledge_estate (s : State) : (acknowledge s).estate = s.estate := rfl
@[simp] theorem acknowledge_dp (s : State) : (acknowledge s).dp = s.dp := rfl
@[simp] theorem acknowledge_mem (s : State) : (acknowledge s).mem = s.mem := rfl
@[simp] theorem acknowledge_memSize (s : State) : (acknowledge s).memSize = s.memSize := rfl
@[simp] theorem acknowledge_bus (s : State) : (acknowledge s).bus = s.bus := rfl
@[simp] theorem acknowledge_rdata (s : State) : (acknowledge s).rdata = s.rdata := rfl
@[simp] theorem acknowledge_draws (s : State) : (acknowledge s).draws = s.draws := rfl

/-! ### assertReset -/

@[simp] theorem assertReset_op (s : State) : (assertReset s).op = 0 := rfl
@[simp] theorem assertReset_busy (s : State) : (assertReset s).busy = false := rfl
@[simp] theorem assertReset_done (s : State) : (assertReset s).done = false := rfl
@[simp] theorem assertReset_result (s : State) : (assertReset s).result = 0 := rfl
@[simp] theorem assertReset_inAddr (s : State) : (assertReset s).inAddr = 0 := rfl
@[simp] theorem assertReset_inLen (s : State) : (assertReset s).inLen = 0 := rfl
@[simp] theorem assertReset_outAddr (s : State) : (assertReset s).outAddr = 0 := rfl
@[simp] theorem assertReset_outCap (s : State) : (assertReset s).outCap = 0 := rfl
@[simp] theorem assertReset_outLen (s : State) : (assertReset s).outLen = 0 := rfl
@[simp] theorem assertReset_doneIe (s : State) : (assertReset s).doneIe = false := rfl
@[simp] theorem assertReset_estate (s : State) : (assertReset s).estate = .idle := rfl
@[simp] theorem assertReset_dp (s : State) : (assertReset s).dp = Datapath.zero := rfl
@[simp] theorem assertReset_mem (s : State) :
    (assertReset s).mem = if s.busy then drawOutputWindow s else s.mem := rfl
@[simp] theorem assertReset_memSize (s : State) : (assertReset s).memSize = s.memSize := rfl
@[simp] theorem assertReset_bus (s : State) : (assertReset s).bus = s.bus := rfl
@[simp] theorem assertReset_rdata (s : State) : (assertReset s).rdata = s.rdata := rfl
@[simp] theorem assertReset_draws (s : State) : (assertReset s).draws = if s.busy then s.draws + 1 else s.draws := rfl

/-! ### setLength -/

@[simp] theorem setLength_op (n : Nat) (s : State) : (setLength n s).op = s.op := rfl
@[simp] theorem setLength_busy (n : Nat) (s : State) : (setLength n s).busy = s.busy := rfl
@[simp] theorem setLength_done (n : Nat) (s : State) : (setLength n s).done = s.done := rfl
@[simp] theorem setLength_result (n : Nat) (s : State) : (setLength n s).result = s.result := rfl
@[simp] theorem setLength_inAddr (n : Nat) (s : State) : (setLength n s).inAddr = s.inAddr := rfl
@[simp] theorem setLength_inLen (n : Nat) (s : State) : (setLength n s).inLen = s.inLen := rfl
@[simp] theorem setLength_outAddr (n : Nat) (s : State) : (setLength n s).outAddr = s.outAddr := rfl
@[simp] theorem setLength_outCap (n : Nat) (s : State) : (setLength n s).outCap = s.outCap := rfl
@[simp] theorem setLength_outLen (n : Nat) (s : State) : (setLength n s).outLen = s.outLen := rfl
@[simp] theorem setLength_doneIe (n : Nat) (s : State) : (setLength n s).doneIe = s.doneIe := rfl
@[simp] theorem setLength_estate (n : Nat) (s : State) : (setLength n s).estate = s.estate := rfl
@[simp] theorem setLength_dp (n : Nat) (s : State) : (setLength n s).dp = { s.dp with s := BitVec.ofNat 32 n } := rfl
@[simp] theorem setLength_mem (n : Nat) (s : State) : (setLength n s).mem = s.mem := rfl
@[simp] theorem setLength_memSize (n : Nat) (s : State) : (setLength n s).memSize = s.memSize := rfl
@[simp] theorem setLength_bus (n : Nat) (s : State) : (setLength n s).bus = s.bus := rfl
@[simp] theorem setLength_rdata (n : Nat) (s : State) : (setLength n s).rdata = s.rdata := rfl
@[simp] theorem setLength_draws (n : Nat) (s : State) : (setLength n s).draws = s.draws := rfl

/-! ### addWeight -/

@[simp] theorem addWeight_op (g : BitVec 3) (s : State) : (addWeight g s).op = s.op := rfl
@[simp] theorem addWeight_busy (g : BitVec 3) (s : State) : (addWeight g s).busy = s.busy := rfl
@[simp] theorem addWeight_done (g : BitVec 3) (s : State) : (addWeight g s).done = s.done := rfl
@[simp] theorem addWeight_result (g : BitVec 3) (s : State) : (addWeight g s).result = s.result := rfl
@[simp] theorem addWeight_inAddr (g : BitVec 3) (s : State) : (addWeight g s).inAddr = s.inAddr := rfl
@[simp] theorem addWeight_inLen (g : BitVec 3) (s : State) : (addWeight g s).inLen = s.inLen := rfl
@[simp] theorem addWeight_outAddr (g : BitVec 3) (s : State) : (addWeight g s).outAddr = s.outAddr := rfl
@[simp] theorem addWeight_outCap (g : BitVec 3) (s : State) : (addWeight g s).outCap = s.outCap := rfl
@[simp] theorem addWeight_outLen (g : BitVec 3) (s : State) : (addWeight g s).outLen = s.outLen := rfl
@[simp] theorem addWeight_doneIe (g : BitVec 3) (s : State) : (addWeight g s).doneIe = s.doneIe := rfl
@[simp] theorem addWeight_estate (g : BitVec 3) (s : State) : (addWeight g s).estate = s.estate := rfl
@[simp] theorem addWeight_dp (g : BitVec 3) (s : State) :
    (addWeight g s).dp = { s.dp with p := s.dp.p + BitVec.ofNat 32 (weight g) } := rfl
@[simp] theorem addWeight_mem (g : BitVec 3) (s : State) : (addWeight g s).mem = s.mem := rfl
@[simp] theorem addWeight_memSize (g : BitVec 3) (s : State) : (addWeight g s).memSize = s.memSize := rfl
@[simp] theorem addWeight_bus (g : BitVec 3) (s : State) : (addWeight g s).bus = s.bus := rfl
@[simp] theorem addWeight_rdata (g : BitVec 3) (s : State) : (addWeight g s).rdata = s.rdata := rfl
@[simp] theorem addWeight_draws (g : BitVec 3) (s : State) : (addWeight g s).draws = s.draws := rfl

/-! ### advanceOut -/

@[simp] theorem advanceOut_op (s : State) : (advanceOut s).op = s.op := rfl
@[simp] theorem advanceOut_busy (s : State) : (advanceOut s).busy = s.busy := rfl
@[simp] theorem advanceOut_done (s : State) : (advanceOut s).done = s.done := rfl
@[simp] theorem advanceOut_result (s : State) : (advanceOut s).result = s.result := rfl
@[simp] theorem advanceOut_inAddr (s : State) : (advanceOut s).inAddr = s.inAddr := rfl
@[simp] theorem advanceOut_inLen (s : State) : (advanceOut s).inLen = s.inLen := rfl
@[simp] theorem advanceOut_outAddr (s : State) : (advanceOut s).outAddr = s.outAddr := rfl
@[simp] theorem advanceOut_outCap (s : State) : (advanceOut s).outCap = s.outCap := rfl
@[simp] theorem advanceOut_outLen (s : State) : (advanceOut s).outLen = s.outLen := rfl
@[simp] theorem advanceOut_doneIe (s : State) : (advanceOut s).doneIe = s.doneIe := rfl
@[simp] theorem advanceOut_estate (s : State) : (advanceOut s).estate = s.estate := rfl
@[simp] theorem advanceOut_dp (s : State) : (advanceOut s).dp = { s.dp with o := s.dp.o + 1 } := rfl
@[simp] theorem advanceOut_mem (s : State) : (advanceOut s).mem = s.mem := rfl
@[simp] theorem advanceOut_memSize (s : State) : (advanceOut s).memSize = s.memSize := rfl
@[simp] theorem advanceOut_bus (s : State) : (advanceOut s).bus = s.bus := rfl
@[simp] theorem advanceOut_rdata (s : State) : (advanceOut s).rdata = s.rdata := rfl
@[simp] theorem advanceOut_draws (s : State) : (advanceOut s).draws = s.draws := rfl

/-! ### advanceIn -/

@[simp] theorem advanceIn_op (s : State) : (advanceIn s).op = s.op := rfl
@[simp] theorem advanceIn_busy (s : State) : (advanceIn s).busy = s.busy := rfl
@[simp] theorem advanceIn_done (s : State) : (advanceIn s).done = s.done := rfl
@[simp] theorem advanceIn_result (s : State) : (advanceIn s).result = s.result := rfl
@[simp] theorem advanceIn_inAddr (s : State) : (advanceIn s).inAddr = s.inAddr := rfl
@[simp] theorem advanceIn_inLen (s : State) : (advanceIn s).inLen = s.inLen := rfl
@[simp] theorem advanceIn_outAddr (s : State) : (advanceIn s).outAddr = s.outAddr := rfl
@[simp] theorem advanceIn_outCap (s : State) : (advanceIn s).outCap = s.outCap := rfl
@[simp] theorem advanceIn_outLen (s : State) : (advanceIn s).outLen = s.outLen := rfl
@[simp] theorem advanceIn_doneIe (s : State) : (advanceIn s).doneIe = s.doneIe := rfl
@[simp] theorem advanceIn_estate (s : State) : (advanceIn s).estate = s.estate := rfl
@[simp] theorem advanceIn_dp (s : State) : (advanceIn s).dp = { s.dp with i := s.dp.i + 1 } := rfl
@[simp] theorem advanceIn_mem (s : State) : (advanceIn s).mem = s.mem := rfl
@[simp] theorem advanceIn_memSize (s : State) : (advanceIn s).memSize = s.memSize := rfl
@[simp] theorem advanceIn_bus (s : State) : (advanceIn s).bus = s.bus := rfl
@[simp] theorem advanceIn_rdata (s : State) : (advanceIn s).rdata = s.rdata := rfl
@[simp] theorem advanceIn_draws (s : State) : (advanceIn s).draws = s.draws := rfl

/-! ### withDatapath -/

@[simp] theorem withDatapath_op (d : Datapath) (s : State) : (withDatapath d s).op = s.op := rfl
@[simp] theorem withDatapath_busy (d : Datapath) (s : State) : (withDatapath d s).busy = s.busy := rfl
@[simp] theorem withDatapath_done (d : Datapath) (s : State) : (withDatapath d s).done = s.done := rfl
@[simp] theorem withDatapath_result (d : Datapath) (s : State) : (withDatapath d s).result = s.result := rfl
@[simp] theorem withDatapath_inAddr (d : Datapath) (s : State) : (withDatapath d s).inAddr = s.inAddr := rfl
@[simp] theorem withDatapath_inLen (d : Datapath) (s : State) : (withDatapath d s).inLen = s.inLen := rfl
@[simp] theorem withDatapath_outAddr (d : Datapath) (s : State) : (withDatapath d s).outAddr = s.outAddr := rfl
@[simp] theorem withDatapath_outCap (d : Datapath) (s : State) : (withDatapath d s).outCap = s.outCap := rfl
@[simp] theorem withDatapath_outLen (d : Datapath) (s : State) : (withDatapath d s).outLen = s.outLen := rfl
@[simp] theorem withDatapath_doneIe (d : Datapath) (s : State) : (withDatapath d s).doneIe = s.doneIe := rfl
@[simp] theorem withDatapath_estate (d : Datapath) (s : State) : (withDatapath d s).estate = s.estate := rfl
@[simp] theorem withDatapath_dp (d : Datapath) (s : State) : (withDatapath d s).dp = d := rfl
@[simp] theorem withDatapath_mem (d : Datapath) (s : State) : (withDatapath d s).mem = s.mem := rfl
@[simp] theorem withDatapath_memSize (d : Datapath) (s : State) : (withDatapath d s).memSize = s.memSize := rfl
@[simp] theorem withDatapath_bus (d : Datapath) (s : State) : (withDatapath d s).bus = s.bus := rfl
@[simp] theorem withDatapath_rdata (d : Datapath) (s : State) : (withDatapath d s).rdata = s.rdata := rfl
@[simp] theorem withDatapath_draws (d : Datapath) (s : State) : (withDatapath d s).draws = s.draws := rfl

/-! ### advancePhase -/

@[simp] theorem advancePhase_op (s : State) : (advancePhase s).op = s.op := rfl
@[simp] theorem advancePhase_busy (s : State) : (advancePhase s).busy = s.busy := rfl
@[simp] theorem advancePhase_done (s : State) : (advancePhase s).done = s.done := rfl
@[simp] theorem advancePhase_result (s : State) : (advancePhase s).result = s.result := rfl
@[simp] theorem advancePhase_inAddr (s : State) : (advancePhase s).inAddr = s.inAddr := rfl
@[simp] theorem advancePhase_inLen (s : State) : (advancePhase s).inLen = s.inLen := rfl
@[simp] theorem advancePhase_outAddr (s : State) : (advancePhase s).outAddr = s.outAddr := rfl
@[simp] theorem advancePhase_outCap (s : State) : (advancePhase s).outCap = s.outCap := rfl
@[simp] theorem advancePhase_outLen (s : State) : (advancePhase s).outLen = s.outLen := rfl
@[simp] theorem advancePhase_doneIe (s : State) : (advancePhase s).doneIe = s.doneIe := rfl
@[simp] theorem advancePhase_estate (s : State) : (advancePhase s).estate = s.estate := rfl
@[simp] theorem advancePhase_dp (s : State) :
    (advancePhase s).dp = { s.dp with ph := BitVec.ofNat 2 ((s.dp.ph.toNat + 1) % 3) } := rfl
@[simp] theorem advancePhase_mem (s : State) : (advancePhase s).mem = s.mem := rfl
@[simp] theorem advancePhase_memSize (s : State) : (advancePhase s).memSize = s.memSize := rfl
@[simp] theorem advancePhase_bus (s : State) : (advancePhase s).bus = s.bus := rfl
@[simp] theorem advancePhase_rdata (s : State) : (advancePhase s).rdata = s.rdata := rfl
@[simp] theorem advancePhase_draws (s : State) : (advancePhase s).draws = s.draws := rfl

/-! ### answer -/

@[simp] theorem answer_op (v : Word) (s : State) : (answer v s).op = s.op := rfl
@[simp] theorem answer_busy (v : Word) (s : State) : (answer v s).busy = s.busy := rfl
@[simp] theorem answer_done (v : Word) (s : State) : (answer v s).done = s.done := rfl
@[simp] theorem answer_result (v : Word) (s : State) : (answer v s).result = s.result := rfl
@[simp] theorem answer_inAddr (v : Word) (s : State) : (answer v s).inAddr = s.inAddr := rfl
@[simp] theorem answer_inLen (v : Word) (s : State) : (answer v s).inLen = s.inLen := rfl
@[simp] theorem answer_outAddr (v : Word) (s : State) : (answer v s).outAddr = s.outAddr := rfl
@[simp] theorem answer_outCap (v : Word) (s : State) : (answer v s).outCap = s.outCap := rfl
@[simp] theorem answer_outLen (v : Word) (s : State) : (answer v s).outLen = s.outLen := rfl
@[simp] theorem answer_doneIe (v : Word) (s : State) : (answer v s).doneIe = s.doneIe := rfl
@[simp] theorem answer_estate (v : Word) (s : State) : (answer v s).estate = s.estate := rfl
@[simp] theorem answer_dp (v : Word) (s : State) : (answer v s).dp = s.dp := rfl
@[simp] theorem answer_mem (v : Word) (s : State) : (answer v s).mem = s.mem := rfl
@[simp] theorem answer_memSize (v : Word) (s : State) : (answer v s).memSize = s.memSize := rfl
@[simp] theorem answer_bus (v : Word) (s : State) : (answer v s).bus = s.bus := rfl
@[simp] theorem answer_rdata (v : Word) (s : State) : (answer v s).rdata = v := rfl
@[simp] theorem answer_draws (v : Word) (s : State) : (answer v s).draws = s.draws := rfl

/-! ### retry -/

@[simp] theorem retry_op (op : HostOp) (s : State) : (retry op s).op = s.op := rfl
@[simp] theorem retry_busy (op : HostOp) (s : State) : (retry op s).busy = s.busy := rfl
@[simp] theorem retry_done (op : HostOp) (s : State) : (retry op s).done = s.done := rfl
@[simp] theorem retry_result (op : HostOp) (s : State) : (retry op s).result = s.result := rfl
@[simp] theorem retry_inAddr (op : HostOp) (s : State) : (retry op s).inAddr = s.inAddr := rfl
@[simp] theorem retry_inLen (op : HostOp) (s : State) : (retry op s).inLen = s.inLen := rfl
@[simp] theorem retry_outAddr (op : HostOp) (s : State) : (retry op s).outAddr = s.outAddr := rfl
@[simp] theorem retry_outCap (op : HostOp) (s : State) : (retry op s).outCap = s.outCap := rfl
@[simp] theorem retry_outLen (op : HostOp) (s : State) : (retry op s).outLen = s.outLen := rfl
@[simp] theorem retry_doneIe (op : HostOp) (s : State) : (retry op s).doneIe = s.doneIe := rfl
@[simp] theorem retry_estate (op : HostOp) (s : State) : (retry op s).estate = s.estate := rfl
@[simp] theorem retry_dp (op : HostOp) (s : State) : (retry op s).dp = s.dp := rfl
@[simp] theorem retry_mem (op : HostOp) (s : State) : (retry op s).mem = s.mem := rfl
@[simp] theorem retry_memSize (op : HostOp) (s : State) : (retry op s).memSize = s.memSize := rfl
@[simp] theorem retry_bus (op : HostOp) (s : State) : (retry op s).bus = none :: some op :: s.bus := rfl
@[simp] theorem retry_rdata (op : HostOp) (s : State) : (retry op s).rdata = s.rdata := rfl
@[simp] theorem retry_draws (op : HostOp) (s : State) : (retry op s).draws = s.draws := rfl

end Sys2Proof.Machine
end

