-- ==== Sys2Proof/Laws/Operands.lean ====
section
/-! SUPPORT. The prologue: what the window checks, the scan, the length and the capacity check each answer. -/

namespace Sys2Proof.Machine

/-! ### Lists of bytes in memory -/

@[simp] theorem bytesAt_length (m : Memory) (a n : Nat) : (bytesAt m a n).length = n := by simp [bytesAt]

@[simp] theorem bytesAt_zero (m : Memory) (a : Nat) : bytesAt m a 0 = [] := rfl

theorem bytesAt_succ (m : Memory) (a n : Nat) : bytesAt m a (n + 1) = readByte m a :: bytesAt m (a + 1) n := by
  unfold bytesAt
  rw [List.range_succ_eq_map]
  simp [Function.comp_def, Nat.add_assoc, Nat.add_comm 1]

theorem bytesAt_getElem (m : Memory) (a n k : Nat) (h : k < (bytesAt m a n).length) :
    (bytesAt m a n)[k] = readByte m (a + k) := by
  simp [bytesAt]

/-- Two memories hold the same bytes in a range exactly when they read the same at each of its addresses. -/
theorem bytesAt_eq_iff {m m' : Memory} {a a' n : Nat} :
    bytesAt m a n = bytesAt m' a' n ↔ ∀ k < n, readByte m (a + k) = readByte m' (a' + k) := by
  simp [bytesAt]

/-! ### The window checks -/

theorem windowsOverlap_iff (s : State) :
    windowsOverlap s = true ↔ 0 < s.inLen.toNat ∧ 0 < s.outCap.toNat ∧
      s.inAddr.toNat < s.outAddr.toNat + s.outCap.toNat ∧ s.outAddr.toNat < s.inAddr.toNat + s.inLen.toNat := by
  simp only [windowsOverlap, Bool.and_eq_true, decide_eq_true_eq, and_assoc]

theorem inEnd_eq (s : State) : inEnd s = s.inAddr.toNat + s.inLen.toNat := rfl

theorem outEnd_eq (s : State) : outEnd s = s.outAddr.toNat + s.outCap.toNat := rfl

theorem checkWindows_usable {s : State} (h : Usable s) : checkWindows s = .go s := by
  obtain ⟨h1, h2, h3⟩ := h
  have h3' : ¬windowsOverlap s = true := fun hc => h3 ((windowsOverlap_iff s).1 hc)
  have e1 := inEnd_eq s
  have e2 := outEnd_eq s
  rw [checkWindows, if_neg (by omega), if_neg (by omega), if_neg h3']

theorem checkWindows_unusable {s : State} (h : ¬Usable s) : checkWindows s = .stop .arguments s := by
  have e1 := inEnd_eq s
  have e2 := outEnd_eq s
  rw [checkWindows]
  split
  · rfl
  · split
    · rfl
    · split
      · rfl
      · next h1 h2 h3 => exact absurd ⟨by omega, by omega, fun hc => h3 ((windowsOverlap_iff s).2 hc)⟩ h

/-! ### The scan and the length -/

/-- Inside buffer memory, the scan finds the length of the string before the first 0x00. -/
theorem scanFrom_eq (base : Nat) (s : State) (n k : Nat) (h : base + k + n ≤ s.memSize) :
    scanFrom base s n k = .go (k + ((bytesAt s.mem (base + k) n).takeWhile fun b => b != 0).length) := by
  induction n generalizing k with
  | zero => simp [scanFrom]
  | succ n ih =>
    have hlt : base + k < s.memSize := by omega
    simp only [scanFrom, engineRead, hlt, if_true, bind_go, bytesAt_succ]
    split
    · next hz => simp [hz]
    · next hz =>
      have hb : (readByte s.mem (base + k) != 0) = true := by simpa using hz
      rw [ih (k + 1) (by omega), List.takeWhile_cons, if_pos hb]
      simp [Nat.add_assoc, Nat.add_comm 1]

theorem scan_input {s : State} (h : Usable s) :
    scanFrom s.inAddr.toNat s s.inLen.toNat 0 = .go (inputString s).length := by
  rw [scanFrom_eq _ _ _ _ (by simpa using h.1)]
  simp [inputString, inputBytes]

theorem inputString_length_le (s : State) : (inputString s).length ≤ s.inLen.toNat := by
  have := (List.takeWhile_sublist (l := inputBytes s) (fun b : Byte => b != 0)).length_le
  simpa [inputString, inputBytes] using this

@[simp] theorem setLength_toNat {n : Nat} (s : State) (h : n < 2 ^ 32) : (setLength n s).dp.s.toNat = n := by
  simpa using h

theorem inputString_length_lt (s : State) : (inputString s).length < 2 ^ 32 :=
  Nat.lt_of_le_of_lt (inputString_length_le s) s.inLen.isLt

/-- With usable windows, the length of a string command is that of its string; 0 is ARGUMENTS. -/
theorem inputLength_string {s : State} (h : Usable s) :
    inputLength .string s =
      if (inputString s).length = 0 then .stop .arguments (setLength 0 s)
      else .go (setLength (inputString s).length s) := by
  simp only [inputLength, scan_input h, bind_go, rejectEmpty]
  have hl := inputString_length_lt s
  by_cases hz : (inputString s).length = 0
  · rw [if_pos hz, hz, if_pos]; rfl
  · rw [if_neg hz, if_neg]
    intro hc
    apply hz
    have := congrArg BitVec.toNat hc
    rw [setLength_toNat s hl] at this
    exact this

/-- The length of a command on bytes is IN_LEN; 0 is ARGUMENTS. -/
theorem inputLength_bytes (s : State) :
    inputLength .bytes s =
      if s.inLen.toNat = 0 then .stop .arguments (setLength 0 s) else .go (setLength s.inLen.toNat s) := by
  simp only [inputLength, rejectEmpty]
  by_cases hz : s.inLen.toNat = 0
  · rw [if_pos hz, hz, if_pos]; rfl
  · rw [if_neg hz, if_neg]
    intro hc
    apply hz
    have := congrArg BitVec.toNat hc
    simpa using this

/-- The input of a command by its kind. -/
def kindSize (kind : InputKind) (s : State) : Nat :=
  match kind with
  | .string => (inputString s).length
  | .bytes => s.inLen.toNat

theorem kindSize_le (kind : InputKind) (s : State) : kindSize kind s ≤ s.inLen.toNat := by
  cases kind
  · exact inputString_length_le s
  · exact Nat.le_refl _

theorem inputLength_eq {s : State} (kind : InputKind) (h : Usable s) :
    inputLength kind s =
      if kindSize kind s = 0 then .stop .arguments (setLength 0 s) else .go (setLength (kindSize kind s) s) := by
  cases kind
  · exact inputLength_string h
  · exact inputLength_bytes s

/-- The whole prologue: unusable windows, an empty input and a short capacity end the command in that order; otherwise S
is set and nothing else changes. -/
theorem prologue_eq (kind : InputKind) (req : Nat → Nat) (s : State) :
    prologue kind req s =
      if ¬Usable s then .stop .arguments s
      else if kindSize kind s = 0 then .stop .arguments (setLength 0 s)
      else if s.outCap.toNat < req (kindSize kind s) then .stop .overflow (setLength (kindSize kind s) s)
      else .go (setLength (kindSize kind s) s) := by
  by_cases hu : Usable s
  · have hlt : kindSize kind s < 2 ^ 32 := Nat.lt_of_le_of_lt (kindSize_le kind s) s.inLen.isLt
    rw [prologue, checkWindows_usable hu, bind_go, inputLength_eq kind hu, if_neg (not_not.2 hu)]
    split
    · rfl
    · simp only [bind_go, require, setLength_toNat s hlt, setLength_outCap]
  · rw [prologue, checkWindows_unusable hu, bind_stop, if_pos hu]

/-- The prologue of DEC32: the same without the capacity check. -/
theorem prologueUnbounded_eq (kind : InputKind) (s : State) :
    prologueUnbounded kind s =
      if ¬Usable s then .stop .arguments s
      else if kindSize kind s = 0 then .stop .arguments (setLength 0 s)
      else .go (setLength (kindSize kind s) s) := by
  by_cases hu : Usable s
  · rw [prologueUnbounded, checkWindows_usable hu, bind_go, inputLength_eq kind hu, if_neg (not_not.2 hu)]
  · rw [prologueUnbounded, checkWindows_unusable hu, bind_stop, if_pos hu]

end Sys2Proof.Machine
end

