-- ==== Sys2Proof/Laws/Writer.lean ====
section
/-! SUPPORT. The engine's accesses and the output buffer writer: what one access does, and what emitting a list of bytes
leaves. -/

namespace Sys2Proof.Machine

/-! ### One access -/

theorem engineRead_inside {a : Nat} {s : State} (h : a < s.memSize) : engineRead a s = .go (readByte s.mem a) := by
  simp [engineRead, h]

theorem engineWrite_inside {a : Nat} {s : State} (v : Byte) (h : a < s.memSize) :
    engineWrite a v s = .go (storeByte a v s) := by
  simp [engineWrite, h]

theorem writeOut_full {v : Byte} {s : State} (h : s.outCap.toNat ≤ s.dp.o.toNat) : writeOut v s = .stop .overflow s := by
  simp [writeOut, h]

theorem writeOut_room {v : Byte} {s : State} (h : s.dp.o.toNat < s.outCap.toNat)
    (hm : s.outAddr.toNat + s.outCap.toNat ≤ s.memSize) :
    writeOut v s = .go (storeByte (s.outAddr.toNat + s.dp.o.toNat) v s) := by
  rw [writeOut, if_neg (by omega), engineWrite_inside _ (by omega)]

/-! ### A list of bytes -/

/-- The memory after storing a list of bytes at consecutive addresses. -/
def storeList : Memory → Nat → List Byte → Memory
  | m, _, [] => m
  | m, a, b :: bs => storeList (writeByte m a b) (a + 1) bs

theorem readByte_storeList (bs : List Byte) (m : Memory) (a x : Nat) :
    readByte (storeList m a bs) x = if a ≤ x ∧ x < a + bs.length then bs.getD (x - a) 0 else readByte m x := by
  induction bs generalizing m a with
  | nil => simp [storeList]
  | cons b bs ih =>
    rw [storeList, ih]
    simp only [List.length_cons]
    by_cases hx : x = a
    · subst hx
      rw [if_neg (by omega), if_pos (by omega)]
      simp
    · rw [readByte_writeByte_other _ _ hx]
      by_cases hin : a + 1 ≤ x ∧ x < a + 1 + bs.length
      · rw [if_pos hin, if_pos (by omega), show x - a = (x - (a + 1)) + 1 by omega]
        simp
      · rw [if_neg hin, if_neg (by omega)]

/-- The list is what is read back. -/
theorem bytesAt_storeList (bs : List Byte) (m : Memory) (a : Nat) : bytesAt (storeList m a bs) a bs.length = bs := by
  apply List.ext_getElem
  · simp
  · intro k h1 h2
    rw [bytesAt_getElem, readByte_storeList, if_pos (by omega)]
    simp [h2]

/-- No other byte changes. -/
theorem readByte_storeList_outside {bs : List Byte} {m : Memory} {a x : Nat} (h : x < a ∨ a + bs.length ≤ x) :
    readByte (storeList m a bs) x = readByte m x := by
  rw [readByte_storeList, if_neg (by omega)]

theorem storeList_append (bs cs : List Byte) (m : Memory) (a : Nat) :
    storeList m a (bs ++ cs) = storeList (storeList m a bs) (a + bs.length) cs := by
  induction bs generalizing m a with
  | nil => simp [storeList]
  | cons b bs ih => simp [storeList, ih, Nat.add_assoc, Nat.add_comm 1]

theorem storeList_wf (bs : List Byte) {m : Memory} (a : Nat) (h : Memory.wf m) : Memory.wf (storeList m a bs) := by
  induction bs generalizing m a with
  | nil => exact h
  | cons b bs ih => exact ih (a + 1) (writeByte_wf a b h)

/-- The state after a list of bytes has been emitted. -/
def emitted (out : List Byte) (s : State) : State :=
  { s with
    mem := storeList s.mem (s.outAddr.toNat + s.dp.o.toNat) out
    dp := { s.dp with o := s.dp.o + BitVec.ofNat 32 out.length } }

@[simp] theorem emitted_nil (s : State) : emitted [] s = s := by simp [emitted, storeList]

theorem emitted_o {out : List Byte} {s : State} (h : s.dp.o.toNat + out.length ≤ s.outCap.toNat) :
    (emitted out s).dp.o.toNat = s.dp.o.toNat + out.length := by
  have := s.outCap.isLt
  simp [emitted]
  omega

theorem emitted_append (out out' : List Byte) (s : State) (h : s.dp.o.toNat + out.length ≤ s.outCap.toNat) :
    emitted out' (emitted out s) = emitted (out ++ out') s := by
  have ho := emitted_o h
  unfold emitted at ho ⊢
  simp only at ho
  simp only [ho, List.length_append, BitVec.ofNat_add, storeList_append, Nat.add_assoc, BitVec.add_assoc]

/-- Emitting one byte while there is room. -/
theorem emitSymbol_room {ch : Byte} {s : State} (h : s.dp.o.toNat < s.outCap.toNat)
    (hm : s.outAddr.toNat + s.outCap.toNat ≤ s.memSize) : emitSymbol ch s = .go (emitted [ch] s) := by
  rw [emitSymbol, writeOut_room h hm, bind_go]
  rfl

theorem emitSymbol_full {ch : Byte} {s : State} (h : s.outCap.toNat ≤ s.dp.o.toNat) :
    emitSymbol ch s = .stop .overflow s := by
  rw [emitSymbol, writeOut_full h, bind_stop]

theorem emitByte_eq (b : Byte) (s : State) : emitByte b s = emitSymbol b s := rfl

/-- The terminator while there is room. -/
theorem emitTerminator_room {s : State} (h : s.dp.o.toNat < s.outCap.toNat)
    (hm : s.outAddr.toNat + s.outCap.toNat ≤ s.memSize) :
    emitTerminator s = .go (storeByte (s.outAddr.toNat + s.dp.o.toNat) 0x00 s) :=
  writeOut_room h hm

/-- Emitting a list of bytes while there is room for all of them. -/
theorem forEach_emitByte {bs : List Byte} {s : State} (h : s.dp.o.toNat + bs.length ≤ s.outCap.toNat)
    (hm : s.outAddr.toNat + s.outCap.toNat ≤ s.memSize) : forEach emitByte bs s = .go (emitted bs s) := by
  induction bs generalizing s with
  | nil => simp [forEach]
  | cons b bs ih =>
    simp only [List.length_cons] at h
    have h1 : s.dp.o.toNat + [b].length ≤ s.outCap.toNat := by simp; omega
    have h2 : (emitted [b] s).dp.o.toNat + bs.length ≤ (emitted [b] s).outCap.toNat := by
      rw [emitted_o h1]
      simp only [emitted, List.length_singleton]
      omega
    rw [forEach, emitByte_eq, emitSymbol_room (by omega) hm, bind_go, ih h2 hm, emitted_append _ _ _ h1]
    rfl

end Sys2Proof.Machine
end

