-- ==== Sys2Proof/Laws/Commands.lean ====
section
/-! SUPPORT. What a body may do from any state, command by command: it touches nothing but the datapath and the output
window, it does not fault, and it ends only with the outcomes its rule lists. -/

namespace Sys2Proof.Machine

/-- From `s` to `t` an engine has touched nothing but its datapath and bytes of the output window, and has kept the form
and the bounds of the memory. -/
structure Ran (s t : State) : Prop where
  /-- All other fields are as before. -/
  only : t = { s with dp := t.dp, mem := t.mem }
  /-- 20_memory.md R65. -/
  kept : KeptOutside s t s.outAddr.toNat s.outCap.toNat
  /-- The canonical form of memory. -/
  wf : Memory.wf s.mem → Memory.wf t.mem
  /-- No entry outside buffer memory. -/
  inside : (∀ c ∈ s.mem, c.1 < s.memSize) → ∀ c ∈ t.mem, c.1 < s.memSize

theorem Ran.refl (s : State) : Ran s s := ⟨rfl, fun _ _ => rfl, id, id⟩

theorem Ran.inAddr {s t : State} (h : Ran s t) : t.inAddr = s.inAddr := by rw [h.only]

theorem Ran.inLen {s t : State} (h : Ran s t) : t.inLen = s.inLen := by rw [h.only]

theorem Ran.outAddr {s t : State} (h : Ran s t) : t.outAddr = s.outAddr := by rw [h.only]

theorem Ran.outCap {s t : State} (h : Ran s t) : t.outCap = s.outCap := by rw [h.only]

theorem Ran.memSize {s t : State} (h : Ran s t) : t.memSize = s.memSize := by rw [h.only]

theorem Ran.draws {s t : State} (h : Ran s t) : t.draws = s.draws := by rw [h.only]

theorem Ran.trans {s t u : State} (h : Ran s t) (h' : Ran t u) : Ran s u where
  only := by rw [h'.only]; conv_lhs => rw [h.only]
  kept x hx := (h'.kept x (by rw [h.outAddr, h.outCap]; exact hx)).trans (h.kept x hx)
  wf hw := h'.wf (h.wf hw)
  inside hi := by
    have := h'.inside (by rw [h.memSize]; exact h.inside hi)
    rwa [h.memSize] at this

/-- A change of the datapath alone. -/
theorem ran_datapath {s t : State} (h : t = { s with dp := t.dp }) : Ran s t where
  only := by rw [h]
  kept x _ := by rw [h]
  wf hw := by rw [h]; exact hw
  inside hi := by rw [h]; exact hi

/-- I and S are as before. -/
def SameInput (s t : State) : Prop := t.dp.i = s.dp.i ∧ t.dp.s = s.dp.s

/-- The postcondition of every piece of a body that does not move I and S: it ran, and it can only end with an outcome
that `allowed` admits. -/
abbrev Runs (allowed : Code → Prop) (s : State) (x : Flow State) : Prop :=
  Holds (fun t => Ran s t ∧ SameInput s t) (fun code t => Ran s t ∧ allowed code) x

theorem Runs.bind {allowed : Code → Prop} {s : State} {x : Flow State} {k : State → Flow State}
    (hx : Runs allowed s x) (hk : ∀ t, Ran s t → SameInput s t → Runs allowed t (k t)) : Runs allowed s (x.bind k) := by
  refine Holds.bind hx fun t ht => ?_
  refine Holds.mono (hk t ht.1 ht.2) ?_ ?_
  · exact fun u hu => ⟨ht.1.trans hu.1, hu.2.1.trans ht.2.1, hu.2.2.trans ht.2.2⟩
  · exact fun code u hu => ⟨ht.1.trans hu.1, hu.2⟩

theorem runs_go {allowed : Code → Prop} {s t : State} (h : t = { s with dp := t.dp }) (hi : SameInput s t) :
    Runs allowed s (.go t) := ⟨ran_datapath h, hi⟩

/-! ### The writer -/

theorem ran_storeOut {s : State} (v : Byte) (h : s.dp.o.toNat < s.outCap.toNat)
    (hm : s.outAddr.toNat + s.outCap.toNat ≤ s.memSize) :
    Ran s (storeByte (s.outAddr.toNat + s.dp.o.toNat) v s) where
  only := rfl
  kept x hx := readByte_writeByte_other _ _ (by omega)
  wf hw := writeByte_wf _ _ hw
  inside hi := writeByte_inside _ (by omega) hi

theorem writeOut_runs (v : Byte) {s : State} (hm : s.outAddr.toNat + s.outCap.toNat ≤ s.memSize) :
    Runs (· = .overflow) s (writeOut v s) := by
  by_cases h : s.dp.o.toNat < s.outCap.toNat
  · rw [writeOut_room h hm]
    exact ⟨ran_storeOut v h hm, rfl, rfl⟩
  · rw [writeOut_full (by omega)]
    exact ⟨Ran.refl s, rfl⟩

theorem emitSymbol_runs (v : Byte) {s : State} (hm : s.outAddr.toNat + s.outCap.toNat ≤ s.memSize) :
    Runs (· = .overflow) s (emitSymbol v s) :=
  (writeOut_runs v hm).bind fun _ _ _ => runs_go rfl ⟨rfl, rfl⟩

theorem outWindow_of_ran {s t : State} (h : Ran s t) (hm : s.outAddr.toNat + s.outCap.toNat ≤ s.memSize) :
    t.outAddr.toNat + t.outCap.toNat ≤ t.memSize := by
  rw [h.outAddr, h.outCap, h.memSize]; exact hm

/-- A loop over a list, each of whose steps runs. -/
theorem forEach_runs {α : Type} {allowed : Code → Prop} {body : α → State → Flow State}
    (hbody : ∀ x s, s.outAddr.toNat + s.outCap.toNat ≤ s.memSize → Runs allowed s (body x s)) (xs : List α) {s : State}
    (hm : s.outAddr.toNat + s.outCap.toNat ≤ s.memSize) : Runs allowed s (forEach body xs s) := by
  induction xs generalizing s with
  | nil => exact ⟨Ran.refl s, rfl, rfl⟩
  | cons x xs ih => exact (hbody x s hm).bind fun t ht _ => ih (outWindow_of_ran ht hm)

/-- Packing and unpacking leave I, S and the other indices alone. -/
theorem cutGroups_input (n : Nat) : ∀ (fuel : Nat) (d : Datapath),
    (cutGroups n fuel d).2 = { d with c := (cutGroups n fuel d).2.c, cn := (cutGroups n fuel d).2.cn }
  | 0, _ => rfl
  | fuel + 1, d => by
    simp only [cutGroups]
    split
    · have := cutGroups_input n fuel
        { d with cn := BitVec.ofNat 5 (d.cn.toNat - n), c := d.c &&& carryMask (d.cn.toNat - n) }
      exact this
    · rfl

theorem packByte_input (n : Nat) (b : Byte) (d : Datapath) :
    (packByte n b d).2 = { d with c := (packByte n b d).2.c, cn := (packByte n b d).2.cn } :=
  cutGroups_input n _ (shiftIn b d)

theorem unpackSymbol_input {n : Nat} (v : BitVec n) (d : Datapath) :
    (unpackSymbol v d).2 = { d with c := (unpackSymbol v d).2.c, cn := (unpackSymbol v d).2.cn } := by
  simp only [unpackSymbol]
  split <;> rfl

theorem emitGroups_runs {n : Nat} (rom : BitVec n → Byte) {note : BitVec n → State → State}
    (hnote : ∀ g s, Ran s (note g s) ∧ SameInput s (note g s)) (b : Byte) {s : State}
    (hm : s.outAddr.toNat + s.outCap.toNat ≤ s.memSize) : Runs (· = .overflow) s (emitGroups n rom note b s) := by
  have hs : SameInput s (withDatapath (packByte n b s.dp).2 s) := by
    constructor <;> rw [withDatapath_dp, packByte_input]
  refine Runs.bind (x := .go (withDatapath (packByte n b s.dp).2 s)) (runs_go rfl hs) fun t ht _ =>
    forEach_runs (fun g u hu => ?_) _ (outWindow_of_ran ht hm)
  exact Runs.bind (x := .go (note g u)) (k := emitSymbol (rom g)) (hnote g u) fun v hv _ =>
    emitSymbol_runs _ (outWindow_of_ran hv hu)

theorem emitUnpacked_runs {n : Nat} (v : BitVec n) {s : State} (hm : s.outAddr.toNat + s.outCap.toNat ≤ s.memSize) :
    Runs (· = .overflow) s (emitUnpacked v s) := by
  have hs : SameInput s (withDatapath (unpackSymbol v s.dp).2 s) := by
    constructor <;> rw [withDatapath_dp, unpackSymbol_input]
  exact Runs.bind (x := .go (withDatapath (unpackSymbol v s.dp).2 s)) (runs_go rfl hs) fun t ht _ =>
    forEach_runs (fun b u hu => emitSymbol_runs b hu) _ (outWindow_of_ran ht hm)

/-! ### The input loop -/

/-- The postcondition of a whole loop or body: it ran, and ends only with outcomes that `allowed` admits. -/
abbrev BodyRuns (allowed : Code → Prop) (s : State) (x : Flow State) : Prop :=
  Holds (Ran s) (fun code t => Ran s t ∧ allowed code) x

theorem BodyRuns.bind {allowed : Code → Prop} {s : State} {x : Flow State} {k : State → Flow State}
    (hx : BodyRuns allowed s x) (hk : ∀ t, Ran s t → BodyRuns allowed t (k t)) : BodyRuns allowed s (x.bind k) := by
  refine Holds.bind hx fun t ht => ?_
  exact Holds.mono (hk t ht) (fun u hu => ht.trans hu) (fun code u hu => ⟨ht.trans hu.1, hu.2⟩)

theorem Runs.toBody {allowed allowed' : Code → Prop} {s : State} {x : Flow State} (h : Runs allowed s x)
    (hsub : ∀ code, allowed code → allowed' code) : BodyRuns allowed' s x :=
  Holds.mono h (fun _ ht => ht.1) (fun _ _ ht => ⟨ht.1, hsub _ ht.2⟩)

theorem BodyRuns.weaken {allowed allowed' : Code → Prop} {s : State} {x : Flow State} (h : BodyRuns allowed s x)
    (hsub : ∀ code, allowed code → allowed' code) : BodyRuns allowed' s x :=
  Holds.mono h (fun _ ht => ht) (fun _ _ ht => ⟨ht.1, hsub _ ht.2⟩)

/-- I does not wrap while it is below S. -/
theorem advanceIn_i {s : State} (h : s.dp.i.toNat < s.dp.s.toNat) : (advanceIn s).dp.i.toNat = s.dp.i.toNat + 1 := by
  have := s.dp.s.isLt
  simp
  omega

/-- An input loop whose body runs, on an input that lies in buffer memory. -/
theorem inputLoop_runs {allowed : Code → Prop} {body : Byte → State → Flow State}
    (hbody : ∀ b s, s.outAddr.toNat + s.outCap.toNat ≤ s.memSize → s.inAddr.toNat + s.dp.s.toNat ≤ s.memSize →
      s.dp.i.toNat < s.dp.s.toNat → Runs allowed s (body b s)) (fuel : Nat) {s : State}
    (hf : s.dp.s.toNat - s.dp.i.toNat ≤ fuel) (hm : s.outAddr.toNat + s.outCap.toNat ≤ s.memSize)
    (hin : s.inAddr.toNat + s.dp.s.toNat ≤ s.memSize) : BodyRuns allowed s (inputLoop body fuel s) := by
  refine Holds.mono (holds_inputLoop (P := fun t => Ran s t ∧ t.dp.s = s.dp.s)
    (Q := fun code t => Ran s t ∧ allowed code) ?_ fuel s ⟨Ran.refl s, rfl⟩ hf) (fun t ht => ht.1.1) (fun _ _ h => h)
  intro t ht hlt
  have hin' : t.inAddr.toNat + t.dp.s.toNat ≤ t.memSize := by rw [ht.1.inAddr, ht.2, ht.1.memSize]; exact hin
  rw [engineRead_inside (by omega), bind_go]
  refine Holds.bind (Holds.mono (hbody _ t (outWindow_of_ran ht.1 hm) hin' hlt) (fun u hu => hu)
    (fun code u hu => ⟨ht.1.trans hu.1, hu.2⟩)) fun u hu => ?_
  have hlt' : u.dp.i.toNat < u.dp.s.toNat := by rw [hu.2.1, hu.2.2]; exact hlt
  refine ⟨⟨ht.1.trans (hu.1.trans (ran_datapath rfl)), ?_⟩, ?_⟩
  · simp [hu.2.2, ht.2]
  · rw [advanceIn_i hlt', advanceIn_dp]
    simp only [hu.2.1, hu.2.2]
    omega

/-! ### The prologue -/

/-- After a prologue that goes on, the windows are usable, S is the input's length and nothing else has changed. -/
theorem prologue_go {kind : InputKind} {req : Nat → Nat} {s t : State} (h : prologue kind req s = .go t) :
    Usable s ∧ kindSize kind s ≠ 0 ∧ req (kindSize kind s) ≤ s.outCap.toNat ∧ t = setLength (kindSize kind s) s := by
  rw [prologue_eq] at h
  split at h
  · exact absurd h (by simp)
  · next hu =>
    split at h
    · exact absurd h (by simp)
    · next hz =>
      split at h
      · exact absurd h (by simp)
      · next hc => exact ⟨not_not.1 hu, hz, by omega, (Flow.go.inj h).symm⟩

/-- The outcomes of the prologue. -/
def PrologueCode (code : Code) : Prop := code = .arguments ∨ code = .overflow

theorem setLength_kind {kind : InputKind} (s : State) :
    (setLength (kindSize kind s) s).dp.s.toNat = kindSize kind s :=
  setLength_toNat s (Nat.lt_of_le_of_lt (kindSize_le kind s) s.inLen.isLt)

/-- What a body may rely on after its prologue. -/
structure Ready (s : State) : Prop where
  /-- The output window is in memory. -/
  out : s.outAddr.toNat + s.outCap.toNat ≤ s.memSize
  /-- The input is in memory. -/
  inp : s.inAddr.toNat + s.dp.s.toNat ≤ s.memSize

theorem ready_setLength {kind : InputKind} {s : State} (h : Usable s) : Ready (setLength (kindSize kind s) s) where
  out := h.2.1
  inp := by
    rw [setLength_kind]
    have := kindSize_le kind s
    have := h.1
    simp only [setLength_inAddr, setLength_memSize]
    omega

theorem prologue_then {allowed : Code → Prop} (hp : ∀ code, PrologueCode code → allowed code) (kind : InputKind)
    (req : Nat → Nat) {k : State → Flow State} (s : State) (hk : ∀ t, Ready t → BodyRuns allowed t (k t)) :
    BodyRuns allowed s ((prologue kind req s).bind k) := by
  have hlen : ∀ n, Ran s (setLength n s) := fun n => ran_datapath rfl
  rw [prologue_eq]
  split
  · exact ⟨Ran.refl s, hp _ (.inl rfl)⟩
  · next hu =>
    split
    · exact ⟨hlen _, hp _ (.inl rfl)⟩
    · split
      · exact ⟨hlen _, hp _ (.inr rfl)⟩
      · rw [bind_go]
        exact Holds.mono (hk _ (ready_setLength (not_not.1 hu))) (fun u hu => (hlen _).trans hu)
          (fun code u hu => ⟨(hlen _).trans hu.1, hu.2⟩)

theorem prologueUnbounded_then {allowed : Code → Prop} (hp : ∀ code, PrologueCode code → allowed code)
    (kind : InputKind) {k : State → Flow State} (s : State) (hk : ∀ t, Ready t → BodyRuns allowed t (k t)) :
    BodyRuns allowed s ((prologueUnbounded kind s).bind k) := by
  have hlen : ∀ n, Ran s (setLength n s) := fun n => ran_datapath rfl
  rw [prologueUnbounded_eq]
  split
  · exact ⟨Ran.refl s, hp _ (.inl rfl)⟩
  · next hu =>
    split
    · exact ⟨hlen _, hp _ (.inl rfl)⟩
    · rw [bind_go]
      exact Holds.mono (hk _ (ready_setLength (not_not.1 hu))) (fun u hu => (hlen _).trans hu)
        (fun code u hu => ⟨(hlen _).trans hu.1, hu.2⟩)

theorem Ready.ran {s t : State} (h : Ready s) (hr : Ran s t) (hs : t.dp.s = s.dp.s) : Ready t where
  out := outWindow_of_ran hr h.out
  inp := by rw [hr.inAddr, hs, hr.memSize]; exact h.inp

theorem forInput_runs {allowed : Code → Prop} {body : Byte → State → Flow State} {s : State} (h : Ready s)
    (hbody : ∀ b t, t.outAddr.toNat + t.outCap.toNat ≤ t.memSize → t.inAddr.toNat + t.dp.s.toNat ≤ t.memSize →
      t.dp.i.toNat < t.dp.s.toNat → Runs allowed t (body b t)) : BodyRuns allowed s (forInput body s) :=
  inputLoop_runs hbody _ (Nat.sub_le _ _) h.out h.inp

/-! ### The bodies -/

/-- The outcomes of an encode (42_base16.md R151; 43_base32.md R161; 44_base8.md R171). -/
def EncodeCode (code : Code) : Prop := code = .arguments ∨ code = .overflow

/-- The outcomes of a decode (42_base16.md R152; 43_base32.md R163; 44_base8.md R174, R177). -/
def DecodeCode (code : Code) : Prop := code = .ok ∨ code = .arguments ∨ code = .overflow ∨ code = .srcerror

theorem encode_prologue (code : Code) (h : PrologueCode code) : EncodeCode code := h

theorem decode_prologue (code : Code) (h : PrologueCode code) : DecodeCode code := .inr (h.imp id .inl)

theorem encode_overflow (code : Code) (h : code = .overflow) : EncodeCode code := .inr h

theorem decode_overflow (code : Code) (h : code = .overflow) : DecodeCode code := .inr (.inr (.inl h))

theorem emitTerminator_runs {s : State} (hm : s.outAddr.toNat + s.outCap.toNat ≤ s.memSize) :
    BodyRuns EncodeCode s (emitTerminator s) :=
  (writeOut_runs 0x00 hm).toBody encode_overflow

theorem note_none {n : Nat} (_g : BitVec n) (s : State) : Ran s s ∧ SameInput s s := ⟨Ran.refl s, rfl, rfl⟩

theorem note_weight (g : BitVec 3) (s : State) : Ran s (addWeight g s) ∧ SameInput s (addWeight g s) :=
  ⟨ran_datapath rfl, rfl, rfl⟩

theorem runs_weaken {allowed allowed' : Code → Prop} {s : State} {x : Flow State} (h : Runs allowed s x)
    (hsub : ∀ code, allowed code → allowed' code) : Runs allowed' s x :=
  Holds.mono h (fun _ ht => ht) (fun _ _ ht => ⟨ht.1, hsub _ ht.2⟩)

theorem enc16Body_runs (s : State) : BodyRuns EncodeCode s (enc16Body s) :=
  prologue_then encode_prologue _ _ s fun _ ht =>
    (forInput_runs ht fun b _ hu _ _ => runs_weaken (emitGroups_runs hexSym note_none b hu) encode_overflow).bind
      fun _ hu => emitTerminator_runs (outWindow_of_ran hu ht.out)

theorem padToEight_runs (fuel : Nat) {s : State} (hm : s.outAddr.toNat + s.outCap.toNat ≤ s.memSize) :
    BodyRuns EncodeCode s (padToEight fuel s) := by
  induction fuel generalizing s with
  | zero => exact Ran.refl s
  | succ fuel ih =>
    rw [padToEight]
    split
    · exact Ran.refl s
    · exact ((emitSymbol_runs padChar hm).toBody encode_overflow).bind fun t ht => ih (outWindow_of_ran ht hm)

theorem enc32Flush_runs {s : State} (hm : s.outAddr.toNat + s.outCap.toNat ≤ s.memSize) :
    BodyRuns EncodeCode s (enc32Flush s) := by
  have hd : Ran s (withDatapath (flushGroup 5 s.dp).2 s) := ran_datapath rfl
  unfold enc32Flush
  simp only
  split
  · exact hd
  · exact BodyRuns.bind (x := .go (withDatapath (flushGroup 5 s.dp).2 s)) hd fun t ht =>
      (emitSymbol_runs _ (outWindow_of_ran ht hm)).toBody encode_overflow

theorem enc32Body_runs (s : State) : BodyRuns EncodeCode s (enc32Body s) :=
  prologue_then encode_prologue _ _ s fun _ ht =>
    (forInput_runs ht fun b _ hu _ _ => runs_weaken (emitGroups_runs b32Sym note_none b hu) encode_overflow).bind
      fun _ hu => (enc32Flush_runs (outWindow_of_ran hu ht.out)).bind fun _ hv =>
        (padToEight_runs 8 (outWindow_of_ran (hu.trans hv) ht.out)).bind fun _ hw =>
          emitTerminator_runs (outWindow_of_ran (hu.trans (hv.trans hw)) ht.out)

theorem enc8Byte_runs (b : Byte) {s : State} (hm : s.outAddr.toNat + s.outCap.toNat ≤ s.memSize) :
    Runs EncodeCode s (enc8Byte b s) :=
  (runs_weaken (emitGroups_runs b8Sym note_weight b hm) encode_overflow).bind fun _ _ _ => runs_go rfl ⟨rfl, rfl⟩

theorem enc8Check_runs {s : State} (hm : s.outAddr.toNat + s.outCap.toNat ≤ s.memSize) :
    BodyRuns EncodeCode s (enc8Check s) := by
  unfold enc8Check
  simp only
  split
  · exact Ran.refl s
  · exact ((emitSymbol_runs _ hm).toBody encode_overflow).bind fun t _ => ran_datapath rfl

theorem enc8Body_runs (s : State) : BodyRuns EncodeCode s (enc8Body s) :=
  prologue_then encode_prologue _ _ s fun _ ht =>
    (forInput_runs ht fun b _ hu _ _ => enc8Byte_runs b hu).bind
      fun _ hu => (enc8Check_runs (outWindow_of_ran hu ht.out)).bind fun _ hv =>
        emitTerminator_runs (outWindow_of_ran (hu.trans hv) ht.out)

theorem stop_srcerror (s : State) : Runs DecodeCode s (.stop .srcerror s) := ⟨Ran.refl s, .inr (.inr (.inr rfl))⟩

theorem dec16Symbol_runs (ch : Byte) {s : State} (hm : s.outAddr.toNat + s.outCap.toNat ≤ s.memSize) :
    Runs DecodeCode s (dec16Symbol ch s) := by
  unfold dec16Symbol
  split
  · exact stop_srcerror s
  · exact runs_weaken (emitUnpacked_runs _ hm) decode_overflow

theorem dec16Body_runs (s : State) : BodyRuns DecodeCode s (dec16Body s) :=
  prologue_then decode_prologue _ _ s fun t ht => by
    unfold rejectOdd
    split
    · exact ⟨Ran.refl t, .inr (.inr (.inr rfl))⟩
    · exact forInput_runs ht fun b u hu _ _ => dec16Symbol_runs b hu

theorem padRun_runs (n k : Nat) {s : State} (hin : s.inAddr.toNat + (k + n) ≤ s.memSize) :
    Runs DecodeCode s (padRun n k s) := by
  induction n generalizing k with
  | zero => exact ⟨Ran.refl s, .inl rfl⟩
  | succ n ih =>
    rw [padRun, engineRead_inside (by omega), bind_go]
    split
    · exact ih (k + 1) (by omega)
    · exact stop_srcerror s

theorem dec32Symbol_runs (ch : Byte) {s : State} (hm : s.outAddr.toNat + s.outCap.toNat ≤ s.memSize)
    (hin : s.inAddr.toNat + s.dp.s.toNat ≤ s.memSize) (hlt : s.dp.i.toNat < s.dp.s.toNat) :
    Runs DecodeCode s (dec32Symbol ch s) := by
  unfold dec32Symbol
  split
  · unfold dec32Padding
    simp only
    split
    · exact padRun_runs _ _ (by omega)
    · exact stop_srcerror s
  · split
    · exact stop_srcerror s
    · exact runs_weaken (emitUnpacked_runs _ hm) decode_overflow

theorem dec32Body_runs (s : State) : BodyRuns DecodeCode s (dec32Body s) :=
  prologueUnbounded_then decode_prologue _ s fun _ ht =>
    forInput_runs ht fun b _ hu hin hlt => dec32Symbol_runs b hu hin hlt

theorem digitLoop_runs (fuel : Nat) (last : BitVec 3) {s : State} (h : Ready s) :
    Holds (fun r => Ran s r.2) (fun code t => Ran s t ∧ DecodeCode code) (digitLoop fuel last s) := by
  induction fuel generalizing last s with
  | zero => exact Ran.refl s
  | succ fuel ih =>
    rw [digitLoop]
    split
    · next hlt =>
      have hin := h.inp
      rw [engineRead_inside (by omega), bind_go]
      split
      · exact ⟨Ran.refl s, .inr (.inr (.inr rfl))⟩
      · next b =>
        have hw := note_weight ((readByte s.mem (s.inAddr.toNat + s.dp.i.toNat)).setWidth 3) s
        refine Holds.bind (Holds.mono
          (emitUnpacked_runs _ (s := addWeight ((readByte s.mem (s.inAddr.toNat + s.dp.i.toNat)).setWidth 3) s)
            (outWindow_of_ran hw.1 h.out)) (fun u hu => hu)
          (fun code u hu => ⟨hw.1.trans hu.1, decode_overflow code hu.2⟩)) fun u hu => ?_
        have hr : Ran s (advanceIn u) := hw.1.trans (hu.1.trans (ran_datapath rfl))
        refine Holds.mono (ih _ (h.ran hr (hu.2.2.trans hw.2.2))) (fun r hr' => hr.trans hr')
          (fun code v hv => ⟨hr.trans hv.1, hv.2⟩)
    · exact Ran.refl s

theorem dec8Check_runs (last : BitVec 3) (s : State) : BodyRuns DecodeCode s (dec8Check last s) := by
  unfold dec8Check
  simp only
  split
  · exact Ran.refl s
  · split
    · exact Ran.refl s
    · exact ⟨Ran.refl s, .inr (.inr (.inr rfl))⟩

theorem dec8Body_runs (s : State) : BodyRuns DecodeCode s (dec8Body s) :=
  prologue_then decode_prologue _ _ s fun t ht => by
    unfold rejectMisaligned
    simp only
    split
    · rw [bind_go]
      refine Holds.bind (digitLoop_runs _ _ ht) fun r hr => ?_
      exact Holds.mono (dec8Check_runs r.1 r.2) (fun u hu => hr.trans hu) (fun code u hu => ⟨hr.trans hu.1, hu.2⟩)
    · exact ⟨Ran.refl t, .inr (.inr (.inr rfl))⟩

theorem s2n8Symbol_runs (ch : Byte) {s : State} (hm : s.outAddr.toNat + s.outCap.toNat ≤ s.memSize) :
    Runs DecodeCode s (s2n8Symbol ch s) := by
  unfold s2n8Symbol
  split
  · exact stop_srcerror s
  · exact runs_weaken (emitSymbol_runs _ hm) decode_overflow

theorem s2n8Body_runs (s : State) : BodyRuns DecodeCode s (s2n8Body s) :=
  prologue_then decode_prologue _ _ s fun _ ht => forInput_runs ht fun b _ hu _ _ => s2n8Symbol_runs b hu

end Sys2Proof.Machine
end

