-- ==== Sys2Proof/Laws/Exec.lean ====
section
/-! SUPPORT. What exec can do, said once: every command is a body and a completion; from every state it completes, with an
outcome of its rule. And what one step can do. -/

namespace Sys2Proof.Machine

/-- The body of a command, after the start of 41_command_framework.md R130. -/
def bodyOf (i : Instr) : State → Flow State :=
  match i with
  | .rsvd0 => reservedBody
  | .enc16 => enc16Body
  | .dec16 => dec16Body
  | .enc32 => enc32Body
  | .dec32 => dec32Body
  | .enc8 => enc8Body
  | .dec8 => dec8Body
  | .s2n8 => s2n8Body
  | .rsvd8 _ => reservedBody

/-- The outcomes after which a command leaves its output window unspecified (20_memory.md R67). -/
def freeOf (i : Instr) : Code → Bool :=
  match i with
  | .rsvd0 => windowFreeUpFront
  | .enc16 => windowFreeUpFront
  | .dec16 => windowFreeUpFront
  | .enc32 => windowFreeUpFront
  | .dec32 => windowFreeIncremental
  | .enc8 => windowFreeUpFront
  | .dec8 => windowFreeUpFront
  | .s2n8 => windowFreeUpFront
  | .rsvd8 _ => windowFreeUpFront

/-- The outcomes of a command besides falling off the end of its body. -/
def stopsOf (i : Instr) : Code → Prop :=
  match i with
  | .rsvd0 => (· = .error)
  | .enc16 => EncodeCode
  | .dec16 => DecodeCode
  | .enc32 => EncodeCode
  | .dec32 => DecodeCode
  | .enc8 => EncodeCode
  | .dec8 => DecodeCode
  | .s2n8 => DecodeCode
  | .rsvd8 _ => (· = .error)

theorem exec_eq (i : Instr) (s : State) : exec i s = finish (freeOf i) (bodyOf i s) := by cases i <;> rfl

theorem bodyOf_runs (i : Instr) (s : State) : BodyRuns (stopsOf i) s (bodyOf i s) := by
  cases i
  · exact ⟨Ran.refl s, rfl⟩
  · exact enc16Body_runs s
  · exact dec16Body_runs s
  · exact enc32Body_runs s
  · exact dec32Body_runs s
  · exact enc8Body_runs s
  · exact dec8Body_runs s
  · exact s2n8Body_runs s
  · exact ⟨Ran.refl s, rfl⟩

/-- A command ends in a completion: of OK where its body falls off the end, or of an outcome that its rule lists. -/
theorem exec_cases (i : Instr) (s : State) :
    ∃ code u, exec i s = .next (complete (freeOf i code) code u) ∧ Ran s u ∧
      ((bodyOf i s = .go u ∧ code = .ok) ∨ (bodyOf i s = .stop code u ∧ stopsOf i code)) := by
  have h := bodyOf_runs i s
  rw [exec_eq]
  cases hb : bodyOf i s with
  | go u => rw [hb] at h; exact ⟨.ok, u, rfl, h, .inl ⟨rfl, rfl⟩⟩
  | stop code u => rw [hb] at h; exact ⟨code, u, rfl, h.1, .inr ⟨rfl, h.2⟩⟩
  | fault f => rw [hb] at h; exact h.elim

/-- A completion of `u`, reached from `s`, leaves the control registers of `s`. -/
theorem controlKept_complete {s u : State} (h : Ran s u) (free : Bool) (code : Code) :
    ControlKept s (complete free code u) := by
  have e := h.only
  refine ⟨?_, ?_, ?_, ?_, ?_, ?_, ?_, ?_, ?_⟩ <;> simp only [complete] <;> rw [e]

theorem resultBits_injective {a b : Code} (h : resultBits a = resultBits b) : a = b := by
  revert h; cases a <;> cases b <;> decide

theorem resultBits_le (code : Code) : (resultBits code).toNat ≤ 4 := by cases code <;> decide

/-- A completion writes no byte outside the output window. -/
theorem keptOutside_complete {s u : State} (h : Ran s u) (free : Bool) (code : Code) :
    KeptOutside s (complete free code u) s.outAddr.toNat s.outCap.toNat := by
  intro x hx
  rw [← h.kept x hx, complete_mem]
  split
  · rw [readByte_drawOutputWindow, if_neg]
    rw [h.outAddr, h.outCap]
    omega
  · rfl

/-! ### From a body to the outcome that a claim names -/

/-- A body that falls off its end with the output written has succeeded. -/
theorem succeeds_of_go {i : Instr} {s t : State} {out : List Byte} {n : Nat} (hb : bodyOf i s = .go t)
    (hn : t.dp.o.toNat = n) (hm : t.mem = storeList s.mem s.outAddr.toNat out) : Succeeds i s out n := by
  have hr : Ran s t := by
    have := bodyOf_runs i s
    rw [hb] at this
    exact this
  have hfree : freeOf i .ok = false := by cases i <;> rfl
  refine ⟨complete (freeOf i .ok) .ok t, by rw [exec_eq, hb]; rfl, ⟨rfl, rfl, rfl, rfl, controlKept_complete hr _ _⟩, ?_,
    ?_, ?_, ?_⟩
  · simpa using hn
  · simp [hr.draws]
  · simp only [complete_mem, hfree, hm]
    exact bytesAt_storeList _ _ _
  · intro x hx
    simp only [complete_mem, hfree, hm]
    exact readByte_storeList_outside hx

/-- The same for a body that ends with `finish OK` before its end. -/
theorem succeeds_of_stop {i : Instr} {s t : State} {out : List Byte} {n : Nat} (hb : bodyOf i s = .stop .ok t)
    (hn : t.dp.o.toNat = n) (hm : t.mem = storeList s.mem s.outAddr.toNat out) : Succeeds i s out n := by
  have hr : Ran s t := by
    have := bodyOf_runs i s
    rw [hb] at this
    exact this.1
  have hfree : freeOf i .ok = false := by cases i <;> rfl
  refine ⟨complete (freeOf i .ok) .ok t, by rw [exec_eq, hb]; rfl, ⟨rfl, rfl, rfl, rfl, controlKept_complete hr _ _⟩, ?_,
    ?_, ?_, ?_⟩
  · simpa using hn
  · simp [hr.draws]
  · simp only [complete_mem, hfree, hm]
    exact bytesAt_storeList _ _ _
  · intro x hx
    simp only [complete_mem, hfree, hm]
    exact readByte_storeList_outside hx

/-- A body that ends with an outcome before any store leaves memory alone, if that outcome does not free the window. -/
theorem failsUntouched_of_stop {i : Instr} {s t : State} {code : Code} (hb : bodyOf i s = .stop code t)
    (hcode : code ≠ .ok) (hfree : freeOf i code = false) (hm : t.mem = s.mem) :
    FailsUntouched i s (resultBits code) := by
  have hr : Ran s t := by
    have := bodyOf_runs i s
    rw [hb] at this
    exact this.1
  refine ⟨complete (freeOf i code) code t, by rw [exec_eq, hb]; rfl,
    ⟨rfl, rfl, rfl, rfl, controlKept_complete hr _ _⟩, ?_, ?_, ?_⟩
  · simp [hcode, hr.draws]
  · simp [hcode, hr.draws]
  · simp [hfree, hm]

/-- A body that ends with an outcome that frees the window leaves every byte of it free. -/
theorem failsWindowFree_of_stop {i : Instr} {s t : State} {code : Code} (hu : Usable s)
    (hb : bodyOf i s = .stop code t) (hcode : code ≠ .ok) (hfree : freeOf i code = true) :
    FailsWindowFree i s (resultBits code) := by
  have hr : Ran s t := by
    have := bodyOf_runs i s
    rw [hb] at this
    exact this.1
  refine ⟨complete (freeOf i code) code t, by rw [exec_eq, hb]; rfl,
    ⟨rfl, rfl, rfl, rfl, controlKept_complete hr _ _⟩, ?_, ?_, ?_, keptOutside_complete hr _ _⟩
  · simp [hcode, hr.draws]
  · simp [hcode, hr.draws]
  · intro a h1 h2
    obtain ⟨_, hm, h3⟩ := hu
    simp only [complete_mem, hfree, if_true]
    rw [readByte_drawOutputWindow, if_pos, hr.draws]
    rw [hr.outAddr, hr.outCap, hr.memSize, hr.inAddr, hr.inLen]
    omega

/-- The prologue of a command whose windows, input and capacity are in order. -/
theorem prologue_ok (kind : InputKind) (req : Nat → Nat) {s : State} (hu : Usable s) (hz : kindSize kind s ≠ 0)
    (hc : req (kindSize kind s) ≤ s.outCap.toNat) :
    prologue kind req s = .go (setLength (kindSize kind s) s) := by
  rw [prologue_eq, if_neg (not_not.2 hu), if_neg hz, if_neg (by omega)]

/-- The prologue of DEC32 whose windows and input are in order. -/
theorem prologueUnbounded_ok (kind : InputKind) {s : State} (hu : Usable s) (hz : kindSize kind s ≠ 0) :
    prologueUnbounded kind s = .go (setLength (kindSize kind s) s) := by
  rw [prologueUnbounded_eq, if_neg (not_not.2 hu), if_neg hz]

/-- The string of the input window is its bytes up to its length. -/
theorem bytesAt_inputString (s : State) :
    bytesAt s.mem s.inAddr.toNat (inputString s).length = inputString s := by
  have hp : inputString s <+: inputBytes s := List.takeWhile_prefix _
  have htake := List.prefix_iff_eq_take.1 hp
  conv_rhs => rw [htake]
  apply List.ext_getElem
  · have := inputString_length_le s
    simp [inputBytes]
    omega
  · intro k h1 h2
    simp [inputBytes, bytesAt]

end Sys2Proof.Machine
end

