-- ==== Sys2Proof/Laws/Stream.lean ====
section
/-! SUPPORT. Bit streams and the reframer: the value of a list of bits, a stream cut into whole elements and a rest, and
what each primitive of 40_datapath.md does to a carry that holds a list of bits. -/

namespace Sys2Proof.Machine

/-! ### The value of a list of bits -/

/-- The value of a list of bits, the first the most significant. -/
def bitsValue (l : List Bool) : Nat := l.foldl (fun v b => 2 * v + b.toNat) 0

@[simp] theorem bitsValue_nil : bitsValue [] = 0 := rfl

theorem foldl_bits (l : List Bool) (v : Nat) :
    l.foldl (fun v b => 2 * v + b.toNat) v = v * 2 ^ l.length + bitsValue l := by
  induction l generalizing v with
  | nil => simp
  | cons b l ih =>
    simp only [bitsValue, List.foldl_cons, List.length_cons]
    rw [ih, ih (2 * 0 + b.toNat)]
    ring

theorem bitsValue_append (l m : List Bool) : bitsValue (l ++ m) = bitsValue l * 2 ^ m.length + bitsValue m := by
  rw [bitsValue, List.foldl_append, foldl_bits]
  rfl

theorem bitsValue_lt (l : List Bool) : bitsValue l < 2 ^ l.length := by
  induction l using List.reverseRecOn with
  | nil => simp
  | append_singleton l b ih =>
    rw [bitsValue_append, List.length_append, List.length_singleton, pow_one, pow_succ]
    have : bitsValue [b] ≤ 1 := by cases b <;> decide
    omega

theorem bitsValue_replicate_false (k : Nat) : bitsValue (List.replicate k false) = 0 := by
  induction k with
  | zero => rfl
  | succ k ih =>
    rw [List.replicate_succ', bitsValue_append, ih]
    simp [bitsValue]

@[simp] theorem bitsOf_length {n : Nat} (v : BitVec n) : (bitsOf v).length = n := by simp [bitsOf]

/-- A value is the value of its bits. -/
theorem bitsValue_bitsOf {n : Nat} (v : BitVec n) : bitsValue (bitsOf v) = v.toNat := by
  have key : ∀ k ≤ n, bitsValue ((List.range k).map v.getMsbD) = v.toNat / 2 ^ (n - k) := by
    intro k
    induction k with
    | zero => intro _; simp [Nat.div_eq_of_lt v.isLt]
    | succ k ih =>
      intro hk
      rw [List.range_succ, List.map_append, bitsValue_append, ih (by omega)]
      have hbit : bitsValue ([k].map v.getMsbD) = v.toNat / 2 ^ (n - (k + 1)) % 2 := by
        simp only [List.map_cons, List.map_nil, bitsValue, List.foldl_cons, List.foldl_nil, BitVec.getMsbD,
          BitVec.getLsbD]
        rw [show n - 1 - k = n - (k + 1) by omega, decide_eq_true (show k < n by omega), Bool.true_and,
          Nat.testBit, Nat.shiftRight_eq_div_pow]
        rcases Nat.mod_two_eq_zero_or_one (v.toNat / 2 ^ (n - (k + 1))) with h | h <;> simp [h]
      rw [hbit, show n - k = (n - (k + 1)) + 1 by omega, pow_succ, ← Nat.div_div_eq_div_mul]
      simp only [List.map_cons, List.map_nil, List.length_singleton, pow_one]
      omega
  have := key n (Nat.le_refl n)
  simpa [bitsOf] using this

@[simp] theorem bitStream_nil {n : Nat} : bitStream ([] : List (BitVec n)) = [] := rfl

@[simp] theorem bitStream_cons {n : Nat} (v : BitVec n) (vs : List (BitVec n)) :
    bitStream (v :: vs) = bitsOf v ++ bitStream vs := rfl

theorem bitStream_append {n : Nat} (vs ws : List (BitVec n)) :
    bitStream (vs ++ ws) = bitStream vs ++ bitStream ws := by
  simp [bitStream]

@[simp] theorem bitStream_length {n : Nat} (vs : List (BitVec n)) : (bitStream vs).length = n * vs.length := by
  induction vs with
  | nil => rfl
  | cons v vs ih => simp [ih, Nat.mul_add, Nat.add_comm]

/-! ### Elements of a stream -/

@[simp] theorem elements_length (n count : Nat) (l : List Bool) : (elements n count l).length = count := by
  simp [elements]

/-- An element is the value of its bits, with zeros where the stream has ended. -/
theorem element_eq (n : Nat) (l : List Bool) (k : Nat) :
    element n l k = BitVec.ofNat n (bitsValue ((List.range n).map fun j => l.getD (k * n + j) false)) := by
  simp [element, bitsValue, List.foldl_map]

/-- An element that lies inside a stream is the value of a slice of it. -/
theorem element_inside {n k : Nat} {l : List Bool} (h : (k + 1) * n ≤ l.length) :
    element n l k = BitVec.ofNat n (bitsValue ((l.drop (k * n)).take n)) := by
  rw [element_eq]
  congr 2
  rw [Nat.add_mul, Nat.one_mul] at h
  apply List.ext_getElem
  · simp; omega
  · intro j h1 h2
    simp only [List.length_map, List.length_range] at h1
    have hlt : k * n + j < l.length := by omega
    simp [hlt]

/-- The whole elements of a stream. -/
def whole (n : Nat) (l : List Bool) : List (BitVec n) := elements n (l.length / n) l

/-- The bits of a stream after its whole elements. -/
def rest (n : Nat) (l : List Bool) : List Bool := l.drop (l.length / n * n)

theorem rest_length (n : Nat) (l : List Bool) : (rest n l).length = l.length % n := by
  have := Nat.div_add_mod' l.length n
  simp [rest]; omega

theorem whole_length (n : Nat) (l : List Bool) : (whole n l).length = l.length / n := by simp [whole]

theorem rest_length_lt {n : Nat} (hn : 0 < n) (l : List Bool) : (rest n l).length < n := by
  rw [rest_length]; exact Nat.mod_lt _ hn

theorem element_append_left {n k : Nat} {l : List Bool} (m : List Bool) (h : (k + 1) * n ≤ l.length) :
    element n (l ++ m) k = element n l k := by
  rw [element_eq, element_eq]
  congr 2
  rw [Nat.add_mul, Nat.one_mul] at h
  apply List.map_congr_left
  intro j hj
  have hj : j < n := List.mem_range.1 hj
  have hlt : k * n + j < l.length := by omega
  simp [List.getElem?_append_left hlt]

theorem element_drop (n q k : Nat) (l : List Bool) : element n (l.drop (q * n)) k = element n l (q + k) := by
  rw [element_eq, element_eq]
  congr 2
  apply List.map_congr_left
  intro j _
  simp [Nat.add_mul, Nat.add_assoc]

theorem elements_add (n a b : Nat) (l : List Bool) :
    elements n (a + b) l = elements n a l ++ elements n b (l.drop (a * n)) := by
  unfold elements
  rw [List.range_add, List.map_append, List.map_map]
  congr 1
  apply List.map_congr_left
  intro j _
  simp [element_drop]

theorem elements_append_left {n count : Nat} {l : List Bool} (m : List Bool) (h : count * n ≤ l.length) :
    elements n count (l ++ m) = elements n count l := by
  apply List.map_congr_left
  intro k hk
  have hk : k + 1 ≤ count := List.mem_range.1 hk
  exact element_append_left m (Nat.le_trans (Nat.mul_le_mul_right n hk) h)

/-- A longer stream: its whole elements are the old ones, and those of the old rest with the new bits. -/
theorem whole_append {n : Nat} (hn : 0 < n) (l m : List Bool) :
    whole n (l ++ m) = whole n l ++ whole n (rest n l ++ m) := by
  have hle : l.length / n * n ≤ l.length := Nat.div_mul_le_self _ _
  have hq : (l ++ m).length / n = l.length / n + (rest n l ++ m).length / n := by
    rw [List.length_append, List.length_append, rest_length]
    conv_lhs => rw [← Nat.div_add_mod' l.length n]
    rw [Nat.add_assoc, Nat.add_comm, Nat.add_mul_div_right _ _ hn, Nat.add_comm]
  unfold whole
  rw [hq, elements_add, elements_append_left m hle, List.drop_append_of_le_length hle]
  rfl

/-- A longer stream: its rest is that of the old rest with the new bits. -/
theorem rest_append {n : Nat} (hn : 0 < n) (l m : List Bool) : rest n (l ++ m) = rest n (rest n l ++ m) := by
  have hle : l.length / n * n ≤ l.length := Nat.div_mul_le_self _ _
  have hq : (l ++ m).length / n = l.length / n + (rest n l ++ m).length / n := by
    rw [List.length_append, List.length_append, rest_length]
    conv_lhs => rw [← Nat.div_add_mod' l.length n]
    rw [Nat.add_assoc, Nat.add_comm, Nat.add_mul_div_right _ _ hn, Nat.add_comm]
  conv_lhs => rw [rest, hq, Nat.add_mul, ← List.drop_drop, List.drop_append_of_le_length hle]
  rfl

theorem rest_eq_self {n : Nat} {l : List Bool} (h : l.length < n) : rest n l = l := by
  simp [rest, Nat.div_eq_of_lt h]

theorem whole_eq_nil {n : Nat} {l : List Bool} (h : l.length < n) : whole n l = [] := by
  simp [whole, Nat.div_eq_of_lt h, elements]

/-- Cutting one element off a stream that holds one. -/
theorem whole_cons {n : Nat} (hn : 0 < n) {l : List Bool} (h : n ≤ l.length) :
    whole n l = BitVec.ofNat n (bitsValue (l.take n)) :: whole n (l.drop n) := by
  have hq : l.length / n = 1 + (l.drop n).length / n := by
    rw [List.length_drop, Nat.add_comm, ← Nat.sub_add_cancel h, Nat.add_div_right _ hn]
    simp
  unfold whole
  rw [hq, elements_add]
  have h1 : elements n 1 l = [BitVec.ofNat n (bitsValue (l.take n))] := by
    have := element_inside (n := n) (k := 0) (l := l) (by omega)
    simpa [elements] using this
  rw [h1, Nat.one_mul]
  rfl

theorem rest_drop {n : Nat} (hn : 0 < n) {l : List Bool} (h : n ≤ l.length) : rest n l = rest n (l.drop n) := by
  have hq : l.length / n = 1 + (l.drop n).length / n := by
    rw [List.length_drop, Nat.add_comm, ← Nat.sub_add_cancel h, Nat.add_div_right _ hn]
    simp
  rw [rest, rest, hq, Nat.add_mul, Nat.one_mul, List.drop_drop]

/-! ### The carry -/

/-- The carry holds a list of bits: right-aligned, the oldest the most significant (10_state.md R38). -/
def Carries (d : Datapath) (r : List Bool) : Prop := d.c.toNat = bitsValue r ∧ d.cn.toNat = r.length

theorem carries_zero : Carries Datapath.zero [] := ⟨rfl, rfl⟩

theorem Carries.canonical {d : Datapath} {r : List Bool} (h : Carries d r) : d.c.toNat < 2 ^ d.cn.toNat := by
  rw [h.1, h.2]; exact bitsValue_lt r

/-- Nothing but C and CN differs. -/
def OnlyCarry (d d' : Datapath) : Prop := d' = { d with c := d'.c, cn := d'.cn }

theorem OnlyCarry.refl (d : Datapath) : OnlyCarry d d := rfl

theorem OnlyCarry.trans {d d' d'' : Datapath} (h : OnlyCarry d d') (h' : OnlyCarry d' d'') : OnlyCarry d d'' := by
  unfold OnlyCarry at *
  rw [h']
  rw [h]

theorem carryMask_toNat {k : Nat} (h : k ≤ 16) : (carryMask k).toNat = 2 ^ k - 1 := by
  have : 2 ^ k ≤ 2 ^ 16 := Nat.pow_le_pow_right (by omega) h
  simp only [carryMask, BitVec.toNat_ofNat]
  rw [Nat.mod_eq_of_lt]
  have := Nat.two_pow_pos k
  omega

theorem and_carryMask_toNat (c : BitVec 16) {k : Nat} (h : k ≤ 16) : (c &&& carryMask k).toNat = c.toNat % 2 ^ k := by
  rw [BitVec.toNat_and, carryMask_toNat h, Nat.and_two_pow_sub_one_eq_mod]

/-- Cutting a list at `n` bits: the value above and the value below. -/
theorem bitsValue_take_drop (l : List Bool) (n : Nat) :
    bitsValue (l.take n) = bitsValue l / 2 ^ (l.length - n) ∧ bitsValue (l.drop n) = bitsValue l % 2 ^ (l.length - n) := by
  have hsplit : bitsValue l = bitsValue (l.take n) * 2 ^ (l.length - n) + bitsValue (l.drop n) := by
    conv_lhs => rw [← List.take_append_drop n l, bitsValue_append, List.length_drop]
  have hlt : bitsValue (l.drop n) < 2 ^ (l.length - n) := by
    have := bitsValue_lt (l.drop n)
    rwa [List.length_drop] at this
  have hpos := Nat.two_pow_pos (l.length - n)
  constructor
  · rw [hsplit, Nat.add_comm, Nat.add_mul_div_right _ _ hpos, Nat.div_eq_of_lt hlt, Nat.zero_add]
  · rw [hsplit, Nat.add_comm, Nat.add_mul_mod_self_right, Nat.mod_eq_of_lt hlt]

/-- `cutGroups`: the whole groups of what the carry holds; the carry keeps the rest. -/
theorem cutGroups_spec {n : Nat} (hn : 0 < n) :
    ∀ (fuel : Nat) (d : Datapath) (r : List Bool), Carries d r → r.length ≤ 16 → r.length ≤ fuel →
      (cutGroups n fuel d).1 = whole n r ∧ Carries (cutGroups n fuel d).2 (rest n r) ∧
        OnlyCarry d (cutGroups n fuel d).2
  | 0, d, r, hc, _, hf => by
    have : r = [] := List.length_eq_zero_iff.1 (by omega)
    subst this
    refine ⟨?_, ?_, OnlyCarry.refl d⟩
    · simp [cutGroups, whole, elements]
    · simpa [cutGroups, rest] using hc
  | fuel + 1, d, r, hc, h16, hf => by
    simp only [cutGroups, hc.2]
    by_cases h : n ≤ r.length
    · rw [if_pos h]
      have htd := bitsValue_take_drop r n
      let d' : Datapath :=
        { d with cn := BitVec.ofNat 5 (r.length - n), c := d.c &&& carryMask (r.length - n) }
      have hc' : Carries d' (r.drop n) := by
        constructor
        · simp only [d']
          rw [and_carryMask_toNat _ (by omega), hc.1, htd.2]
        · simp only [d', BitVec.toNat_ofNat, List.length_drop]
          omega
      obtain ⟨h1, h2, h3⟩ := cutGroups_spec hn fuel d' (r.drop n) hc' (by simp; omega) (by simp; omega)
      refine ⟨?_, ?_, ?_⟩
      · rw [whole_cons hn h]
        refine congrArg₂ List.cons ?_ h1
        apply BitVec.eq_of_toNat_eq
        rw [BitVec.toNat_setWidth, BitVec.toNat_ushiftRight, hc.1, Nat.shiftRight_eq_div_pow, BitVec.toNat_ofNat,
          htd.1]
      · rw [rest_drop hn h]; exact h2
      · exact OnlyCarry.trans (d' := d') rfl h3
    · rw [if_neg h]
      refine ⟨(whole_eq_nil (by omega)).symm, ?_, OnlyCarry.refl d⟩
      rw [rest_eq_self (by omega)]; exact hc

/-- Shifting a value of `k` bits into C, as long as C has room. -/
theorem shift_or_toNat {k : Nat} (c : BitVec 16) (v : BitVec k) {r : List Bool} (hc : c.toNat = bitsValue r)
    (h : r.length + k ≤ 16) : ((c <<< k) ||| v.setWidth 16).toNat = bitsValue (r ++ bitsOf v) := by
  have hr := bitsValue_lt r
  have hv : v.toNat < 2 ^ k := v.isLt
  have hk : 2 ^ k ≤ 2 ^ 16 := Nat.pow_le_pow_right (by omega) (by omega)
  have hprod : bitsValue r * 2 ^ k < 2 ^ 16 :=
    calc bitsValue r * 2 ^ k < 2 ^ r.length * 2 ^ k := Nat.mul_lt_mul_of_pos_right hr (Nat.two_pow_pos k)
      _ = 2 ^ (r.length + k) := (pow_add _ _ _).symm
      _ ≤ 2 ^ 16 := Nat.pow_le_pow_right (by omega) h
  rw [BitVec.toNat_or, BitVec.toNat_shiftLeft, BitVec.toNat_setWidth, hc, bitsValue_append, bitsOf_length,
    bitsValue_bitsOf, Nat.mod_eq_of_lt (Nat.lt_of_lt_of_le hv hk), Nat.shiftLeft_eq, Nat.mod_eq_of_lt hprod,
    Nat.mul_comm, Nat.two_pow_add_eq_or_of_lt hv]

/-- `shiftIn`: the carry holds the byte's bits after its own. -/
theorem shiftIn_spec {d : Datapath} {r : List Bool} (b : Byte) (hc : Carries d r) (h : r.length ≤ 8) :
    Carries (shiftIn b d) (r ++ bitsOf b) := by
  constructor
  · exact shift_or_toNat d.c b hc.1 (by omega)
  · simp only [shiftIn, BitVec.toNat_add, hc.2, List.length_append, bitsOf_length]
    simp
    omega

/-- `pack_byte` (40_datapath.md R105): the whole groups of the carry's bits and the byte's; the carry keeps the rest. -/
theorem packByte_spec {n : Nat} (hn : 0 < n) {d : Datapath} {r : List Bool} (b : Byte) (hc : Carries d r)
    (h : r.length ≤ 8) :
    (packByte n b d).1 = whole n (r ++ bitsOf b) ∧ Carries (packByte n b d).2 (rest n (r ++ bitsOf b)) ∧
      OnlyCarry d (packByte n b d).2 := by
  have hs := shiftIn_spec b hc h
  obtain ⟨h1, h2, h3⟩ :=
    cutGroups_spec hn (shiftIn b d).cn.toNat (shiftIn b d) _ hs (by simp; omega) (Nat.le_of_eq hs.2.symm)
  exact ⟨h1, h2, OnlyCarry.trans (d' := shiftIn b d) rfl h3⟩

/-- `unpack_symbol` (40_datapath.md R108): the whole bytes of the carry's bits and the symbol's, at most one; the carry
keeps the rest. -/
theorem unpackSymbol_spec {n : Nat} (hn : n ≤ 8) {d : Datapath} {r : List Bool} (v : BitVec n) (hc : Carries d r)
    (h : r.length < 8) :
    (unpackSymbol v d).1 = whole 8 (r ++ bitsOf v) ∧ Carries (unpackSymbol v d).2 (rest 8 (r ++ bitsOf v)) ∧
      OnlyCarry d (unpackSymbol v d).2 := by
  have hv := shift_or_toNat d.c v hc.1 (show r.length + n ≤ 16 by omega)
  have hcn : (d.cn + BitVec.ofNat 5 n).toNat = (r ++ bitsOf v).length := by
    rw [BitVec.toNat_add, hc.2, BitVec.toNat_ofNat, List.length_append, bitsOf_length]
    omega
  have hlen : (r ++ bitsOf v).length ≤ 15 := by simp; omega
  simp only [unpackSymbol, hcn]
  by_cases h8 : 8 ≤ (r ++ bitsOf v).length
  · rw [if_pos h8]
    have htd := bitsValue_take_drop (r ++ bitsOf v) 8
    refine ⟨?_, ⟨?_, ?_⟩, rfl⟩
    · rw [whole_cons (by omega) h8, whole_eq_nil (by rw [List.length_drop]; omega)]
      refine congrArg (· :: []) ?_
      apply BitVec.eq_of_toNat_eq
      rw [BitVec.toNat_setWidth, BitVec.toNat_ushiftRight, hv, Nat.shiftRight_eq_div_pow, BitVec.toNat_ofNat, htd.1]
    · show (_ &&& carryMask _).toNat = _
      rw [and_carryMask_toNat _ (by omega), hv, rest_drop (by omega) h8,
        rest_eq_self (by rw [List.length_drop]; omega), htd.2]
    · rw [rest_length, BitVec.toNat_ofNat]
      omega
  · rw [if_neg h8]
    refine ⟨(whole_eq_nil (by omega)).symm, ⟨?_, ?_⟩, rfl⟩
    · rw [rest_eq_self (by omega)]; exact hv
    · rw [rest_eq_self (by omega)]; exact hcn

/-- `flush_group` (40_datapath.md R107): the bits held, zero-filled below, as the element after the whole ones. -/
theorem flushGroup_spec {n : Nat} (hn : n ≤ 8) {d : Datapath} {r : List Bool} (hc : Carries d r) (h : r.length < n) :
    (flushGroup n d).1 = (if r = [] then none else some (element n r 0)) ∧ Carries (flushGroup n d).2 [] ∧
      OnlyCarry d (flushGroup n d).2 := by
  unfold flushGroup
  by_cases hz : d.cn = 0
  · rw [if_pos hz]
    have hr : r = [] := by
      have := hc.2
      rw [hz] at this
      exact List.length_eq_zero_iff.1 this.symm
    subst hr
    exact ⟨by simp, hc, OnlyCarry.refl d⟩
  · rw [if_neg hz]
    have hr : r ≠ [] := by
      rintro rfl
      apply hz
      apply BitVec.eq_of_toNat_eq
      simpa using hc.2
    rw [if_neg hr]
    refine ⟨congrArg some ?_, ⟨rfl, rfl⟩, rfl⟩
    have hl : ((List.range n).map fun j => r.getD (0 * n + j) false) = r ++ List.replicate (n - r.length) false := by
      apply List.ext_getElem
      · simp; omega
      · intro j h1 h2
        by_cases hj : j < r.length
        · simp [hj, List.getElem_append_left hj]
        · simp [hj, List.getElem_append_right (Nat.not_lt.1 hj)]
    rw [element_eq, hl, bitsValue_append, List.length_replicate, bitsValue_replicate_false, Nat.add_zero]
    apply BitVec.eq_of_toNat_eq
    have hlt : bitsValue r * 2 ^ (n - r.length) < 2 ^ n := by
      calc bitsValue r * 2 ^ (n - r.length) < 2 ^ r.length * 2 ^ (n - r.length) :=
            Nat.mul_lt_mul_of_pos_right (bitsValue_lt r) (Nat.two_pow_pos _)
        _ = 2 ^ n := by rw [← pow_add]; congr 1; omega
    have h16 : 2 ^ n ≤ 2 ^ 16 := Nat.pow_le_pow_right (by omega) (by omega)
    rw [BitVec.toNat_setWidth, BitVec.toNat_shiftLeft, hc.2, hc.1, Nat.shiftLeft_eq,
      Nat.mod_eq_of_lt (Nat.lt_of_lt_of_le hlt h16), BitVec.toNat_ofNat]

end Sys2Proof.Machine
end

