-- ==== Sys2Proof/Laws/Loops.lean ====
section
/-! SUPPORT. The input loop with its output: while the body emits, what has been written, what the carry holds and what P
has counted are functions of the input consumed. -/

namespace Sys2Proof.Machine

/-- From `s` to `t` an engine has written `out` at OUT_ADDR + O, holds `r` in its carry and has added `wt` to P; only
the datapath and the memory differ. -/
structure Emits (s t : State) (out : List Byte) (r : List Bool) (wt : Nat) : Prop where
  /-- All other fields are as before. -/
  only : t = { s with dp := t.dp, mem := t.mem }
  /-- The bytes written. -/
  mem : t.mem = storeList s.mem (s.outAddr.toNat + s.dp.o.toNat) out
  /-- O has advanced by as many. -/
  o : t.dp.o.toNat = s.dp.o.toNat + out.length
  /-- The carry. -/
  carries : Carries t.dp r
  /-- The parity accumulator. -/
  p : t.dp.p = s.dp.p + BitVec.ofNat 32 wt

theorem Emits.trans {s t u : State} {out out' : List Byte} {r r' : List Bool} {wt wt' : Nat}
    (h : Emits s t out r wt) (h' : Emits t u out' r' wt') : Emits s u (out ++ out') r' (wt + wt') where
  only := by rw [h'.only]; conv_lhs => rw [h.only]
  mem := by
    have ha : t.outAddr = s.outAddr := by rw [h.only]
    rw [h'.mem, h.mem, ha, h.o, storeList_append, Nat.add_assoc]
  o := by rw [h'.o, h.o, List.length_append, Nat.add_assoc]
  carries := h'.carries
  p := by rw [h'.p, h.p, BitVec.ofNat_add, BitVec.add_assoc]

theorem Emits.memSize {s t : State} {out : List Byte} {r : List Bool} {wt : Nat} (h : Emits s t out r wt) :
    t.memSize = s.memSize := by rw [h.only]

theorem Emits.outAddr {s t : State} {out : List Byte} {r : List Bool} {wt : Nat} (h : Emits s t out r wt) :
    t.outAddr = s.outAddr := by rw [h.only]

theorem Emits.outCap {s t : State} {out : List Byte} {r : List Bool} {wt : Nat} (h : Emits s t out r wt) :
    t.outCap = s.outCap := by rw [h.only]

theorem Emits.inAddr {s t : State} {out : List Byte} {r : List Bool} {wt : Nat} (h : Emits s t out r wt) :
    t.inAddr = s.inAddr := by rw [h.only]

/-- A byte of the input window reads as at the start, since the output lies in a disjoint window. -/
theorem Emits.readInput {s t : State} {out : List Byte} {r : List Bool} {wt x : Nat} (h : Emits s t out r wt)
    (hu : Usable s) (hx : s.inAddr.toNat ≤ x ∧ x < s.inAddr.toNat + s.inLen.toNat)
    (hroom : s.dp.o.toNat + out.length ≤ s.outCap.toNat) : readByte t.mem x = readByte s.mem x := by
  rw [h.mem]
  obtain ⟨_, _, h3⟩ := hu
  by_cases hz : out.length = 0
  · rw [List.length_eq_zero_iff.1 hz]; rfl
  · exact readByte_storeList_outside (by omega)

/-- Emitting the groups of a byte. -/
theorem emitGroups_emits {n : Nat} (hn : 0 < n) (rom : BitVec n → Byte) {note : BitVec n → State → State}
    (w : BitVec n → Nat)
    (hnote : ∀ g s, note g s = { s with dp := { s.dp with p := s.dp.p + BitVec.ofNat 32 (w g) } }) (b : Byte)
    {s : State} {r : List Bool} (hc : Carries s.dp r) (hr : r.length ≤ 8)
    (hroom : s.dp.o.toNat + (whole n (r ++ bitsOf b)).length ≤ s.outCap.toNat)
    (hm : s.outAddr.toNat + s.outCap.toNat ≤ s.memSize) :
    Holds (fun t => Emits s t ((whole n (r ++ bitsOf b)).map rom) (rest n (r ++ bitsOf b))
        (((whole n (r ++ bitsOf b)).map w).sum) ∧ SameInput s t)
      (fun _ _ => False) (emitGroups n rom note b s) := by
  obtain ⟨h1, h2, h3⟩ := packByte_spec hn b hc hr
  unfold emitGroups
  simp only [h1]
  have loop : ∀ (gs : List (BitVec n)) (t : State), t.outAddr.toNat + t.outCap.toNat ≤ t.memSize →
      t.dp.o.toNat + gs.length ≤ t.outCap.toNat →
      Holds (fun u => u = { t with
          mem := storeList t.mem (t.outAddr.toNat + t.dp.o.toNat) (gs.map rom)
          dp := { t.dp with
            o := t.dp.o + BitVec.ofNat 32 gs.length
            p := t.dp.p + BitVec.ofNat 32 ((gs.map w).sum) } })
        (fun _ _ => False) (forEach (fun g s => emitSymbol (rom g) (note g s)) gs t) := by
    intro gs
    induction gs with
    | nil => intro t _ _; simp [forEach, storeList]
    | cons g gs ih =>
      intro t ht hroom
      simp only [List.length_cons] at hroom
      have hcap := t.outCap.isLt
      rw [forEach, hnote, emitSymbol_room (by show t.dp.o.toNat < t.outCap.toNat; omega) (by exact ht), bind_go]
      refine Holds.mono (ih _ ?_ ?_) (fun u hu => ?_) (fun _ _ h => h)
      · exact ht
      · simp only [emitted, List.length_singleton, BitVec.toNat_add, BitVec.toNat_ofNat]
        omega
      · have ho1 : (t.dp.o + 1#32).toNat = t.dp.o.toNat + 1 := by
          simp only [BitVec.toNat_add, BitVec.toNat_ofNat]
          omega
        rw [hu]
        simp only [emitted, storeList, List.map_cons, List.length_cons, List.length_nil, List.sum_cons, Nat.zero_add,
          ho1, ← Nat.add_assoc, BitVec.ofNat_add, BitVec.add_assoc]
        rw [BitVec.add_comm 1#32]
  have hdp : (packByte n b s.dp).2 = { s.dp with c := (packByte n b s.dp).2.c, cn := (packByte n b s.dp).2.cn } := h3
  have ho : (packByte n b s.dp).2.o = s.dp.o := by rw [hdp]
  have hp : (packByte n b s.dp).2.p = s.dp.p := by rw [hdp]
  have hcap := s.outCap.isLt
  refine Holds.mono (loop _ (withDatapath (packByte n b s.dp).2 s) hm (by simpa [ho] using hroom)) (fun t ht => ?_)
    (fun _ _ h => h)
  refine ⟨⟨?_, ?_, ?_, ?_, ?_⟩, ?_, ?_⟩
  · rw [ht]; rfl
  · rw [ht]; simp [ho]
  · rw [ht]
    simp only [withDatapath_dp, ho, BitVec.toNat_add, BitVec.toNat_ofNat, List.length_map]
    omega
  · rw [ht]; exact h2
  · rw [ht]; simp [hp]
  · rw [ht]; simp only [withDatapath_dp]; rw [hdp]
  · rw [ht]; simp only [withDatapath_dp]; rw [hdp]

/-- Emitting the byte that a symbol value completes, if there is one. -/
theorem emitUnpacked_emits {n : Nat} (hn : n ≤ 8) (v : BitVec n) {s : State} {r : List Bool} (hc : Carries s.dp r)
    (hr : r.length < 8) (hroom : s.dp.o.toNat + (whole 8 (r ++ bitsOf v)).length ≤ s.outCap.toNat)
    (hm : s.outAddr.toNat + s.outCap.toNat ≤ s.memSize) :
    Holds (fun t => Emits s t (whole 8 (r ++ bitsOf v)) (rest 8 (r ++ bitsOf v)) 0 ∧ SameInput s t)
      (fun _ _ => False) (emitUnpacked v s) := by
  obtain ⟨h1, h2, h3⟩ := unpackSymbol_spec hn v hc hr
  have hdp : (unpackSymbol v s.dp).2 = { s.dp with c := (unpackSymbol v s.dp).2.c, cn := (unpackSymbol v s.dp).2.cn } :=
    h3
  have ho : (unpackSymbol v s.dp).2.o = s.dp.o := by rw [hdp]
  have hp : (unpackSymbol v s.dp).2.p = s.dp.p := by rw [hdp]
  have hcap := s.outCap.isLt
  unfold emitUnpacked
  simp only [h1]
  rw [forEach_emitByte (s := withDatapath (unpackSymbol v s.dp).2 s) (by simpa [ho] using hroom) hm]
  refine ⟨⟨rfl, ?_, ?_, h2, ?_⟩, ?_, ?_⟩
  · simp [emitted, ho]
  · simp only [emitted, withDatapath_dp, ho, BitVec.toNat_add, BitVec.toNat_ofNat]
    omega
  · simp [emitted, hp]
  · simp only [emitted, withDatapath_dp]; rw [hdp]
  · simp only [emitted, withDatapath_dp]; rw [hdp]

/-- No room for the byte that a symbol value completes. -/
theorem emitUnpacked_full {n : Nat} (hn : n ≤ 8) (v : BitVec n) {s : State} {r : List Bool} (hc : Carries s.dp r)
    (hr : r.length < 8) (h8 : 8 ≤ r.length + n) (hfull : s.outCap.toNat ≤ s.dp.o.toNat) :
    ∃ t, emitUnpacked v s = .stop .overflow t := by
  obtain ⟨h1, _, h3⟩ := unpackSymbol_spec hn v hc hr
  have hdp : (unpackSymbol v s.dp).2 = { s.dp with c := (unpackSymbol v s.dp).2.c, cn := (unpackSymbol v s.dp).2.cn } :=
    h3
  have ho : (unpackSymbol v s.dp).2.o = s.dp.o := by rw [hdp]
  unfold emitUnpacked
  simp only [h1]
  rw [whole_cons (by omega) (by simpa using h8), forEach, emitByte_eq,
    emitSymbol_full (by rw [withDatapath_outCap, withDatapath_dp, ho]; exact hfull)]
  exact ⟨_, rfl⟩

/-- The input loop over a part `xs` of the input: if the body goes on at each of its bytes, with an output, a carry and
a weight that `F` gives as functions of what has been consumed, the loop is at the byte after `xs`. -/
theorem inputLoop_part {body : Byte → State → Flow State} (F : List Byte → List Byte × List Bool × Nat) {s : State}
    (hin : s.inAddr.toNat + s.dp.s.toNat ≤ s.memSize) (hi : s.dp.i = 0) {xs zs : List Byte}
    (hinput : bytesAt s.mem s.inAddr.toNat s.dp.s.toNat = xs ++ zs)
    (hstart : F [] = ([], [], 0)) (hcarry : Carries s.dp [])
    (hread : ∀ (ys : List Byte) (t : State), ys <+: xs → Emits s t (F ys).1 (F ys).2.1 (F ys).2.2 → ∀ k < s.dp.s.toNat,
      readByte t.mem (s.inAddr.toNat + k) = readByte s.mem (s.inAddr.toNat + k))
    (hbody : ∀ (ys : List Byte) (b : Byte) (t : State), ys ++ [b] <+: xs → t.dp.s = s.dp.s → t.dp.i.toNat = ys.length →
      Emits s t (F ys).1 (F ys).2.1 (F ys).2.2 →
      Holds (fun u => Emits s u (F (ys ++ [b])).1 (F (ys ++ [b])).2.1 (F (ys ++ [b])).2.2 ∧ SameInput t u)
        (fun _ _ => False) (body b t)) (extra : Nat) :
    ∀ ys, ys <+: xs → ∃ t, inputLoop body (ys.length + extra) s = inputLoop body extra t ∧
      Emits s t (F ys).1 (F ys).2.1 (F ys).2.2 ∧ t.dp.s = s.dp.s ∧ t.dp.i.toNat = ys.length := by
  intro ys
  induction ys using List.reverseRecOn generalizing extra with
  | nil =>
    intro _
    refine ⟨s, by simp, ?_, rfl, by simp [hi]⟩
    rw [hstart]
    exact ⟨rfl, rfl, rfl, hcarry, by simp⟩
  | append_singleton ys b ih =>
    intro hpre
    have hpre' : ys <+: xs := (List.prefix_append ys [b]).trans hpre
    obtain ⟨t, ht, hem, hs, hti⟩ := ih (extra + 1) hpre'
    have hlen : ys.length + 1 ≤ xs.length := by simpa using hpre.length_le
    have htot : xs.length + zs.length = s.dp.s.toNat := by
      have := congrArg List.length hinput
      simpa using this.symm
    have hlt : t.dp.i.toNat < t.dp.s.toNat := by rw [hti, hs]; omega
    have hb : readByte s.mem (s.inAddr.toNat + ys.length) = b := by
      have hl : ys.length < (bytesAt s.mem s.inAddr.toNat s.dp.s.toNat).length := by simp; omega
      have e := bytesAt_getElem s.mem s.inAddr.toNat s.dp.s.toNat ys.length hl
      rw [← e]
      obtain ⟨ws, hws⟩ := hpre
      have : bytesAt s.mem s.inAddr.toNat s.dp.s.toNat = ys ++ b :: (ws ++ zs) := by
        rw [hinput, ← hws]; simp
      simp [this]
    obtain ⟨u, hu, hem', hsame⟩ : ∃ u, body b t = .go u ∧
        Emits s u (F (ys ++ [b])).1 (F (ys ++ [b])).2.1 (F (ys ++ [b])).2.2 ∧ SameInput t u := by
      have h := hbody ys b t hpre hs hti hem
      cases hbt : body b t with
      | go u => rw [hbt] at h; exact ⟨u, rfl, h⟩
      | stop code u => rw [hbt] at h; exact h.elim
      | fault f => rw [hbt] at h; exact h.elim
    have hult : u.dp.i.toNat < u.dp.s.toNat := by rw [hsame.1, hsame.2]; exact hlt
    refine ⟨advanceIn u, ?_, ?_, ?_, ?_⟩
    · have hlen' : (ys ++ [b]).length + extra = ys.length + (extra + 1) := by simp; omega
      rw [hlen', ht, inputLoop, if_pos hlt, hem.inAddr, hti,
        engineRead_inside (by rw [hem.memSize]; omega), bind_go, hread ys t hpre' hem _ (by omega), hb, hu, bind_go]
    · exact ⟨(congrArg advanceIn hem'.only).trans rfl, hem'.mem, hem'.o, hem'.carries, hem'.p⟩
    · rw [advanceIn_dp]; exact hsame.2.trans hs
    · rw [advanceIn_i hult, hsame.1, hti]; simp

/-- The whole input loop, when the body goes on at every byte of the input. -/
theorem forInput_emits {body : Byte → State → Flow State} (F : List Byte → List Byte × List Bool × Nat) {s : State}
    (hin : s.inAddr.toNat + s.dp.s.toNat ≤ s.memSize) (hi : s.dp.i = 0) {xs : List Byte}
    (hinput : bytesAt s.mem s.inAddr.toNat s.dp.s.toNat = xs)
    (hstart : F [] = ([], [], 0)) (hcarry : Carries s.dp [])
    (hread : ∀ (ys : List Byte) (t : State), ys <+: xs → Emits s t (F ys).1 (F ys).2.1 (F ys).2.2 → ∀ k < s.dp.s.toNat,
      readByte t.mem (s.inAddr.toNat + k) = readByte s.mem (s.inAddr.toNat + k))
    (hbody : ∀ (ys : List Byte) (b : Byte) (t : State), ys ++ [b] <+: xs → t.dp.s = s.dp.s → t.dp.i.toNat = ys.length →
      Emits s t (F ys).1 (F ys).2.1 (F ys).2.2 →
      Holds (fun u => Emits s u (F (ys ++ [b])).1 (F (ys ++ [b])).2.1 (F (ys ++ [b])).2.2 ∧ SameInput t u)
        (fun _ _ => False) (body b t)) :
    ∃ t, forInput body s = .go t ∧ Emits s t (F xs).1 (F xs).2.1 (F xs).2.2 ∧ t.dp.s = s.dp.s := by
  obtain ⟨t, ht, hem, hs, _⟩ := inputLoop_part (zs := []) F hin hi (by simpa using hinput) hstart hcarry hread hbody 0 xs
    List.prefix_rfl
  have hlen : xs.length = s.dp.s.toNat := by rw [← hinput]; simp
  refine ⟨t, ?_, hem, hs⟩
  rw [forInput, ← hlen]
  simpa [inputLoop] using ht

/-! ### The encode loop -/

theorem whole_snoc {n : Nat} (hn : 0 < n) {k : Nat} (vs : List (BitVec k)) (v : BitVec k) :
    whole n (bitStream (vs ++ [v])) =
      whole n (bitStream vs) ++ whole n (rest n (bitStream vs) ++ bitsOf v) := by
  rw [bitStream_append, bitStream_cons, bitStream_nil, List.append_nil, whole_append hn]

theorem rest_snoc {n : Nat} (hn : 0 < n) {k : Nat} (vs : List (BitVec k)) (v : BitVec k) :
    rest n (bitStream (vs ++ [v])) = rest n (rest n (bitStream vs) ++ bitsOf v) := by
  rw [bitStream_append, bitStream_cons, bitStream_nil, List.append_nil, rest_append hn]

theorem whole_stream_le {n : Nat} {k : Nat} {ys xs : List (BitVec k)} (h : ys <+: xs) :
    (whole n (bitStream ys)).length ≤ (whole n (bitStream xs)).length := by
  rw [whole_length, whole_length, bitStream_length, bitStream_length]
  exact Nat.div_le_div_right (Nat.mul_le_mul_left k h.length_le)

/-- The loop of an encode, from an empty carry: the symbols of the whole groups of the input are written, the rest of
its bits is held, and the weights of the groups are counted. `after` is what follows the groups of a byte. -/
theorem encodeLoop_emits {n : Nat} (hn : 0 < n) (hn8 : n ≤ 8) (rom : BitVec n → Byte) {note : BitVec n → State → State}
    (w : BitVec n → Nat)
    (hnote : ∀ g s, note g s = { s with dp := { s.dp with p := s.dp.p + BitVec.ofNat 32 (w g) } })
    {after : State → State} (hafter : ∀ s, ∃ ph, after s = { s with dp := { s.dp with ph := ph } })
    {body : Byte → State → Flow State}
    (hbody : ∀ b s, body b s = (emitGroups n rom note b s).bind fun s => .go (after s)) {s : State} (hu : Usable s)
    (hs : s.dp.s.toNat ≤ s.inLen.toNat) (hi : s.dp.i = 0) (ho : s.dp.o = 0) (hcarry : Carries s.dp [])
    {xs : List Byte} (hinput : bytesAt s.mem s.inAddr.toNat s.dp.s.toNat = xs)
    (hroom : (whole n (bitStream xs)).length ≤ s.outCap.toNat) :
    ∃ t, forInput body s = .go t ∧
      Emits s t ((whole n (bitStream xs)).map rom) (rest n (bitStream xs)) (((whole n (bitStream xs)).map w).sum) ∧
      t.dp.s = s.dp.s := by
  have ho' : s.dp.o.toNat = 0 := by rw [ho]; rfl
  have hin := hu.1
  refine forInput_emits
    (fun ys => ((whole n (bitStream ys)).map rom, rest n (bitStream ys), ((whole n (bitStream ys)).map w).sum))
    (by omega) hi hinput ?_ hcarry ?_ ?_
  · simp [whole, elements, rest]
  · intro ys t hpre hem k hk
    refine hem.readInput hu ⟨by omega, by omega⟩ ?_
    have := whole_stream_le (n := n) hpre
    simp only [List.length_map]
    omega
  · intro ys b t hpre _ _ hem
    simp only at hem
    have hle := whole_stream_le (n := n) hpre
    have hcr : (rest n (bitStream ys)).length < n := rest_length_lt hn _
    rw [whole_snoc hn, List.length_append] at hle
    have hemo := hem.o
    simp only [List.length_map, ho', Nat.zero_add] at hemo
    have key := emitGroups_emits hn rom w hnote b hem.carries (by omega)
      (by rw [hem.outCap]; omega) (by rw [hem.outAddr, hem.outCap, hem.memSize]; exact hu.2.1)
    rw [hbody]
    refine Holds.bind key fun u hu' => ?_
    obtain ⟨ph, hph⟩ := hafter u
    have htr := hem.trans hu'.1
    rw [holds_go, hph]
    refine ⟨⟨(congrArg (fun u : State => { u with dp := { u.dp with ph := ph } }) htr.only).trans rfl, ?_, ?_, ?_, ?_⟩,
      hu'.2⟩
    · simpa only [whole_snoc hn, List.map_append] using htr.mem
    · simpa only [whole_snoc hn, List.map_append] using htr.o
    · simp only [rest_snoc hn]
      exact htr.carries
    · simpa only [whole_snoc hn, List.map_append, List.sum_append] using htr.p

/-! ### The decode loop -/

/-- The values of the symbols of a string, where all of them have one. -/
theorem filterMap_of_map {n : Nat} {val : Byte → Option (BitVec n)} {xs : List Byte} {vs : List (BitVec n)}
    (h : xs.map val = vs.map some) : xs.filterMap val = vs := by
  have e : xs.filterMap val = (xs.map val).filterMap id := by rw [List.filterMap_map]; rfl
  rw [e, h, List.filterMap_map]
  exact List.filterMap_some

theorem filterMap_prefix {n : Nat} (val : Byte → Option (BitVec n)) {ys xs : List Byte} (h : ys <+: xs) :
    ys.filterMap val <+: xs.filterMap val := by
  obtain ⟨zs, rfl⟩ := h
  rw [List.filterMap_append]
  exact List.prefix_append _ _

/-- The loop of a decode over symbols that all have a value, from an empty carry: the whole bytes of the values' stream
are written and the rest of its bits is held. What follows the symbols is still to come. -/
theorem decodeLoop_part {n : Nat} (hn : n ≤ 8) (val : Byte → Option (BitVec n)) {body : Byte → State → Flow State}
    (hbody : ∀ ch v s, val ch = some v → body ch s = emitUnpacked v s) {s : State} (hu : Usable s)
    (hs : s.dp.s.toNat ≤ s.inLen.toNat) (hi : s.dp.i = 0) (ho : s.dp.o = 0) (hcarry : Carries s.dp [])
    {xs zs : List Byte} (hinput : bytesAt s.mem s.inAddr.toNat s.dp.s.toNat = xs ++ zs) {vs : List (BitVec n)}
    (hvs : xs.map val = vs.map some) (hroom : (whole 8 (bitStream vs)).length ≤ s.outCap.toNat) (extra : Nat) :
    ∃ t, inputLoop body (xs.length + extra) s = inputLoop body extra t ∧
      Emits s t (whole 8 (bitStream vs)) (rest 8 (bitStream vs)) 0 ∧ t.dp.s = s.dp.s ∧ t.dp.i.toNat = xs.length := by
  have ho' : s.dp.o.toNat = 0 := by rw [ho]; rfl
  have hin := hu.1
  have hxs : xs.filterMap val = vs := filterMap_of_map hvs
  have hle : ∀ ys, ys <+: xs → (whole 8 (bitStream (ys.filterMap val))).length ≤ s.outCap.toNat := fun ys h => by
    refine Nat.le_trans (whole_stream_le (filterMap_prefix val h)) ?_
    rw [hxs]
    exact hroom
  have key := inputLoop_part (body := body) (xs := xs) (zs := zs)
    (fun ys => (whole 8 (bitStream (ys.filterMap val)), rest 8 (bitStream (ys.filterMap val)), 0))
    (s := s) (by omega) hi hinput (by simp [whole, elements, rest]) hcarry ?_ ?_ extra xs List.prefix_rfl
  · simpa only [hxs] using key
  · intro ys t hpre hem k hk
    refine hem.readInput hu ⟨by omega, by omega⟩ ?_
    have := hle ys hpre
    simp only
    omega
  · intro ys b t hpre _ _ hem
    simp only at hem
    obtain ⟨v, hv⟩ : ∃ v, val b = some v := by
      have hb : b ∈ xs := hpre.subset (by simp)
      have : val b ∈ vs.map some := by rw [← hvs]; exact List.mem_map_of_mem hb
      obtain ⟨v, _, hv⟩ := List.mem_map.1 this
      exact ⟨v, hv.symm⟩
    have hl := hle _ hpre
    have hfm : (ys ++ [b]).filterMap val = ys.filterMap val ++ [v] := by simp [List.filterMap_append, hv]
    rw [hfm, whole_snoc (by omega), List.length_append] at hl
    have hemo := hem.o
    rw [ho', Nat.zero_add] at hemo
    have key := emitUnpacked_emits hn v hem.carries (rest_length_lt (by omega) _) (by rw [hem.outCap]; omega)
      (by rw [hem.outAddr, hem.outCap, hem.memSize]; exact hu.2.1)
    rw [hbody b v t hv]
    refine Holds.mono key (fun u hu' => ⟨?_, hu'.2⟩) (fun _ _ h => h)
    simp only [hfm, whole_snoc (show 0 < 8 by omega), rest_snoc (show 0 < 8 by omega)]
    exact hem.trans hu'.1

end Sys2Proof.Machine
end

