-- ==== Sys2Proof/Laws/Bodies.lean ====
section
/-! SUPPORT. The bodies of the commands, from a state that has just started: the loop over the window or the string, the
digit loop of DEC8, and the small loops and stages around them. -/

namespace Sys2Proof.Machine

/-! ### After the prologue -/

theorem setLength_started {s : State} (hs : Started s) (n : Nat) :
    (setLength n s).dp = { Datapath.zero with s := BitVec.ofNat 32 n } := by
  rw [setLength_dp, hs.2.2.2.2.2]

/-- The loop of a decode over the symbols `xs` at the start of the string: their whole bytes are written, and the loop
is at what follows them. -/
theorem decodeLoop_started {n : Nat} (hn : n ≤ 8) (val : Byte → Option (BitVec n)) {body : Byte → State → Flow State}
    (hbody : ∀ ch v s, val ch = some v → body ch s = emitUnpacked v s) {s : State} (hs : Started s) (hu : Usable s)
    {xs zs : List Byte} (hx : inputString s = xs ++ zs) {vs : List (BitVec n)} (hvs : xs.map val = vs.map some)
    (hroom : n * vs.length / 8 ≤ s.outCap.toNat) :
    ∃ t, forInput body (setLength (inputString s).length s) = inputLoop body zs.length t ∧
      Emits (setLength (inputString s).length s) t (decodedBytes vs) (rest 8 (bitStream vs)) 0 ∧
      t.dp.s.toNat = xs.length + zs.length ∧ t.dp.i.toNat = xs.length ∧
      t.mem = storeList s.mem s.outAddr.toNat (decodedBytes vs) ∧ t.dp.o.toNat = n * vs.length / 8 := by
  have hdp := setLength_started hs (inputString s).length
  have hsn := setLength_toNat s (inputString_length_lt s)
  have hlen : (inputString s).length = xs.length + zs.length := by rw [hx]; simp
  have hwd : whole 8 (bitStream vs) = decodedBytes vs := by rw [whole, bitStream_length]; rfl
  have ho0 : (setLength (inputString s).length s).dp.o.toNat = 0 := by rw [hdp]; rfl
  obtain ⟨t, h1, h2, h3, h4⟩ := decodeLoop_part hn val hbody (s := setLength (inputString s).length s) hu
    (by rw [hsn]; exact inputString_length_le s) (by rw [hdp]; rfl) (by rw [hdp]; rfl) (by rw [hdp]; exact carries_zero)
    (xs := xs) (zs := zs) (by rw [hsn, ← hx]; exact bytesAt_inputString s) hvs
    (by rw [whole_length, bitStream_length]; exact hroom) zs.length
  rw [hwd] at h2
  have hm := h2.mem
  have ho := h2.o
  rw [ho0, Nat.add_zero] at hm
  rw [ho0, Nat.zero_add] at ho
  refine ⟨t, ?_, h2, by rw [h3, hsn, hlen], h4, hm, by rw [ho]; simp [decodedBytes]⟩
  rw [forInput, hsn, ← h1]
  conv_lhs => arg 2; rw [hlen]

/-- The loop of an encode over the whole input window: the symbols of the whole groups are written, the rest of the bits
is held, and P holds the weights of the groups. -/
theorem encodeLoop_started {n : Nat} (hn : 0 < n) (hn8 : n ≤ 8) (rom : BitVec n → Byte)
    {note : BitVec n → State → State} (w : BitVec n → Nat)
    (hnote : ∀ g s, note g s = { s with dp := { s.dp with p := s.dp.p + BitVec.ofNat 32 (w g) } })
    {after : State → State} (hafter : ∀ s, ∃ ph, after s = { s with dp := { s.dp with ph := ph } })
    {body : Byte → State → Flow State}
    (hbody : ∀ b s, body b s = (emitGroups n rom note b s).bind fun s => .go (after s)) {s : State} (hs : Started s)
    (hu : Usable s) (hroom : 8 * s.inLen.toNat / n ≤ s.outCap.toNat) :
    ∃ t, forInput body (setLength s.inLen.toNat s) = .go t ∧ t = { s with dp := t.dp, mem := t.mem } ∧
      t.mem = storeList s.mem s.outAddr.toNat
        ((elements n (8 * s.inLen.toNat / n) (bitStream (inputBytes s))).map rom) ∧
      t.dp.o.toNat = 8 * s.inLen.toNat / n ∧ Carries t.dp (rest n (bitStream (inputBytes s))) ∧
      t.dp.p = BitVec.ofNat 32 (((elements n (8 * s.inLen.toNat / n) (bitStream (inputBytes s))).map w).sum) ∧
      t.dp.s.toNat = s.inLen.toNat := by
  have hdp := setLength_started hs s.inLen.toNat
  have hsn := setLength_toNat s s.inLen.isLt
  have hxl : (inputBytes s).length = s.inLen.toNat := by simp [inputBytes]
  have hw : whole n (bitStream (inputBytes s)) = elements n (8 * s.inLen.toNat / n) (bitStream (inputBytes s)) := by
    rw [whole, bitStream_length, hxl]
  have ho0 : (setLength s.inLen.toNat s).dp.o.toNat = 0 := by rw [hdp]; rfl
  obtain ⟨t, h1, h2, h3⟩ := encodeLoop_emits hn hn8 rom w hnote hafter hbody (s := setLength s.inLen.toNat s) hu
    (by rw [hsn]; exact Nat.le_refl _) (by rw [hdp]; rfl) (by rw [hdp]; rfl) (by rw [hdp]; exact carries_zero)
    (xs := inputBytes s) (by rw [hsn]; rfl) (by rw [hw]; simpa using hroom)
  rw [hw] at h2
  have hm := h2.mem
  have ho := h2.o
  have hpp := h2.p
  rw [ho0, Nat.add_zero] at hm
  rw [ho0, Nat.zero_add] at ho
  refine ⟨t, h1, h2.only, hm, by simpa using ho, h2.carries, ?_, by rw [h3, hsn]⟩
  rw [hpp, hdp]
  simp [Datapath.zero]

/-! ### One character more -/

/-- The loop ends where its body ends it. -/
theorem inputLoop_stop {body : Byte → State → Flow State} {fuel : Nat} {s t : State} {code : Code}
    (hlt : s.dp.i.toNat < s.dp.s.toNat) (hin : s.inAddr.toNat + s.dp.s.toNat ≤ s.memSize)
    (hb : body (readByte s.mem (s.inAddr.toNat + s.dp.i.toNat)) s = .stop code t) :
    inputLoop body (fuel + 1) s = .stop code t := by
  rw [inputLoop, if_pos hlt, engineRead_inside (by omega), bind_go, hb, bind_stop]

/-- After some output, the string still reads as at the start. -/
theorem Emits.readString {s t : State} {out : List Byte} {r : List Bool} {wt n : Nat} (hu : Usable s)
    (hem : Emits (setLength n s) t out r wt) (ho : (setLength n s).dp.o.toNat + out.length ≤ s.outCap.toNat) (k m : Nat)
    (hk : k + m ≤ (inputString s).length) :
    bytesAt t.mem (s.inAddr.toNat + k) m = ((inputString s).drop k).take m := by
  have hle := inputString_length_le s
  apply List.ext_getElem
  · simp; omega
  · intro j h1 h2
    have hj : j < m := by simpa using h1
    rw [bytesAt_getElem, hem.readInput hu
      ⟨by simp only [setLength_inAddr]; omega, by simp only [setLength_inAddr, setLength_inLen]; omega⟩ ho]
    have : (inputString s)[k + j]'(by omega) = readByte s.mem (s.inAddr.toNat + (k + j)) := by
      have hl : k + j < (bytesAt s.mem s.inAddr.toNat (inputString s).length).length := by simp; omega
      rw [← bytesAt_getElem s.mem s.inAddr.toNat (inputString s).length _ hl]
      simp [bytesAt_inputString]
    simp [this, Nat.add_assoc]

/-! ### Base16 and base32 -/

theorem dec16Symbol_some (ch : Byte) (v : BitVec 4) (s : State) (h : hexVal ch = some v) :
    dec16Symbol ch s = emitUnpacked v s := by
  simp [dec16Symbol, h]

theorem dec32Symbol_some (ch : Byte) (v : BitVec 5) (s : State) (h : b32Val ch = some v) :
    dec32Symbol ch s = emitUnpacked v s := by
  have : ch ≠ padChar := by rintro rfl; revert h; decide +revert
  simp [dec32Symbol, h, this]

/-- The padding check reads the characters left, and each must be `=`. -/
theorem padRun_eq (n k : Nat) (s : State) (hin : s.inAddr.toNat + (k + n) ≤ s.memSize) :
    padRun n k s =
      if bytesAt s.mem (s.inAddr.toNat + k) n = List.replicate n padChar then .stop .ok s else .stop .srcerror s := by
  induction n generalizing k with
  | zero => simp [padRun]
  | succ n ih =>
    rw [padRun, engineRead_inside (by omega), bind_go, bytesAt_succ, List.replicate_succ]
    by_cases h : readByte s.mem (s.inAddr.toNat + k) = padChar
    · rw [if_pos h, ih (k + 1) (by omega)]
      simp [h, Nat.add_assoc]
    · rw [if_neg h, if_neg (by simp [h])]

/-- The padding loop of ENC32 fills up to a multiple of 8. -/
theorem padToEight_room (fuel : Nat) (s : State) (hm : s.outAddr.toNat + s.outCap.toNat ≤ s.memSize)
    (hf : (8 - s.dp.o.toNat % 8) % 8 < fuel)
    (hroom : s.dp.o.toNat + (8 - s.dp.o.toNat % 8) % 8 ≤ s.outCap.toNat) :
    padToEight fuel s = .go (emitted (List.replicate ((8 - s.dp.o.toNat % 8) % 8) padChar) s) := by
  induction fuel generalizing s with
  | zero => omega
  | succ fuel ih =>
    rw [padToEight]
    by_cases h : s.dp.o.toNat % 8 = 0
    · rw [if_pos h, h]; simp
    · have h1 : s.dp.o.toNat + [padChar].length ≤ s.outCap.toNat := by simp; omega
      have ho := emitted_o h1
      simp only [List.length_singleton] at ho
      rw [if_neg h, emitSymbol_room (by omega) hm, bind_go, ih]
      · rw [emitted_append _ _ _ h1, ho]
        congr 2
        rw [show (8 - s.dp.o.toNat % 8) % 8 = (8 - (s.dp.o.toNat + 1) % 8) % 8 + 1 by omega]
        rfl
      · exact hm
      · rw [ho]; omega
      · rw [ho]; show _ ≤ s.outCap.toNat; omega

/-! ### Base8 -/

theorem weight_eq_hamming (g : BitVec 3) : weight g = hamming g := by revert g; decide

/-- The digit loop of DEC8 over digits `ds` at the start of the window: their whole bytes are written, P holds their
weights, the last of them is carried on, and the loop is at what follows. -/
theorem digitLoop_part {s : State} (hu : Usable s) (hs : s.dp.s.toNat ≤ s.inLen.toNat) (hi : s.dp.i = 0)
    (ho : s.dp.o = 0) (hcarry : Carries s.dp []) {xs : List (BitVec 3)} {zs : List Byte}
    (hinput : bytesAt s.mem s.inAddr.toNat s.dp.s.toNat = xs.map (fun d => d.setWidth 8) ++ zs)
    (hroom : 3 * xs.length / 8 ≤ s.outCap.toNat) (last : BitVec 3) :
    ∀ ds, ds <+: xs → ∀ extra, ∃ t,
      digitLoop (ds.length + extra) last s = digitLoop extra (ds.getLastD last) t ∧
      Emits s t (decodedBytes ds) (rest 8 (bitStream ds)) ((ds.map weight).sum) ∧ t.dp.s = s.dp.s ∧
      t.dp.i.toNat = ds.length := by
  have ho' : s.dp.o.toNat = 0 := by rw [ho]; rfl
  have hin := hu.1
  have hdec : ∀ ds : List (BitVec 3), decodedBytes ds = whole 8 (bitStream ds) := fun ds => by
    rw [whole, bitStream_length]; rfl
  have htot : xs.length + zs.length = s.dp.s.toNat := by
    have := congrArg List.length hinput
    simpa using this.symm
  intro ds
  induction ds using List.reverseRecOn with
  | nil =>
    intro _ extra
    exact ⟨s, by simp, ⟨rfl, rfl, rfl, hcarry, by simp⟩, rfl, by simp [hi]⟩
  | append_singleton ds d ih =>
    intro hpre extra
    have hpre' : ds <+: xs := (List.prefix_append ds [d]).trans hpre
    obtain ⟨t, ht, hem, hts, hti⟩ := ih hpre' (extra + 1)
    have hlen : ds.length + 1 ≤ xs.length := by simpa using hpre.length_le
    have hlt : t.dp.i.toNat < t.dp.s.toNat := by rw [hti, hts]; omega
    have hdl : (decodedBytes ds).length ≤ s.outCap.toNat := by
      have : (decodedBytes ds).length = 3 * ds.length / 8 := by simp [decodedBytes]
      omega
    have hb : readByte t.mem (s.inAddr.toNat + ds.length) = d.setWidth 8 := by
      rw [hem.readInput hu ⟨by omega, by omega⟩ (by omega)]
      have hl : ds.length < (bytesAt s.mem s.inAddr.toNat s.dp.s.toNat).length := by simp; omega
      rw [← bytesAt_getElem s.mem s.inAddr.toNat s.dp.s.toNat ds.length hl]
      obtain ⟨ws, hws⟩ := hpre
      simp [hinput, ← hws]
    have h7 : ¬7 < (d.setWidth 8 : Byte).toNat := by
      have := d.isLt
      simp only [BitVec.toNat_setWidth]
      omega
    have hback : (d.setWidth 8 : Byte).setWidth 3 = d := by simp
    have hsnoc := whole_snoc (show 0 < 8 by omega) ds d
    have hfit : (whole 8 (bitStream (ds ++ [d]))).length ≤ s.outCap.toNat := by
      rw [whole_length, bitStream_length]
      simp only [List.length_append, List.length_singleton]
      omega
    rw [hsnoc, List.length_append] at hfit
    have hto := hem.o
    rw [ho', Nat.zero_add, hdec] at hto
    have hc' : Carries (addWeight d t).dp (rest 8 (bitStream ds)) := hem.carries
    have key := emitUnpacked_emits (n := 3) (by omega) d hc' (rest_length_lt (by omega) _)
      (by rw [addWeight_outCap, hem.outCap, addWeight_dp]; simp only; omega)
      (by rw [addWeight_outAddr, addWeight_outCap, addWeight_memSize, hem.outAddr, hem.outCap, hem.memSize]; exact hu.2.1)
    obtain ⟨u, hu', hem', hsame⟩ : ∃ u, emitUnpacked d (addWeight d t) = .go u ∧
        Emits (addWeight d t) u (whole 8 (rest 8 (bitStream ds) ++ bitsOf d)) (rest 8 (rest 8 (bitStream ds) ++ bitsOf d)) 0 ∧
        SameInput (addWeight d t) u := by
      cases hbt : emitUnpacked d (addWeight d t) with
      | go u => rw [hbt] at key; exact ⟨u, rfl, key⟩
      | stop code u => rw [hbt] at key; exact key.elim
      | fault f => rw [hbt] at key; exact key.elim
    have hadd : Emits s (addWeight d t) (decodedBytes ds) (rest 8 (bitStream ds)) ((ds.map weight).sum + weight d) :=
      ⟨(congrArg (addWeight d) hem.only).trans rfl, hem.mem, hem.o, hc', by
        rw [addWeight_dp]; simp only [hem.p, BitVec.ofNat_add, BitVec.add_assoc]⟩
    have htr := hadd.trans hem'
    have hult : u.dp.i.toNat < u.dp.s.toNat := by rw [hsame.1, hsame.2]; exact hlt
    refine ⟨advanceIn u, ?_, ?_, ?_, ?_⟩
    · have hlen' : (ds ++ [d]).length + extra = ds.length + (extra + 1) := by simp; omega
      rw [hlen', ht, digitLoop, if_pos hlt, hem.inAddr, hti,
        engineRead_inside (by rw [hem.memSize]; omega), bind_go, hb, if_neg h7, hback, hu', bind_go]
      simp
    · rw [hdec, hsnoc, ← hdec, rest_snoc (show 0 < 8 by omega), List.map_append, List.sum_append]
      exact ⟨(congrArg advanceIn htr.only).trans rfl, htr.mem, htr.o, htr.carries, by simpa using htr.p⟩
    · rw [advanceIn_dp]; exact hsame.2.trans hts
    · rw [advanceIn_i hult, hsame.1, addWeight_dp]
      simp [hti]

end Sys2Proof.Machine
end

