-- ==== Sys2Proof/Laws/Bounds.lean ====
section
/-! SUPPORT. The bounds of the datapath through a command: the carry canonical and short, the phase a position mod 3, and
I, O and S within buffer memory (10_state.md R38, R39; 40_datapath.md R116). -/

namespace Sys2Proof.Machine

/-- Whatever a piece of pseudocode reaches, going on or ending, satisfies `P`. -/
def Reaches (P : State → Prop) : Flow State → Prop
  | .go t => P t
  | .stop _ t => P t
  | .fault _ => True

theorem Reaches.bind {P P' : State → Prop} {x : Flow State} {k : State → Flow State} (hx : Reaches P x)
    (hsub : ∀ t, P t → P' t) (hk : ∀ t, P t → Reaches P' (k t)) : Reaches P' (x.bind k) := by
  cases x with
  | go t => exact hk t hx
  | stop code t => exact hsub t hx
  | fault f => trivial

theorem Reaches.mono {P P' : State → Prop} {x : Flow State} (hx : Reaches P x) (hsub : ∀ t, P t → P' t) :
    Reaches P' x := by
  cases x with
  | go t => exact hsub t hx
  | stop code t => exact hsub t hx
  | fault f => trivial

/-- The datapath is in order for group width `n`, in a state whose windows are in memory. -/
structure InOrder (n : Nat) (s : State) : Prop where
  /-- 10_state.md R38. -/
  canonical : s.dp.c.toNat < 2 ^ s.dp.cn.toNat
  /-- 10_state.md R39. -/
  count : s.dp.cn.toNat < n
  /-- The phase is a position mod 3. -/
  phase : s.dp.ph.toNat ≤ 2
  /-- I stays within S. -/
  index : s.dp.i.toNat ≤ s.dp.s.toNat
  /-- S stays within memory. -/
  length : s.dp.s.toNat ≤ s.memSize
  /-- O stays within the output window. -/
  output : s.dp.o.toNat ≤ s.outCap.toNat
  /-- The output window is in memory. -/
  capacity : s.outCap.toNat ≤ s.memSize

/-- A canonical carry holds the list of its bits. -/
theorem carries_of_canonical {d : Datapath} (h : d.c.toNat < 2 ^ d.cn.toNat) :
    Carries d (bitsOf (BitVec.ofNat d.cn.toNat d.c.toNat)) := by
  constructor
  · rw [bitsValue_bitsOf, BitVec.toNat_ofNat, Nat.mod_eq_of_lt h]
  · simp

/-- A datapath that differs only in its carry, which is still canonical and short. -/
theorem InOrder.carry {n : Nat} {s : State} (h : InOrder n s) {d : Datapath} (hd : d = { s.dp with c := d.c, cn := d.cn })
    {r : List Bool} (hc : Carries d r) (hr : r.length < n) : InOrder n (withDatapath d s) where
  canonical := hc.canonical
  count := by rw [withDatapath_dp, hc.2]; exact hr
  phase := by rw [withDatapath_dp, hd]; exact h.phase
  index := by rw [withDatapath_dp, hd]; exact h.index
  length := by rw [withDatapath_dp, hd]; exact h.length
  output := by rw [withDatapath_dp, hd]; exact h.output
  capacity := h.capacity

/-- The three ways in which a byte of output goes. -/
theorem writeOut_cases (v : Byte) (s : State) :
    writeOut v s = .stop .overflow s ∨ (s.dp.o.toNat < s.outCap.toNat ∧
      ((∃ a, writeOut v s = .go (storeByte a v s)) ∨ ∃ f, writeOut v s = .fault f)) := by
  by_cases ho : s.outCap.toNat ≤ s.dp.o.toNat
  · exact .inl (writeOut_full ho)
  · refine .inr ⟨by omega, ?_⟩
    unfold writeOut engineWrite
    rw [if_neg ho]
    split
    · exact .inl ⟨_, rfl⟩
    · exact .inr ⟨_, rfl⟩

/-- Storing a byte changes no register. -/
theorem InOrder.store {n : Nat} {s : State} (h : InOrder n s) (a : Nat) (v : Byte) : InOrder n (storeByte a v s) :=
  ⟨h.canonical, h.count, h.phase, h.index, h.length, h.output, h.capacity⟩

theorem emitTerminator_inOrder {n : Nat} {s : State} (h : InOrder n s) : Reaches (InOrder n) (emitTerminator s) := by
  unfold emitTerminator
  rcases writeOut_cases 0x00 s with e | ⟨_, ⟨a, e⟩ | ⟨f, e⟩⟩ <;> rw [e]
  · exact h
  · exact h.store a _
  · trivial

theorem emitSymbol_inOrder {n : Nat} (ch : Byte) {s : State} (h : InOrder n s) :
    Reaches (fun t => InOrder n t ∧ SameInput s t) (emitSymbol ch s) := by
  unfold emitSymbol
  rcases writeOut_cases ch s with e | ⟨ho, ⟨a, e⟩ | ⟨f, e⟩⟩ <;> rw [e]
  · exact ⟨h, rfl, rfl⟩
  · refine ⟨⟨h.canonical, h.count, h.phase, h.index, h.length, ?_, h.capacity⟩, rfl, rfl⟩
    have := s.outCap.isLt
    simp
    omega
  · trivial

theorem forEach_inOrder {α : Type} {n : Nat} {body : α → State → Flow State}
    (hbody : ∀ x s, InOrder n s → Reaches (fun t => InOrder n t ∧ SameInput s t) (body x s)) (xs : List α) {s : State}
    (h : InOrder n s) : Reaches (fun t => InOrder n t ∧ SameInput s t) (forEach body xs s) := by
  induction xs generalizing s with
  | nil => exact ⟨h, rfl, rfl⟩
  | cons x xs ih =>
    refine Reaches.bind (hbody x s h) (fun _ ht => ht) fun t ht => (ih ht.1).mono fun u hu => ?_
    exact ⟨hu.1, hu.2.1.trans ht.2.1, hu.2.2.trans ht.2.2⟩

theorem emitGroups_inOrder {n : Nat} (hn : 0 < n) (hn8 : n ≤ 8) (rom : BitVec n → Byte)
    {note : BitVec n → State → State} (hnote : ∀ g s, InOrder n s → InOrder n (note g s) ∧ SameInput s (note g s))
    (b : Byte) {s : State} (h : InOrder n s) :
    Reaches (fun t => InOrder n t ∧ SameInput s t) (emitGroups n rom note b s) := by
  have hlen : (bitsOf (BitVec.ofNat s.dp.cn.toNat s.dp.c.toNat)).length ≤ 8 := by
    have := h.count
    simp
    omega
  obtain ⟨_, h2, h3⟩ := packByte_spec hn b (carries_of_canonical h.canonical) hlen
  have hs : SameInput s (withDatapath (packByte n b s.dp).2 s) := by
    constructor <;> rw [withDatapath_dp, packByte_input]
  refine (forEach_inOrder (n := n) (fun g u hu => ?_) _ (h.carry h3 h2 (rest_length_lt hn _))).mono fun t ht =>
    ⟨ht.1, ht.2.1.trans hs.1, ht.2.2.trans hs.2⟩
  have hg := hnote g u hu
  exact (emitSymbol_inOrder (rom g) hg.1).mono fun t ht => ⟨ht.1, ht.2.1.trans hg.2.1, ht.2.2.trans hg.2.2⟩

theorem emitUnpacked_inOrder {n : Nat} (hn : n ≤ 8) (v : BitVec n) {s : State} (h : InOrder 8 s) :
    Reaches (fun t => InOrder 8 t ∧ SameInput s t) (emitUnpacked v s) := by
  have hlen : (bitsOf (BitVec.ofNat s.dp.cn.toNat s.dp.c.toNat)).length < 8 := by
    have := h.count
    simpa using this
  obtain ⟨_, h2, h3⟩ := unpackSymbol_spec hn v (carries_of_canonical h.canonical) hlen
  have hs : SameInput s (withDatapath (unpackSymbol v s.dp).2 s) := by
    constructor <;> rw [withDatapath_dp, unpackSymbol_input]
  exact (forEach_inOrder (n := 8) (fun b u hu => emitSymbol_inOrder b hu) _
    (h.carry h3 h2 (rest_length_lt (by omega) _))).mono fun t ht => ⟨ht.1, ht.2.1.trans hs.1, ht.2.2.trans hs.2⟩

/-! ### The loops -/

theorem InOrder.advanceIn {n : Nat} {s : State} (h : InOrder n s) (hlt : s.dp.i.toNat < s.dp.s.toNat) :
    InOrder n (Machine.advanceIn s) where
  canonical := h.canonical
  count := h.count
  phase := h.phase
  index := by rw [advanceIn_i hlt]; exact hlt
  length := h.length
  output := h.output
  capacity := h.capacity

theorem inputLoop_inOrder {n : Nat} {body : Byte → State → Flow State}
    (hbody : ∀ b s, InOrder n s → Reaches (fun t => InOrder n t ∧ SameInput s t) (body b s)) (fuel : Nat) {s : State}
    (h : InOrder n s) : Reaches (InOrder n) (inputLoop body fuel s) := by
  induction fuel generalizing s with
  | zero => exact h
  | succ fuel ih =>
    rw [inputLoop]
    split
    · next hlt =>
      unfold engineRead
      split
      · rw [bind_go]
        refine Reaches.bind (hbody _ s h) (fun t ht => ht.1) fun t ht => ih (ht.1.advanceIn ?_)
        rw [ht.2.1, ht.2.2]
        exact hlt
      · trivial
    · exact h

theorem forInput_inOrder {n : Nat} {body : Byte → State → Flow State}
    (hbody : ∀ b s, InOrder n s → Reaches (fun t => InOrder n t ∧ SameInput s t) (body b s)) {s : State}
    (h : InOrder n s) : Reaches (InOrder n) (forInput body s) :=
  inputLoop_inOrder hbody _ h

theorem addWeight_inOrder {n : Nat} (g : BitVec 3) (s : State) (h : InOrder n s) :
    InOrder n (addWeight g s) ∧ SameInput s (addWeight g s) :=
  ⟨⟨h.canonical, h.count, h.phase, h.index, h.length, h.output, h.capacity⟩, rfl, rfl⟩

theorem digitLoop_inOrder (fuel : Nat) (last : BitVec 3) {s : State} (h : InOrder 8 s) :
    Reaches (InOrder 8) ((digitLoop fuel last s).bind fun r => .go r.2) := by
  induction fuel generalizing last s with
  | zero => exact h
  | succ fuel ih =>
    rw [digitLoop]
    by_cases hlt : s.dp.i.toNat < s.dp.s.toNat
    · rw [if_pos hlt]
      unfold engineRead
      by_cases hin : s.inAddr.toNat + s.dp.i.toNat < s.memSize
      · rw [if_pos hin, bind_go]
        generalize readByte s.mem (s.inAddr.toNat + s.dp.i.toNat) = b
        by_cases h7 : 7 < b.toNat
        · rw [if_pos h7]; exact h
        · rw [if_neg h7, bind_assoc]
          have hw := addWeight_inOrder (b.setWidth 3) s h
          refine Reaches.bind (emitUnpacked_inOrder (n := 3) (by omega) (b.setWidth 3) hw.1) (fun _ ht => ht.1)
            fun t ht => ih _ (ht.1.advanceIn ?_)
          rw [ht.2.1, ht.2.2, hw.2.1, hw.2.2]
          exact hlt
      · rw [if_neg hin]; trivial
    · rw [if_neg hlt]; exact h

/-! ### The bodies -/

/-- The bounds that hold of the datapath between commands. -/
structure Bounded (s : State) : Prop where
  /-- 10_state.md R38. -/
  canonical : s.dp.c.toNat < 2 ^ s.dp.cn.toNat
  /-- 10_state.md R39. -/
  count : s.dp.cn.toNat ≤ 7
  /-- The phase is a position mod 3. -/
  phase : s.dp.ph.toNat ≤ 2
  /-- 40_datapath.md R116. -/
  index : s.dp.i.toNat ≤ s.memSize
  /-- 40_datapath.md R116. -/
  output : s.dp.o.toNat ≤ s.memSize
  /-- 40_datapath.md R116. -/
  length : s.dp.s.toNat ≤ s.memSize

theorem InOrder.bounded {n : Nat} (hn : n ≤ 8) {s : State} (h : InOrder n s) : Bounded s where
  canonical := h.canonical
  count := by have := h.count; omega
  phase := h.phase
  index := Nat.le_trans h.index h.length
  output := Nat.le_trans h.output h.capacity
  length := h.length

theorem bounded_of_zero {s : State} (h : s.dp = Datapath.zero) : Bounded s := by
  constructor <;> rw [h] <;> exact by simp [Datapath.zero]

theorem setLength_inOrder {n : Nat} (hn : 0 < n) (kind : InputKind) {s : State} (hs : Started s) (hu : Usable s) :
    InOrder n (setLength (kindSize kind s) s) := by
  have hdp := setLength_started hs (kindSize kind s)
  have hk := kindSize_le kind s
  obtain ⟨h1, h2, _⟩ := hu
  refine ⟨?_, ?_, ?_, ?_, ?_, ?_, ?_⟩
  · rw [hdp]; simp [Datapath.zero]
  · rw [hdp]; exact hn
  · rw [hdp]; exact Nat.zero_le 2
  · rw [hdp]; exact Nat.zero_le _
  · rw [setLength_kind]; show _ ≤ s.memSize; omega
  · rw [hdp]; exact Nat.zero_le _
  · show s.outCap.toNat ≤ s.memSize; omega

/-- A body is bounded if what follows its prologue is. -/
theorem prologue_bounded {n : Nat} (hn : 0 < n) (hn8 : n ≤ 8) (kind : InputKind) (req : Nat → Nat)
    {k : State → Flow State} {s : State} (hs : Started s) (hk : ∀ t, InOrder n t → Reaches Bounded (k t)) :
    Reaches Bounded ((prologue kind req s).bind k) := by
  rw [prologue_eq]
  split
  · exact bounded_of_zero hs.2.2.2.2.2
  · next hu =>
    have h := setLength_inOrder hn kind hs (not_not.1 hu)
    split
    · next hz => rw [hz] at h; exact h.bounded hn8
    · split
      · exact h.bounded hn8
      · exact hk _ h

theorem reserved_bounded {s : State} (hs : Started s) : Reaches Bounded (reservedBody s) :=
  bounded_of_zero hs.2.2.2.2.2

theorem enc16_bounded {s : State} (hs : Started s) : Reaches Bounded (enc16Body s) :=
  prologue_bounded (n := 4) (by omega) (by omega) _ _ hs fun _ ht =>
    (forInput_inOrder (fun b _ hu =>
        emitGroups_inOrder (by omega) (by omega) hexSym (fun _ _ h => ⟨h, rfl, rfl⟩) b hu) ht).bind
      (fun _ hu => hu.bounded (by omega)) fun _ hu =>
        (emitTerminator_inOrder hu).mono fun _ hv => hv.bounded (by omega)

theorem dec16_bounded {s : State} (hs : Started s) : Reaches Bounded (dec16Body s) :=
  prologue_bounded (n := 8) (by omega) (by omega) _ _ hs fun t ht => by
    unfold rejectOdd
    split
    · exact ht.bounded (by omega)
    · refine Reaches.mono (forInput_inOrder (n := 8) (fun b u hu => ?_) ht) fun _ hu => hu.bounded (by omega)
      unfold dec16Symbol
      split
      · exact ⟨hu, rfl, rfl⟩
      · exact emitUnpacked_inOrder (by omega) _ hu

theorem padToEight_inOrder {n : Nat} (fuel : Nat) {s : State} (h : InOrder n s) :
    Reaches (InOrder n) (padToEight fuel s) := by
  induction fuel generalizing s with
  | zero => exact h
  | succ fuel ih =>
    rw [padToEight]
    split
    · exact h
    · exact (emitSymbol_inOrder padChar h).bind (fun _ ht => ht.1) fun _ ht => ih ht.1

theorem enc32Flush_inOrder {s : State} (h : InOrder 5 s) : Reaches (InOrder 5) (enc32Flush s) := by
  have hlen : (bitsOf (BitVec.ofNat s.dp.cn.toNat s.dp.c.toNat)).length < 5 := by
    have := h.count
    simpa using this
  obtain ⟨_, h2, h3⟩ := flushGroup_spec (n := 5) (by omega) (carries_of_canonical h.canonical) hlen
  have hd := h.carry h3 h2 (by simp)
  unfold enc32Flush
  simp only
  split
  · exact hd
  · exact (emitSymbol_inOrder _ hd).mono fun _ ht => ht.1

theorem enc32_bounded {s : State} (hs : Started s) : Reaches Bounded (enc32Body s) :=
  prologue_bounded (n := 5) (by omega) (by omega) _ _ hs fun _ ht =>
    (forInput_inOrder (fun b _ hu =>
        emitGroups_inOrder (by omega) (by omega) b32Sym (fun _ _ h => ⟨h, rfl, rfl⟩) b hu) ht).bind
      (fun _ hu => hu.bounded (by omega)) fun _ hu =>
        (enc32Flush_inOrder hu).bind (fun _ hv => hv.bounded (by omega)) fun _ hv =>
          (padToEight_inOrder 8 hv).bind (fun _ hw => hw.bounded (by omega)) fun _ hw =>
            (emitTerminator_inOrder hw).mono fun _ hx => hx.bounded (by omega)

theorem padRun_reaches {P : State → Prop} (n k : Nat) {s : State} (h : P s) : Reaches P (padRun n k s) := by
  induction n generalizing k with
  | zero => exact h
  | succ n ih =>
    rw [padRun]
    unfold engineRead
    split
    · rw [bind_go]
      split
      · exact ih (k + 1)
      · exact h
    · trivial

theorem dec32_bounded {s : State} (hs : Started s) : Reaches Bounded (dec32Body s) := by
  rw [dec32Body, prologueUnbounded_eq]
  split
  · exact bounded_of_zero hs.2.2.2.2.2
  · next hu =>
    have h := setLength_inOrder (n := 8) (by omega) .string hs (not_not.1 hu)
    split
    · next hz => rw [hz] at h; exact h.bounded (by omega)
    · refine Reaches.mono (forInput_inOrder (n := 8) (fun ch u hu => ?_) h) fun _ hu => hu.bounded (by omega)
      unfold dec32Symbol
      split
      · unfold dec32Padding
        simp only
        split
        · exact padRun_reaches (P := fun t => InOrder 8 t ∧ SameInput u t) _ _ ⟨hu, rfl, rfl⟩
        · exact ⟨hu, rfl, rfl⟩
      · split
        · exact ⟨hu, rfl, rfl⟩
        · exact emitUnpacked_inOrder (by omega) _ hu

theorem enc8Byte_inOrder (b : Byte) {s : State} (h : InOrder 3 s) :
    Reaches (fun t => InOrder 3 t ∧ SameInput s t) (enc8Byte b s) := by
  refine Reaches.bind (emitGroups_inOrder (n := 3) (by omega) (by omega) b8Sym addWeight_inOrder b h)
    (fun _ ht => ht) fun t ht => ⟨⟨ht.1.canonical, ht.1.count, ?_, ht.1.index, ht.1.length, ht.1.output, ht.1.capacity⟩,
      ht.2⟩
  rw [advancePhase_dp]
  simp only [BitVec.toNat_ofNat]
  omega

theorem enc8Check_inOrder {s : State} (h : InOrder 3 s) : Reaches (InOrder 3) (enc8Check s) := by
  unfold enc8Check
  simp only
  split
  · exact h
  · refine Reaches.bind (emitSymbol_inOrder _ h) (fun _ ht => ht.1) fun t ht => ?_
    exact ht.1.carry (d := { t.dp with c := 0, cn := 0 }) rfl (r := []) ⟨rfl, rfl⟩ (by simp)

theorem enc8_bounded {s : State} (hs : Started s) : Reaches Bounded (enc8Body s) :=
  prologue_bounded (n := 3) (by omega) (by omega) _ _ hs fun _ ht =>
    (forInput_inOrder (fun b _ hu => enc8Byte_inOrder b hu) ht).bind (fun _ hu => hu.bounded (by omega)) fun _ hu =>
      (enc8Check_inOrder hu).bind (fun _ hv => hv.bounded (by omega)) fun _ hv =>
        (emitTerminator_inOrder hv).mono fun _ hw => hw.bounded (by omega)

theorem dec8_bounded {s : State} (hs : Started s) : Reaches Bounded (dec8Body s) :=
  prologue_bounded (n := 8) (by omega) (by omega) _ _ hs fun t ht => by
    unfold rejectMisaligned
    simp only
    split
    · rw [bind_go]
      have key := digitLoop_inOrder t.dp.s.toNat 0 ht
      revert key
      cases digitLoop t.dp.s.toNat 0 t with
      | go r =>
        intro key
        rw [bind_go]
        unfold dec8Check
        simp only
        split
        · exact InOrder.bounded (by omega) key
        · split <;> exact InOrder.bounded (by omega) key
      | stop code u => exact fun key => InOrder.bounded (by omega) key
      | fault f => exact fun _ => trivial
    · exact ht.bounded (by omega)

theorem s2n8_bounded {s : State} (hs : Started s) : Reaches Bounded (s2n8Body s) :=
  prologue_bounded (n := 8) (by omega) (by omega) _ _ hs fun t ht => by
    refine Reaches.mono (forInput_inOrder (n := 8) (fun b u hu => ?_) ht) fun _ hu => hu.bounded (by omega)
    unfold s2n8Symbol
    split
    · exact ⟨hu, rfl, rfl⟩
    · exact emitSymbol_inOrder _ hu

/-- Every command that has just started ends with its datapath within its bounds. -/
theorem bodyOf_bounded (i : Instr) {s : State} (hs : Started s) : Reaches Bounded (bodyOf i s) := by
  cases i
  · exact reserved_bounded hs
  · exact enc16_bounded hs
  · exact dec16_bounded hs
  · exact enc32_bounded hs
  · exact dec32_bounded hs
  · exact enc8_bounded hs
  · exact dec8_bounded hs
  · exact s2n8_bounded hs
  · exact reserved_bounded hs

end Sys2Proof.Machine
end

