-- ==== Sys2Proof/Laws/PerInstr.lean ====
section
/-! SUPPORT. Statements about every instruction as syntax, one lemma per constructor. -/

namespace Sys2Proof.Laws

/-- The word that the encoder gives a well-formed command matches a row of the opcode table, that row gives the command
back from the word's OP, and no bit above OP is set (30_encoding.md R80, R82). -/
def EncodesInARow.Statement (i : Instr) : Prop :=
  wellFormed i = true →
    ∃ r ∈ opcodeTable, encode i &&& r.mask = r.pattern ∧ r.toInstr (opField (encode i)) = i ∧ (encode i).toNat < 16

theorem EncodesInARow.rsvd0 : EncodesInARow.Statement .rsvd0 := by unfold EncodesInARow.Statement; decide

theorem EncodesInARow.enc16 : EncodesInARow.Statement .enc16 := by unfold EncodesInARow.Statement; decide

theorem EncodesInARow.dec16 : EncodesInARow.Statement .dec16 := by unfold EncodesInARow.Statement; decide

theorem EncodesInARow.enc32 : EncodesInARow.Statement .enc32 := by unfold EncodesInARow.Statement; decide

theorem EncodesInARow.dec32 : EncodesInARow.Statement .dec32 := by unfold EncodesInARow.Statement; decide

theorem EncodesInARow.enc8 : EncodesInARow.Statement .enc8 := by unfold EncodesInARow.Statement; decide

theorem EncodesInARow.dec8 : EncodesInARow.Statement .dec8 := by unfold EncodesInARow.Statement; decide

theorem EncodesInARow.s2n8 : EncodesInARow.Statement .s2n8 := by unfold EncodesInARow.Statement; decide

theorem EncodesInARow.rsvd8 (op : BitVec 4) : EncodesInARow.Statement (.rsvd8 op) := by
  revert op
  unfold EncodesInARow.Statement
  decide

end Sys2Proof.Laws
end

