-- ==== Sys2Proof/Laws/Step.lean ====
section
/-! SUPPORT. What one step can do, said once: whose turn it is, what a turn of the host leaves, and what the engine's turn
leaves. -/

namespace Sys2Proof.Machine

/-- A register access reaches a register only at width 32 and at the register's own offset. -/
theorem regReached_eq_some {width : BusWidth} {offset : BitVec 6} {r : Reg} (h : regReached width offset = some r) :
    width = .b32 ∧ offset = regOffset r := by
  have key : ∀ offset : BitVec 6, ∀ r, regAt offset = some r → offset = regOffset r := by decide +revert
  cases width with
  | b32 => exact ⟨rfl, key offset r h⟩
  | b8 => cases h
  | b16 => cases h
  | b64 => cases h

/-- A register write does one of six things. -/
theorem writeReg_cases (r : Reg) (v : Word) (s : State) :
    writeReg r v s = s ∨
    (r = .cmd ∧ s.busy = false ∧ writeReg r v s = startCommand v s) ∨
    (r = .status ∧ v.getLsbD 1 = true ∧ writeReg r v s = acknowledge s) ∨
    (r = .irqEn ∧ writeReg r v s = { s with doneIe := v.getLsbD 0 }) ∨
    (s.busy = false ∧ ∃ ia il oa oc, writeReg r v s = { s with inAddr := ia, inLen := il, outAddr := oa, outCap := oc }) := by
  cases r <;> simp only [writeReg] <;> (try split) <;> simp_all

/-- Which accesses through the buffer port are violations. -/
theorem portViolation_iff (a : Nat) (s : State) : portViolation a s = true ↔ s.busy = true ∧ a < s.memSize := by
  simp [portViolation]

/-- Above buffer memory the port reads 0, whether or not a command runs. -/
theorem portRead_outside {a : Nat} {s : State} (h : s.memSize ≤ a) : portRead a s = 0x00 := by
  simp [portRead, Nat.not_lt.2 h]

/-- Above buffer memory the port ignores writes, whether or not a command runs. -/
theorem portWrite_outside {a : Nat} (v : Byte) {s : State} (h : s.memSize ≤ a) : portWrite a v s = s := by
  simp [portWrite, Nat.not_lt.2 h]

/-- A turn of the host, when the machine goes on: a register write, a read or a WAIT (which change only the read value
and the queue), a write to buffer memory while idle, a write above buffer memory (which changes nothing), or a reset. -/
theorem hostTurn_next {op : HostOp} {s t : State} (h : hostTurn op s = .next t) :
    (∃ width offset v, op = .regWrite width offset v ∧ t = busWrite width offset v s) ∨
    (∃ v bus, t = { s with rdata := v, bus := bus }) ∨
    (∃ a v, op = .memWrite a v ∧ t = portWrite a v s ∧ (s.busy = false ∨ s.memSize ≤ a ∧ t = s)) ∨
    (op = .reset ∧ t = assertReset s) := by
  cases op with
  | regWrite width offset v => cases h; exact .inl ⟨width, offset, v, rfl, rfl⟩
  | regRead width offset => cases h; exact .inr (.inl ⟨_, _, rfl⟩)
  | memWrite a v =>
    simp only [hostTurn] at h
    split at h
    · cases h
    · cases h
      rename_i hv
      rw [portViolation_iff] at hv
      refine .inr (.inr (.inl ⟨a, v, rfl, rfl, ?_⟩))
      by_cases ha : a < s.memSize
      · exact .inl (by simpa [ha] using hv)
      · exact .inr ⟨by omega, portWrite_outside v (by omega)⟩
  | memRead a =>
    simp only [hostTurn] at h
    split at h
    · cases h
    · cases h; exact .inr (.inl ⟨_, _, rfl⟩)
  | waitDone =>
    simp only [hostTurn] at h
    split at h <;> cases h <;> exact .inr (.inl ⟨_, _, rfl⟩)
  | waitIrq =>
    simp only [hostTurn] at h
    split at h <;> cases h <;> exact .inr (.inl ⟨_, _, rfl⟩)
  | reset => cases h; exact .inr (.inr (.inr ⟨rfl, rfl⟩))

/-- A turn of the host stops the machine only at an access to the buffer memory of a busy core. -/
theorem hostTurn_fault {op : HostOp} {s : State} {f : Fault} (h : hostTurn op s = .fault f) :
    f = .hostMemoryWhileBusy ∧ s.busy = true ∧ ∃ a, a < s.memSize ∧ (op = .memRead a ∨ ∃ v, op = .memWrite a v) := by
  cases op <;> simp only [hostTurn] at h <;> (try split at h) <;> simp_all [portViolation_iff]

/-- No turn of the host is refused. -/
theorem hostTurn_refused {op : HostOp} {s : State} {r : Refusal} : hostTurn op s ≠ .refused r := by
  cases op <;> simp only [hostTurn] <;> (try split) <;> simp

/-- The engine's turn: a running engine completes its command, an idle one does nothing. -/
theorem engineTurn_next (s : State) :
    (s.estate = .run ∧ ∃ code u, Ran s u ∧ engineTurn s = .next (complete (freeOf (fetch s) code) code u)) ∨
    (s.estate = .idle ∧ engineTurn s = .next s) := by
  cases he : s.estate with
  | idle => exact .inr ⟨rfl, by simp [engineTurn, running, he]⟩
  | run =>
    obtain ⟨code, u, h, hr, _⟩ := exec_cases (fetch s) s
    exact .inl ⟨rfl, code, u, hr, by simpa [engineTurn, running, he] using h⟩

/-- Whose turn a step is. -/
theorem step_cases (s : State) :
    (s.bus = [] ∧ step s = engineTurn s) ∨
    (∃ rest, s.bus = none :: rest ∧ step s = engineTurn { s with bus := rest }) ∨
    (∃ op rest, s.bus = some op :: rest ∧ step s = hostTurn op { s with bus := rest }) := by
  unfold step
  rcases s.bus with _ | ⟨_ | op, rest⟩
  · exact .inl ⟨rfl, rfl⟩
  · exact .inr (.inl ⟨rest, rfl, rfl⟩)
  · exact .inr (.inr ⟨op, rest, rfl, rfl⟩)

end Sys2Proof.Machine
end

