-- ==== Sys2Proof/Machine/HostProgram.lean ====
section
/-! DEFINITION. The host-program syntax (30_encoding.md R90, R91): each line as the turns of the host that it expands
to. -/

namespace Sys2Proof.Machine

/-- `WR <reg>, <v32>` (30_encoding.md R90). -/
def hostWr (r : Reg) (v : Word) : List (Option HostOp) := [some (.regWrite .b32 (regOffset r) v)]

/-- `RD <reg>` (R90). -/
def hostRd (r : Reg) : List (Option HostOp) := [some (.regRead .b32 (regOffset r))]

/-- `SB <addr>, <v8>` (R90). -/
def hostSb (a : Nat) (v : Byte) : List (Option HostOp) := [some (.memWrite a v)]

/-- `LB <addr>` (R90). -/
def hostLb (a : Nat) : List (Option HostOp) := [some (.memRead a)]

/-- `WAIT`, by polling (30_encoding.md R91). -/
def hostWait : List (Option HostOp) := [some .waitDone]

/-- `WAIT`, under interrupts (R91). -/
def hostWaitIrq : List (Option HostOp) := [some .waitIrq]

/-- `ACK` (R91). -/
def hostAck : List (Option HostOp) := hostWr .status 0x00000002

/-- `SETUP in, ilen, out, cap` (R91). -/
def hostSetup (inp ilen out cap : Word) : List (Option HostOp) :=
  hostWr .inAddr inp ++ hostWr .inLen ilen ++ hostWr .outAddr out ++ hostWr .outCap cap

/-- `<CMDNAME> out, cap, in, ilen` up to its WAIT: `SETUP` and `WR CMD` (R91). -/
def hostCallStart (i : Instr) (out cap inp ilen : Word) : List (Option HostOp) :=
  hostSetup inp ilen out cap ++ hostWr .cmd (encode i)

/-- `<CMDNAME> out, cap, in, ilen`, its WAIT by polling (R91). -/
def hostCall (i : Instr) (out cap inp ilen : Word) : List (Option HostOp) :=
  hostCallStart i out cap inp ilen ++ hostWait

/-- `<CMDNAME> out, cap, in, ilen`, its WAIT under interrupts (R91). -/
def hostCallIrq (i : Instr) (out cap inp ilen : Word) : List (Option HostOp) :=
  hostCallStart i out cap inp ilen ++ hostWaitIrq

/-- `BYTES <addr>, b0, b1, ...` (R91). -/
def hostBytes (a : Nat) : List Byte → List (Option HostOp)
  | [] => []
  | b :: bs => hostSb a b ++ hostBytes (a + 1) bs

/-- `STR <addr>, "<text>"`, given the text's character codes (R91). -/
def hostStr (a : Nat) (text : List Byte) : List (Option HostOp) := hostBytes a (text ++ [0x00])

end Sys2Proof.Machine
end

