-- ==== Sys2Proof/Tests/Slice0.lean ====
section
/-! SUPPORT. The model's own tests: words written out from the opcode table, one step on a small state with results from
95_test_vectors.md, and for each statement with hypotheses a witness that meets them. -/

namespace Sys2Proof.Tests

open Sys2Proof.Machine

/-! ### Helpers -/

/-- Bytes at consecutive addresses. -/
def place : Nat → List Byte → Memory
  | _, [] => []
  | a, b :: bs => (a, b) :: place (a + 1) bs

/-- A core of 256 bytes that is idle, with its windows set, `bytes` at 0x00, and the host's turns `bus`. -/
def idle (inAddr inLen outAddr outCap : Word) (bytes : List Byte) (bus : List (Option HostOp)) : State :=
  { State.resetWith 256 with
    inAddr := inAddr, inLen := inLen, outAddr := outAddr, outCap := outCap, mem := place 0 bytes, bus := bus }

/-- The same core after a command `w` has started. -/
def ready (w inAddr inLen outAddr outCap : Word) (bytes : List Byte) : State :=
  presentCommand w (idle inAddr inLen outAddr outCap bytes [])

/-- The conventions of 95_test_vectors.md: input at 0x00, output at 0x80. -/
def vector (w : Word) (bytes : List Byte) (outCap : Word) : State :=
  ready w 0x00 (BitVec.ofNat 32 bytes.length) 0x80 outCap bytes

/-- The state after a step; the state itself where the machine stops. -/
def next (s : State) : State :=
  match step s with
  | .next t => t
  | .fault _ => s
  | .refused _ => s

/-- What an OK step leaves for the host: RESULT, OUT_LEN, and the first `n` bytes of the output window. -/
def left (s : State) (n : Nat) : BitVec 3 × Nat × List Byte :=
  ((next s).result, (next s).outLen.toNat, bytesAt (next s).mem s.outAddr.toNat n)

/-! ### Well-formedness: the one check -/

/-- An OP below 8 is not an RSVD8 (opcode_table.json, match 0x8, mask 0x8). -/
theorem test_wellFormed_refuses_rsvd8_below_8 : wellFormed (.rsvd8 0x7) = false ∧ wellFormed (.rsvd8 0x8) = true := by
  decide

/-! ### Decoding: words written out bit by bit (30_encoding.md R80, R82) -/

/-- Base16: 0001 and 0010. -/
theorem test_decode_base16 :
    decode 0b00000000000000000000000000000001 = .enc16 ∧ decode 0b00000000000000000000000000000010 = .dec16 := by decide

/-- Base32: 0011 and 0100. -/
theorem test_decode_base32 :
    decode 0b00000000000000000000000000000011 = .enc32 ∧ decode 0b00000000000000000000000000000100 = .dec32 := by decide

/-- Base8: 0101, 0110 and 0111. -/
theorem test_decode_base8 :
    decode 0b00000000000000000000000000000101 = .enc8 ∧ decode 0b00000000000000000000000000000110 = .dec8 ∧
      decode 0b00000000000000000000000000000111 = .s2n8 := by decide

/-- Reserved: 0000, and 1000 to 1111. -/
theorem test_decode_reserved :
    decode 0b00000000000000000000000000000000 = .rsvd0 ∧ decode 0b00000000000000000000000000001000 = .rsvd8 0b1000 ∧
      decode 0b00000000000000000000000000001111 = .rsvd8 0b1111 := by decide

/-- V22: bits 31:4 are ignored. -/
theorem test_decode_ignores_upper_bits : decode 0x00000015 = .enc8 ∧ decode 0xFFFFFFF0 = .rsvd0 := by decide

/-! ### The commands: results of 95_test_vectors.md -/

/-- V1. -/
theorem test_enc16_hello :
    left (vector 0x1 [0x48, 0x65, 0x6C, 0x6C, 0x6F] 64) 11 =
      (0, 10, [0x34, 0x38, 0x36, 0x35, 0x36, 0x43, 0x36, 0x43, 0x36, 0x46, 0x00]) := by decide

/-- V8: one byte needs a capacity of 3. -/
theorem test_enc16_overflow_boundary :
    (next (vector 0x1 [0x3F] 2)).result = 2 ∧
      (next (vector 0x1 [0x3F] 3)).result = 0 := by decide

/-- V1, the inverse; a NUL ends the string. -/
theorem test_dec16_hello :
    left (vector 0x2 [0x34, 0x38, 0x36, 0x35, 0x36, 0x43, 0x36, 0x43, 0x36, 0x46, 0x00] 64) 5 =
      (0, 5, [0x48, 0x65, 0x6C, 0x6C, 0x6F]) := by decide

/-- V9. -/
theorem test_dec16_source_errors :
    (next (vector 0x2 [0x41, 0x42, 0x43, 0x00] 64)).result = 3 ∧
      (next (vector 0x2 [0x47, 0x30, 0x00] 64)).result = 3 := by decide

/-- V3. -/
theorem test_enc32_foobar :
    left (vector 0x3 [0x66, 0x6F, 0x6F, 0x62, 0x61, 0x72] 64) 17 =
      (0, 16, [0x4D, 0x5A, 0x58, 0x57, 0x36, 0x59, 0x54, 0x42, 0x4F, 0x49, 0x3D, 0x3D, 0x3D, 0x3D, 0x3D, 0x3D, 0x00]) :=
  by decide

/-- V2. -/
theorem test_enc32_foo :
    left (vector 0x3 [0x66, 0x6F, 0x6F] 64) 9 =
      (0, 8, [0x4D, 0x5A, 0x58, 0x57, 0x36, 0x3D, 0x3D, 0x3D, 0x00]) := by decide

/-- V3, the inverse. -/
theorem test_dec32_foobar :
    left (vector 0x4 [0x4D, 0x5A, 0x58, 0x57, 0x36, 0x59, 0x54, 0x42, 0x4F, 0x49, 0x3D, 0x3D, 0x3D, 0x3D, 0x3D, 0x3D, 0x00] 64) 6 =
      (0, 6, [0x66, 0x6F, 0x6F, 0x62, 0x61, 0x72]) := by decide

/-- V9. -/
theorem test_dec32_rejects_digit_one :
    (next (vector 0x4 [0x31, 0x00] 64)).result = 3 := by decide

/-- V5: P counts full groups only. -/
theorem test_enc8_two_bytes :
    left (vector 0x5 [0xA5, 0xB3] 64) 7 =
      (0, 6, [0x36, 0x32, 0x34, 0x34, 0x32, 0x35, 0x00]) := by decide

/-- V10: the fourth byte starts phase 0 again. -/
theorem test_enc8_four_bytes :
    left (vector 0x5 [0x01, 0x02, 0x03, 0x04] 64) 12 =
      (0, 11, [0x31, 0x31, 0x33, 0x31, 0x32, 0x31, 0x31, 0x34, 0x31, 0x32, 0x32, 0x00]) := by decide

/-- V11. -/
theorem test_dec8_two_bytes :
    left (vector 0x6 [0x05, 0x01, 0x03, 0x03, 0x01, 0x04] 64) 2 =
      (0, 2, [0xA5, 0xB3]) := by decide

/-- V11, V12: a check mismatch, and a digit above 7. -/
theorem test_dec8_check_and_digit :
    (next (vector 0x6 [0x01, 0x07, 0x07] 64)).result = 3 ∧
      (next (vector 0x6 [0x01, 0x07, 0x08] 64)).result = 3 := by decide

/-- V4: numeric form, no terminator. -/
theorem test_s2n8_digits :
    left (vector 0x7 [0x32, 0x38, 0x37, 0x00] 64) 3 =
      (0, 3, [0x01, 0x07, 0x06]) := by decide

/-- 41_command_framework.md R133: STATUS reads 0x402. -/
theorem test_reserved_status :
    statusWord (next (vector 0x0 [] 0)) = 0x402 ∧ statusWord (next (vector 0x8 [] 0)) = 0x402 := by decide

/-- 30_encoding.md R91: WAIT reads STATUS, gives the engine a turn, and then ends. -/
theorem test_wait_polls_once :
    let s := { vector 0x0 [] 0 with bus := hostWait }
    (next s).rdata = 0x001 ∧ (next s).bus = [none, some .waitDone] ∧ (next (next s)).bus = [some .waitDone] ∧
      (next (next (next s))).rdata = 0x402 ∧ (next (next (next s))).bus = [] := by decide

/-- 30_encoding.md R91: CALL writes the four operands and CMD, in five bus writes, and waits. -/
theorem test_call_expands :
    hostCall .enc8 0x10 16 0x00 2 =
      [some (.regWrite .b32 0x08 0x00), some (.regWrite .b32 0x0C 2), some (.regWrite .b32 0x10 0x10),
       some (.regWrite .b32 0x14 16), some (.regWrite .b32 0x00 0x5), some .waitDone] := by decide

/-- P2, its first ENC16 line, with the WAIT for irq = 1. -/
theorem test_call_under_interrupts_expands :
    hostCallIrq .enc16 0x10 11 0x00 5 =
      [some (.regWrite .b32 0x08 0x00), some (.regWrite .b32 0x0C 5), some (.regWrite .b32 0x10 0x10),
       some (.regWrite .b32 0x14 11), some (.regWrite .b32 0x00 0x1), some .waitIrq] := by decide

/-! ### Witnesses: states and operands that meet the hypotheses of the statements -/

/-- An idle core with one host turn. -/
def turn (op : HostOp) : State := idle 0x00 1 0x80 9 [0x3F] [some op]

/-- The same, with a command of 1 byte running. -/
def busyTurn (op : HostOp) : State := { ready 0x5 0x00 1 0x80 9 [0x3F] with bus := [some op] }

/-- The invariant holds of a started core whose listed memory is in range. -/
theorem ready_inv (w inLen outCap : Word) (bytes : List Byte) (hm : Memory.wf (place 0 bytes))
    (hi : ∀ c ∈ place 0 bytes, c.1 < 256) : Inv (ready w 0x00 inLen 0x80 outCap bytes) where
  memSize_pos := (by decide : 1 ≤ 256)
  memSize_le := (by decide : 256 ≤ Config.maxMemSize)
  mem_wf := hm
  mem_inside := hi
  mirrors := ⟨fun _ => rfl, fun _ => rfl⟩
  not_busy_and_done := fun h => nomatch (show false = true from h.2)
  busy_started := fun _ => ⟨rfl, rfl, rfl, rfl, rfl, rfl⟩
  result_le := (by decide : (0 : BitVec 3).toNat ≤ 4)
  carry_canonical := (by decide : 0 < 2 ^ 0)
  count_le := Nat.zero_le 7
  phase_le := Nat.zero_le 2
  in_index_le := Nat.zero_le 256
  out_index_le := Nat.zero_le 256
  length_le := Nat.zero_le 256

/-- An idle core whose last command completed with OVERFLOW. -/
def completed (op : HostOp) : State := { turn op with done := true, result := 2 }

theorem completed_inv (op : HostOp) : Inv (completed op) where
  memSize_pos := (by decide : 1 ≤ 256)
  memSize_le := (by decide : 256 ≤ Config.maxMemSize)
  mem_wf := (by decide : Memory.wf (place 0 [0x3F]))
  mem_inside := (by decide : ∀ c ∈ place 0 [0x3F], c.1 < 256)
  mirrors :=
    ⟨fun h => (nomatch (show false = true from h)), fun h => (nomatch (show EState.idle = EState.run from h))⟩
  not_busy_and_done := fun h => nomatch (show false = true from h.1)
  busy_started := fun h => nomatch (show false = true from h)
  result_le := (by decide : (2 : BitVec 3).toNat ≤ 4)
  carry_canonical := (by decide : 0 < 2 ^ 0)
  count_le := Nat.zero_le 7
  phase_le := Nat.zero_le 2
  in_index_le := Nat.zero_le 256
  out_index_le := Nat.zero_le 256
  length_le := Nat.zero_le 256

theorem test_witness_DecodeEncodeAgree :
    wellFormed .enc16 = true ∧ wellFormed (.rsvd8 0x8) = true ∧ wellFormed (.rsvd8 0xF) = true := by decide

theorem test_witness_StepRunsFetchedCommand :
    (ready 0x5 0x00 1 0x80 9 [0x3F]).estate = .run ∧ (ready 0x5 0x00 1 0x80 9 [0x3F]).bus = [] ∧
      (idle 0x00 1 0x80 9 [0x3F] []).estate = .idle ∧ (idle 0x00 1 0x80 9 [0x3F] []).bus = [] ∧
      (idle 0x00 1 0x80 9 [0x3F] [none, none]).bus = none :: [none] := by decide

theorem test_witness_CmdWriteStartsCommand :
    (turn (.regWrite .b32 0x00 5)).bus = some (.regWrite .b32 0x00 5) :: [] ∧
      (turn (.regWrite .b32 0x00 5)).busy = false ∧
      (busyTurn (.regWrite .b32 0x00 5)).bus = some (.regWrite .b32 0x00 5) :: [] ∧
      (busyTurn (.regWrite .b32 0x00 5)).busy = true := by decide

theorem test_witness_WritesWhileBusy :
    ∀ off ∈ ([0x00, 0x08, 0x0C, 0x10, 0x14, 0x1C, 0x04] : List (BitVec 6)),
      (busyTurn (.regWrite .b32 off 7)).bus = some (.regWrite .b32 off 7) :: [] ∧
        (busyTurn (.regWrite .b32 off 7)).busy = true := by decide

theorem test_witness_OperandRegisters :
    ∀ off ∈ ([0x08, 0x0C, 0x10, 0x14] : List (BitVec 6)),
      (turn (.regWrite .b32 off 0xFFFFFFFF)).bus = some (.regWrite .b32 off 0xFFFFFFFF) :: [] ∧
        (turn (.regRead .b32 off)).bus = some (.regRead .b32 off) :: [] := by decide

theorem test_witness_StatusWriteClearsDoneOnly :
    (completed (.regWrite .b32 0x04 2)).bus = some (.regWrite .b32 0x04 2) :: [] ∧ (2 : Word).getLsbD 1 = true ∧
      (completed (.regWrite .b32 0x04 0xFFFFFFFD)).bus = some (.regWrite .b32 0x04 0xFFFFFFFD) :: [] ∧
      (0xFFFFFFFD : Word).getLsbD 1 = false := by decide

theorem test_witness_IrqEnAndReadOnlyRegisters :
    ∀ off ∈ ([0x1C, 0x18, 0x20] : List (BitVec 6)),
      (turn (.regWrite .b32 off 1)).bus = some (.regWrite .b32 off 1) :: [] ∧
        (turn (.regRead .b32 off)).bus = some (.regRead .b32 off) :: [] := by decide

theorem test_witness_StatusReadLayout :
    (completed (.regRead .b32 0x04)).bus = some (.regRead .b32 0x04) :: [] := by decide

theorem test_witness_RegisterReadValues :
    ∀ off ∈ ([0x00, 0x04, 0x08, 0x0C, 0x10, 0x14, 0x18, 0x1C, 0x20] : List (BitVec 6)),
      (turn (.regRead .b32 off)).bus = some (.regRead .b32 off) :: [] := by decide

theorem test_witness_InertRegisterAccesses :
    (turn (.regRead .b8 0x00)).bus = some (.regRead .b8 0x00) :: [] ∧ BusWidth.b8 ≠ .b32 ∧
      (0x21 : BitVec 6).toNat % 4 ≠ 0 ∧ 0x20 < (0x24 : BitVec 6).toNat ∧ 0x20 < (0x3F : BitVec 6).toNat ∧
      (turn (.regWrite .b32 0x24 7)).bus = some (.regWrite .b32 0x24 7) :: [] := by decide

theorem test_witness_BufferPortReadsAndWrites :
    (turn (.memRead 255)).busy = false ∧ 255 < (turn (.memRead 255)).memSize ∧
      (turn (.memRead 255)).bus = some (.memRead 255) :: [] ∧
      (turn (.memWrite 255 7)).bus = some (.memWrite 255 7) :: [] ∧ 255 < (turn (.memWrite 255 7)).memSize ∧
      (busyTurn (.memRead 256)).bus = some (.memRead 256) :: [] ∧ (busyTurn (.memRead 256)).memSize ≤ 256 ∧
      (turn (.memWrite 256 7)).bus = some (.memWrite 256 7) :: [] ∧ (turn (.memWrite 256 7)).memSize ≤ 256 ∧
      (busyTurn (.memRead 255)).busy = true ∧ (busyTurn (.memRead 255)).bus = some (.memRead 255) :: [] ∧
      255 < (busyTurn (.memRead 255)).memSize := by decide

theorem test_witness_BufferPortWhileBusyFaults :
    (busyTurn (.memRead 255)).busy = true ∧ (busyTurn (.memRead 255)).bus = some (.memRead 255) :: [] ∧
      255 < (busyTurn (.memRead 255)).memSize ∧
      (busyTurn (.memWrite 256 7)).busy = true ∧ (busyTurn (.memWrite 256 7)).bus = some (.memWrite 256 7) :: [] ∧
      ¬256 < (busyTurn (.memWrite 256 7)).memSize := by decide

/-- 20_memory.md R62, 93 U14: above buffer memory a read gives 0x00 and a write is ignored, also while BUSY. -/
theorem test_port_above_memory_while_busy :
    step { busyTurn (.memRead 256) with rdata := 7 } = .next { busyTurn (.memRead 256) with bus := [] } ∧
      step (busyTurn (.memWrite 256 7)) = .next { busyTurn (.memWrite 256 7) with bus := [] } := ⟨rfl, rfl⟩

theorem test_witness_IrqFollowsDoneAndEnable :
    (2 : Word).getLsbD 1 = true ∧ (2 : Word).getLsbD 0 = false ∧ (1 : Word).getLsbD 0 = true ∧
      (completed .reset).done = true ∧ (completed .reset).busy = false := by decide

theorem test_witness_WaitEndsWhenDone :
    (completed .waitDone).bus = some .waitDone :: [] ∧ (completed .waitDone).done = true ∧
      (turn .waitDone).bus = some .waitDone :: [] ∧ (turn .waitDone).done = false ∧
      irq { completed .waitIrq with doneIe := true } = true ∧ (completed .waitIrq).bus = some .waitIrq :: [] ∧
      irq (completed .waitIrq) = false := by decide

theorem test_witness_ResetTurn :
    (turn .reset).bus = some .reset :: [] ∧ (turn .reset).busy = false ∧
      (busyTurn .reset).bus = some .reset :: [] ∧ (busyTurn .reset).busy = true := by decide

theorem test_witness_Enc16WritesHexText :
    let s := ready 0x1 0xFF 1 0x80 3 []
    Started s ∧ Usable s ∧ 0 < s.inLen.toNat ∧ 2 * s.inLen.toNat + 1 ≤ s.outCap.toNat := by decide

theorem test_witness_Dec16WritesBytes :
    let s := vector 0x2 [0x46, 0x66] 1
    Started s ∧ Usable s ∧ (inputString s).map hexVal = [0xF, 0xF].map some ∧ [0xF, 0xF].length % 2 = 0 ∧
      ([0xF, 0xF] : List (BitVec 4)).length / 2 ≤ s.outCap.toNat := by decide

theorem test_witness_Enc32WritesBase32Text :
    let s := ready 0x3 0x00 1 0x80 9 []
    Started s ∧ Usable s ∧ 0 < s.inLen.toNat ∧ 8 * ((s.inLen.toNat + 4) / 5) + 1 ≤ s.outCap.toNat := by decide

theorem test_witness_Dec32WritesUnpaddedBytes :
    let s := vector 0x4 [0x4D, 0x59] 1
    Started s ∧ Usable s ∧ (inputString s).map b32Val = [12, 24].map some ∧
      5 * ([12, 24] : List (BitVec 5)).length / 8 ≤ s.outCap.toNat := by decide

theorem test_witness_Dec32PaddingAcceptance :
    let s := vector 0x4 [0x4D, 0x59, 0x3D, 0x3D, 0x3D, 0x3D, 0x3D, 0x3D] 1
    let t := vector 0x4 [0x3D] 0
    Started s ∧ Usable s ∧ inputString s = [0x4D, 0x59] ++ List.replicate 6 padChar ∧
      [0x4D, 0x59].map b32Val = [12, 24].map some ∧
      5 * ([12, 24] : List (BitVec 5)).length / 8 ≤ s.outCap.toNat ∧ 6 = [0, 0, 6, 6, 4, 3, 3, 1].getD 2 0 ∧
      Started t ∧ Usable t ∧ inputString t = [] ++ List.replicate 1 padChar ∧ 1 ≠ [0, 0, 6, 6, 4, 3, 3, 1].getD 0 0 :=
  by decide

theorem test_witness_Enc8WritesDigitsAndCheck :
    let s := ready 0x5 0x00 1 0x80 4 []
    Started s ∧ Usable s ∧ 0 < s.inLen.toNat ∧ (8 * s.inLen.toNat + 2) / 3 + 1 ≤ s.outCap.toNat := by decide

theorem test_witness_Dec8WritesCheckedBytes :
    let s := vector 0x6 [1, 7, 6] 1
    let t := vector 0x6 [0, 0, 0, 0, 0, 0, 0, 0] 3
    Started s ∧ Usable s ∧ inputBytes s = ([1, 7, 6] : List (BitVec 3)).map (fun d => d.setWidth 8) ∧
      3 % 8 ∈ [0, 3, 6] ∧ 3 * (3 / 8) + 3 % 8 / 3 ≤ s.outCap.toNat ∧ checkPasses [1, 7, 6] ∧
      Started t ∧ Usable t ∧ inputBytes t = (List.replicate 8 (0 : BitVec 3)).map (fun d => d.setWidth 8) ∧
      8 % 8 ∈ [0, 3, 6] ∧ 3 * (8 / 8) + 8 % 8 / 3 ≤ t.outCap.toNat ∧ checkPasses (List.replicate 8 0) := by decide

theorem test_witness_S2n8WritesDigitValues :
    let s := vector 0x7 [0x31, 0x38] 2
    Started s ∧ Usable s ∧ inputString s ≠ [] ∧ (∀ ch ∈ inputString s, 0x31 ≤ ch ∧ ch ≤ 0x38) ∧
      (inputString s).length ≤ s.outCap.toNat := by decide

/-- What an encode of 0x3F wrote, copied to 0x00 of another core, whose string window is longer than the string. -/
def reread (w : Word) (text : List Byte) (outCap : Word) : State :=
  ready w 0x00 (BitVec.ofNat 32 (text.length + 2)) 0x80 outCap (text ++ [0x00, 0x55])

theorem test_witness_Base16RoundTrip :
    let s := vector 0x1 [0x3F] 3
    let u := reread 0x2 [0x33, 0x46] 1
    Started s ∧ Usable s ∧ 0 < s.inLen.toNat ∧ (∃ t, exec .enc16 s = .next t ∧ t.result = 0 ∧
      bytesAt u.mem u.inAddr.toNat (2 * s.inLen.toNat + 1) = bytesAt t.mem s.outAddr.toNat (2 * s.inLen.toNat + 1)) ∧
      Started u ∧ Usable u ∧ 2 * s.inLen.toNat ≤ u.inLen.toNat ∧ s.inLen.toNat ≤ u.outCap.toNat := by
  refine ⟨by decide, by decide, by decide, ⟨_, rfl, by decide, by decide⟩, by decide, by decide, by decide, by decide⟩

theorem test_witness_Base32RoundTrip :
    let s := vector 0x3 [0x3F] 9
    let u := reread 0x4 [0x48, 0x34, 0x3D, 0x3D, 0x3D, 0x3D, 0x3D, 0x3D] 1
    Started s ∧ Usable s ∧ 0 < s.inLen.toNat ∧ (∃ t, exec .enc32 s = .next t ∧ t.result = 0 ∧
      bytesAt u.mem u.inAddr.toNat (8 * ((s.inLen.toNat + 4) / 5) + 1) =
        bytesAt t.mem s.outAddr.toNat (8 * ((s.inLen.toNat + 4) / 5) + 1)) ∧
      Started u ∧ Usable u ∧ 8 * ((s.inLen.toNat + 4) / 5) ≤ u.inLen.toNat ∧ s.inLen.toNat ≤ u.outCap.toNat := by
  refine ⟨by decide, by decide, by decide, ⟨_, rfl, by decide, by decide⟩, by decide, by decide, by decide, by decide⟩

theorem test_witness_Base8RoundTrip :
    let s := vector 0x5 [0x3F] 4
    let u := reread 0x7 [0x32, 0x38, 0x37] 3
    let x := vector 0x6 [1, 7, 6] 1
    Started s ∧ Usable s ∧ 0 < s.inLen.toNat ∧ (∃ t, exec .enc8 s = .next t ∧ t.result = 0 ∧
      bytesAt u.mem u.inAddr.toNat ((8 * s.inLen.toNat + 2) / 3 + 1) =
        bytesAt t.mem s.outAddr.toNat ((8 * s.inLen.toNat + 2) / 3 + 1)) ∧
      Started u ∧ Usable u ∧ (8 * s.inLen.toNat + 2) / 3 ≤ u.inLen.toNat ∧
      (8 * s.inLen.toNat + 2) / 3 ≤ u.outCap.toNat ∧
      (∃ v, exec .s2n8 u = .next v ∧ Started x ∧ Usable x ∧ x.inLen.toNat = (8 * s.inLen.toNat + 2) / 3 ∧
        inputBytes x = bytesAt v.mem u.outAddr.toNat ((8 * s.inLen.toNat + 2) / 3) ∧
        s.inLen.toNat ≤ x.outCap.toNat) := by
  refine ⟨by decide, by decide, by decide, ⟨_, rfl, by decide, by decide⟩, by decide, by decide, by decide, by decide,
    ⟨_, rfl, by decide, by decide, by decide, by decide, by decide⟩⟩

/-- An input window and an output window that end at 257, and windows that share one byte. -/
theorem test_witness_UnusableWindowsGiveArguments :
    Instr.enc16 ∈ codecCommands ∧ ¬Usable (ready 0x1 0xFF 2 0x80 9 []) ∧ ¬Usable (ready 0x1 0x00 1 0xFF 2 []) ∧
      ¬Usable (ready 0x1 0x00 2 0x01 9 []) ∧ Instr.s2n8 ∈ codecCommands := by decide

theorem test_witness_EmptyInputGivesArguments :
    let s := ready 0x5 0x00 0 0x80 9 []
    let t := vector 0x2 [0x00, 0x34] 9
    Instr.enc8 ∈ codecCommands ∧ Usable s ∧ inputSize .enc8 s = 0 ∧ Instr.dec16 ∈ codecCommands ∧ Usable t ∧
      inputSize .dec16 t = 0 := by decide

theorem test_witness_ShortCapacityGivesOverflow :
    ∀ p ∈ ([(.enc16, 2, 3), (.enc32, 8, 9), (.enc8, 3, 4), (.dec16, 1, 2), (.dec8, 0, 1), (.s2n8, 3, 4)] :
        List (Instr × Nat × Nat)),
      let s := vector (encode p.1) ((if p.1 = .enc16 ∨ p.1 = .enc32 ∨ p.1 = .enc8 then [0x3F] else
        if p.1 = .dec8 then [1, 7, 6] else [0x34, 0x31, 0x34, 0x32]) : List Byte) (BitVec.ofNat 32 p.2.1)
      Usable s ∧ inputSize p.1 s ≠ 0 ∧ requiredOutput p.1 (inputSize p.1 s) = some p.2.2 ∧ s.outCap.toNat < p.2.2 :=
  by decide

theorem test_witness_Dec16SourceErrors :
    let s := vector 0x2 [0x41] 0
    let t := vector 0x2 [0x47, 0x30] 1
    Started s ∧ Usable s ∧ inputString s ≠ [] ∧ (inputString s).length / 2 ≤ s.outCap.toNat ∧
      (inputString s).length % 2 = 1 ∧ Started t ∧ Usable t ∧ inputString t ≠ [] ∧
      (inputString t).length / 2 ≤ t.outCap.toNat ∧ ∃ ch ∈ inputString t, hexVal ch = none := by decide

theorem test_witness_Dec32FirstErrorInInputOrder :
    let s := vector 0x4 [0x4D, 0x59, 0x31] 0
    let t := vector 0x4 [0x4D, 0x59, 0x31] 1
    let u := vector 0x4 [0x4D, 0x59, 0x3D, 0x31] 1
    Started s ∧ Usable s ∧ inputString s = [0x4D, 0x59] ++ [0x31] ∧ [0x4D, 0x59].map b32Val = [12, 24].map some ∧
      s.outCap.toNat < 5 * ([12, 24] : List (BitVec 5)).length / 8 ∧
      Started t ∧ Usable t ∧ inputString t = [0x4D, 0x59] ++ 0x31 :: [] ∧
      5 * ([12, 24] : List (BitVec 5)).length / 8 ≤ t.outCap.toNat ∧ (0x31 : Byte) ≠ padChar ∧ b32Val 0x31 = none ∧
      Started u ∧ Usable u ∧ inputString u = [0x4D, 0x59] ++ 0x3D :: [0x31] ∧ 0x3D = padChar ∧
      0x3D :: [0x31] ≠ List.replicate (padCount (5 * ([12, 24] : List (BitVec 5)).length / 8 % 5)) padChar := by decide

theorem test_witness_Dec8SourceErrors :
    let s := vector 0x6 [0] 0
    let t := vector 0x6 [1, 7, 8] 1
    let u := vector 0x6 [1, 7, 7] 1
    Started s ∧ Usable s ∧ 0 < s.inLen.toNat ∧ 3 * (1 / 8) + 1 % 8 / 3 ≤ s.outCap.toNat ∧
      s.inLen.toNat % 8 ∉ [0, 3, 6] ∧ Started t ∧ Usable t ∧ 3 * (3 / 8) + 3 % 8 / 3 ≤ t.outCap.toNat ∧
      (∃ b ∈ inputBytes t, 7 < b.toNat) ∧ Started u ∧ Usable u ∧
      ¬checkPasses ((inputBytes u).map fun b => b.setWidth 3) := by decide

theorem test_witness_S2n8SourceErrors :
    let s := vector 0x7 [0x31, 0x39] 2
    let t := vector 0x7 [0x30] 1
    Started s ∧ Usable s ∧ (inputString s).length ≤ s.outCap.toNat ∧ (∃ ch ∈ inputString s, ch < 0x31 ∨ 0x38 < ch) ∧
      Started t ∧ Usable t ∧ (inputString t).length ≤ t.outCap.toNat ∧ ∃ ch ∈ inputString t, ch < 0x31 ∨ 0x38 < ch :=
  by decide

theorem test_witness_ReservedCompletesWithError :
    (0x00000010 : Word).extractLsb' 0 4 = 0 ∧ 8 ≤ ((0x00000008 : Word).extractLsb' 0 4).toNat ∧
      8 ≤ ((0xFFFFFFFF : Word).extractLsb' 0 4).toNat := by decide

theorem test_witness_CheckDetectsCorruption :
    let s := vector 0x6 [1, 7, 7] 1
    let t := vector 0x6 [2, 7, 6] 1
    Started s ∧ Usable s ∧ Started t ∧ Usable t ∧ ([1, 7, 6] : List (BitVec 3)).length % 8 ∈ [3, 6] ∧
      checkPasses [1, 7, 6] ∧ 3 * (3 / 8) + 3 % 8 / 3 ≤ s.outCap.toNat ∧
      inputBytes s = ([1, 7] ++ [7]).map (fun x : BitVec 3 => x.setWidth 8) ∧
      inputBytes t = ([] ++ 2 :: [7, 6]).map (fun x : BitVec 3 => x.setWidth 8) := by decide

theorem test_witness_CommandFrame :
    let s := ready 0x5 0x00 1 0x80 9 [0x3F]
    (∃ t, exec .enc8 s = .next t) ∧ Usable s := ⟨⟨_, rfl⟩, by decide⟩

theorem test_witness_RefusedCommandsWriteNothing :
    (∃ t, exec .rsvd0 (vector 0x0 [] 0) = .next t ∧ t.result = 4) ∧
      (∃ t, exec .enc16 (vector 0x1 [] 9) = .next t ∧ t.result = 1) ∧
      (∃ t, exec .enc16 (vector 0x1 [0x3F] 2) = .next t ∧ t.result = 2) ∧ Started (vector 0x1 [0x3F] 2) := ⟨⟨_, rfl, by decide⟩, ⟨_, rfl, by decide⟩, ⟨_, rfl, by decide⟩, by decide⟩

theorem test_witness_OkWritesOnlyThePrefix :
    let s := vector 0x7 [0x31] 9
    Started s ∧ ∃ t, exec .s2n8 s = .next t ∧ t.result = 0 := ⟨by decide, _, rfl, by decide⟩

theorem test_witness_OutcomeDependsOnInputWindowOnly :
    let s := vector 0x1 [0x3F] 9
    let s' := { s with mem := [(0, 0x3F), (0x80, 0x55), (0xFF, 0xAA)], draws := 7, doneIe := true }
    Started s ∧ Started s' ∧ s.mem ≠ s'.mem ∧ inputBytes s = inputBytes s' ∧
      (∃ t, exec .enc16 s = .next t ∧ t.result = 0) ∧ ∃ t', exec .enc16 s' = .next t' := ⟨by decide, by decide, by decide, by decide, ⟨_, rfl, by decide⟩, _, rfl⟩

/-- With one byte and five-bit groups, three bits stay. -/
theorem test_witness_PackCutsTheStream :
    5 ∈ [3, 4, 5] ∧ (0 : Nat) < 8 * ([0x3F] : List Byte).length % 5 := by decide

theorem test_witness_UnpackJoinsTheStream :
    3 ∈ [3, 4, 5] ∧ (0 : Nat) < 3 * ([1, 7] : List (BitVec 3)).length % 8 := by decide

theorem test_witness_CarryStaysCanonical :
    let d := { Datapath.zero with c := 0xF, cn := 4 }
    let d' := { Datapath.zero with c := 0x7F, cn := 7 }
    5 ∈ [3, 4, 5] ∧ d.c.toNat < 2 ^ d.cn.toNat ∧ d.cn.toNat ≤ 5 - 1 ∧ d'.c.toNat < 2 ^ d'.cn.toNat ∧ d'.cn.toNat ≤ 7 :=
  by decide

theorem test_witness_StepKeepsTheInvariants :
    (∃ s t : State, Inv s ∧ s.busy = true ∧ step s = .next t) ∧ ∃ s t : State, Inv s ∧ s.busy = false ∧ step s = .next t := ⟨⟨_, _, ready_inv 0x5 1 9 [0x3F] (by decide) (by decide), rfl, rfl⟩, ⟨_, _, completed_inv (.memWrite 255 7), rfl, rfl⟩⟩

theorem test_witness_ResetMeetsTheInvariants :
    (1 ≤ 1 ∧ 1 ≤ 2 ^ 28) ∧ 1 ≤ 2 ^ 28 ∧ 2 ^ 28 ≤ 2 ^ 28 := by decide

theorem test_witness_OnlyBusyPortAccessStops :
    ∃ f, step (busyTurn (.memRead 0)) = .fault f := ⟨_, rfl⟩

theorem test_witness_StatusChangesOnlyAtItsEvents :
    let start := completed (.regWrite .b32 0x00 5)
    let run := ready 0x1 0x00 1 0x80 2 [0x3F]
    let ack := completed (.regWrite .b32 0x04 2)
    Inv start ∧ (∃ t, step start = .next t ∧ t.busy = true ∧ t.done = false ∧ t.result ≠ start.result) ∧
      Inv run ∧ (∃ t, step run = .next t ∧ t.busy = false ∧ t.done = true ∧ t.result ≠ run.result) ∧
      Inv ack ∧ (∃ t, step ack = .next t ∧ t.done = false) ∧
      Inv (completed .reset) ∧ ∃ t, step (completed .reset) = .next t ∧ t.done = false ∧ t.result = 0 := ⟨completed_inv _, ⟨_, rfl, by decide⟩, ready_inv 0x1 1 2 [0x3F] (by decide) (by decide), ⟨_, rfl, by decide⟩, completed_inv _,
    ⟨_, rfl, by decide⟩, completed_inv _, ⟨_, rfl, by decide⟩⟩

/-- A host write and a running encode each change a byte; `completed_inv` and `ready_inv` give the invariant. -/
theorem test_witness_MemoryChangesOnlyByItsAgents :
    let host := { completed (.memWrite 0 0x55) with done := false }
    let run := ready 0x1 0x00 1 0x80 9 (List.replicate 129 0x3F)
    (∃ t, step host = .next t ∧ readByte t.mem 0 ≠ readByte host.mem 0) ∧
      ∃ t, step run = .next t ∧ readByte t.mem 0x80 ≠ readByte run.mem 0x80 := ⟨⟨_, rfl, by decide⟩, _, rfl, by decide⟩

theorem test_witness_StartForgetsTheDatapath :
    (turn (.regWrite .b32 0x00 5)).bus = some (.regWrite .b32 0x00 5) :: [] ∧ (turn (.regWrite .b32 0x00 5)).busy = false :=
  by decide

theorem test_witness_EngineTurnCompletesTheCommand :
    (ready 0x5 0x00 1 0x80 9 [0x3F]).estate = .run ∧ (ready 0x5 0x00 1 0x80 9 [0x3F]).bus = [] ∧
      { ready 0x5 0x00 1 0x80 9 [0x3F] with bus := [none] }.bus = none :: [] := by decide

end Sys2Proof.Tests
end

section
/-! Every step keeps the invariant, and the state after reset meets it (00_scope.md R8; the invariant is `Inv`). The
proof goes by the agents of a step: the engine completes a command, or the host takes a turn. -/

namespace Sys2Proof.Machine

/-! ### The parts of the invariant that a completion, a reset and a start set anew -/

/-- Between commands the invariant asks only for sound memory, a result code and a bounded datapath. -/
theorem inv_of_idle {t : State} (hpos : 1 ≤ t.memSize) (hle : t.memSize ≤ Config.maxMemSize) (hwf : Memory.wf t.mem)
    (hin : ∀ c ∈ t.mem, c.1 < t.memSize) (hbusy : t.busy = false) (hidle : t.estate = .idle)
    (hres : t.result.toNat ≤ 4) (hdp : Bounded t) : Inv t where
  memSize_pos := hpos
  memSize_le := hle
  mem_wf := hwf
  mem_inside := hin
  mirrors := by simp [hbusy, hidle]
  not_busy_and_done := by simp [hbusy]
  busy_started := by simp [hbusy]
  result_le := hres
  carry_canonical := hdp.canonical
  count_le := hdp.count
  phase_le := hdp.phase
  in_index_le := hdp.index
  out_index_le := hdp.output
  length_le := hdp.length

theorem resetWith_inv {n : Nat} (hpos : 1 ≤ n) (hle : n ≤ Config.maxMemSize) : Inv (State.resetWith n) :=
  inv_of_idle hpos hle (resetWith_wf n) (by simp [State.resetWith]) rfl rfl (by simp [State.resetWith])
    (bounded_of_zero rfl)

/-- A command starts with the datapath cleared, which is within every bound. -/
theorem startCommand_inv (w : Word) {s : State} (h : Inv s) : Inv (startCommand w s) :=
  have hdp : Bounded (startCommand w s) := bounded_of_zero rfl
  { h with
    mirrors := by simp
    not_busy_and_done := by simp
    busy_started := fun _ => ⟨rfl, rfl, rfl, rfl, rfl, rfl⟩
    result_le := by simp
    carry_canonical := hdp.canonical
    count_le := hdp.count
    phase_le := hdp.phase
    in_index_le := hdp.index
    out_index_le := hdp.output
    length_le := hdp.length }

theorem assertReset_inv {s : State} (h : Inv s) : Inv (assertReset s) := by
  refine inv_of_idle h.memSize_pos h.memSize_le ?_ ?_ rfl rfl (by simp) (bounded_of_zero rfl)
  · rw [assertReset_mem]
    split
    · exact drawOutputWindow_wf h.mem_wf
    · exact h.mem_wf
  · rw [assertReset_mem, assertReset_memSize]
    split
    · exact drawOutputWindow_inside h.mem_inside
    · exact h.mem_inside

/-- A completion of `u`, which the command reached from `s` with its datapath within bounds. -/
theorem complete_inv {s u : State} (h : Inv s) (hr : Ran s u) (hdp : Bounded u) (free : Bool) (code : Code) :
    Inv (complete free code u) := by
  have hwf : Memory.wf u.mem := hr.wf h.mem_wf
  have hin : ∀ c ∈ u.mem, c.1 < u.memSize := by rw [hr.memSize]; exact hr.inside h.mem_inside
  refine inv_of_idle (hr.memSize ▸ h.memSize_pos) (hr.memSize ▸ h.memSize_le) ?_ ?_ rfl rfl (resultBits_le code)
    ⟨hdp.canonical, hdp.count, hdp.phase, hdp.index, hdp.output, hdp.length⟩
  · rw [complete_mem]
    split
    · exact drawOutputWindow_wf hwf
    · exact hwf
  · rw [complete_mem, complete_memSize]
    split
    · exact drawOutputWindow_inside hin
    · exact hin

/-! ### The updates that leave most of the invariant alone -/

/-- The invariant does not speak of the host's queue or of the value last read. -/
theorem Inv.setBus {s : State} (h : Inv s) (v : Word) (bus : List (Option HostOp)) :
    Inv { s with rdata := v, bus := bus } := { h with }

/-- The invariant does not speak of the operand registers. -/
theorem Inv.setOperands {s : State} (h : Inv s) (ia il oa oc : Word) :
    Inv { s with inAddr := ia, inLen := il, outAddr := oa, outCap := oc } := { h with }

theorem Inv.setDoneIe {s : State} (h : Inv s) (b : Bool) : Inv { s with doneIe := b } := { h with }

theorem acknowledge_inv {s : State} (h : Inv s) : Inv (acknowledge s) :=
  { h with
    not_busy_and_done := by simp
    busy_started := fun hb => by
      obtain ⟨hbusy, _, hrest⟩ := h.busy_started hb
      exact ⟨hbusy, rfl, hrest⟩ }

theorem storeByte_inv {s : State} (h : Inv s) {a : Nat} (ha : a < s.memSize) (v : Byte) : Inv (storeByte a v s) :=
  { h with
    mem_wf := writeByte_wf a v h.mem_wf
    mem_inside := writeByte_inside v ha h.mem_inside }

/-! ### The turns -/

theorem portWrite_inv {s : State} (h : Inv s) (a : Nat) (v : Byte) : Inv (portWrite a v s) := by
  unfold portWrite
  split
  · next ha => exact storeByte_inv h ha v
  · exact h

theorem writeReg_inv {s : State} (h : Inv s) (r : Reg) (v : Word) : Inv (writeReg r v s) := by
  rcases writeReg_cases r v s with e | ⟨_, _, e⟩ | ⟨_, _, e⟩ | ⟨_, e⟩ | ⟨_, ia, il, oa, oc, e⟩ <;> rw [e]
  · exact h
  · exact startCommand_inv v h
  · exact acknowledge_inv h
  · exact h.setDoneIe _
  · exact h.setOperands ia il oa oc

theorem busWrite_inv {s : State} (h : Inv s) (width : BusWidth) (offset : BitVec 6) (v : Word) :
    Inv (busWrite width offset v s) := by
  unfold busWrite
  split
  · exact writeReg_inv h _ v
  · exact h

theorem hostTurn_keeps_inv {op : HostOp} {s t : State} (h : Inv s) (ht : hostTurn op s = .next t) : Inv t := by
  rcases hostTurn_next ht with ⟨width, offset, v, _, rfl⟩ | ⟨v, bus, rfl⟩ | ⟨a, v, _, rfl, _⟩ | ⟨_, rfl⟩
  · exact busWrite_inv h width offset v
  · exact h.setBus v bus
  · exact portWrite_inv h a v
  · exact assertReset_inv h

/-- A running command is in its started state, so `bodyOf_bounded` bounds the datapath that it ends with. -/
theorem exec_keeps_inv (i : Instr) {s t : State} (h : Inv s) (hs : Started s) (ht : exec i s = .next t) : Inv t := by
  obtain ⟨code, u, hexec, hran, hend⟩ := exec_cases i s
  have hdp : Bounded u := by
    have hbody := bodyOf_bounded i hs
    rcases hend with ⟨e, _⟩ | ⟨e, _⟩ <;> rw [e] at hbody <;> exact hbody
  cases hexec.symm.trans ht
  exact complete_inv h hran hdp _ code

theorem engineTurn_keeps_inv {s t : State} (h : Inv s) (ht : engineTurn s = .next t) : Inv t := by
  unfold engineTurn at ht
  split at ht
  · next hrun =>
    have hbusy : s.busy = true := h.mirrors.2 (by simpa [running] using hrun)
    exact exec_keeps_inv _ h (h.busy_started hbusy) ht
  · cases ht; exact h

end Sys2Proof.Machine

namespace Sys2Proof.Proofs

open Sys2Proof.Machine

/-- Settles O51: by whose turn the step is, from the invariant of the state whose queue has moved on. -/
theorem stepKeepsTheInvariants : Obligations.StepKeepsTheInvariants := by
  intro s t h ht
  rcases step_cases s with ⟨_, e⟩ | ⟨rest, _, e⟩ | ⟨op, rest, _, e⟩ <;> rw [e] at ht
  · exact engineTurn_keeps_inv h ht
  · exact engineTurn_keeps_inv (h.setBus s.rdata rest) ht
  · exact hostTurn_keeps_inv (h.setBus s.rdata rest) ht

/-- Settles O52: the reset state is idle, its memory empty and its datapath cleared, whatever MEM_SIZE is. -/
theorem resetMeetsTheInvariants : Obligations.ResetMeetsTheInvariants :=
  ⟨fun _ hpos hle => resetWith_inv hpos hle, resetWith_inv (by decide) (by decide)⟩

end Sys2Proof.Proofs
end

section
/-! Every primitive of the reframer keeps the carry canonical and within its bounds (10_state.md R38, R39). -/

namespace Sys2Proof.Machine

/-- `flush_group` empties the carry, or finds it empty (40_datapath.md R107). -/
theorem flushGroup_canonical (n : Nat) {d : Datapath} (h : d.c.toNat < 2 ^ d.cn.toNat) :
    (flushGroup n d).2.c.toNat < 2 ^ (flushGroup n d).2.cn.toNat := by
  unfold flushGroup
  split
  · exact h
  · exact Nat.one_pos

/-- With at most `n - 1` bits held, a byte completes at most three groups for `n ≥ 3`, and fewer than `n` bits stay. -/
theorem packByte_bounds {n : Nat} (hn : 3 ≤ n) (hn8 : n ≤ 8) {d : Datapath} (h : d.c.toNat < 2 ^ d.cn.toNat)
    (hcn : d.cn.toNat ≤ n - 1) (b : Byte) :
    (packByte n b d).2.c.toNat < 2 ^ (packByte n b d).2.cn.toNat ∧ (packByte n b d).2.cn.toNat ≤ n - 1 ∧
      (packByte n b d).1.length ≤ 3 := by
  obtain ⟨hgroups, hcarry, _⟩ := packByte_spec (n := n) (by omega) b (carries_of_canonical h) (by simp; omega)
  refine ⟨hcarry.canonical, ?_, ?_⟩
  · have := rest_length_lt (n := n) (by omega) (bitsOf (BitVec.ofNat d.cn.toNat d.c.toNat) ++ bitsOf b)
    rw [hcarry.2]
    omega
  · rw [hgroups, whole_length, List.length_append, bitsOf_length, bitsOf_length]
    have : (d.cn.toNat + 8) / n < 4 := (Nat.div_lt_iff_lt_mul (by omega)).2 (by omega)
    omega

/-- With at most 7 bits held, a symbol of at most 8 bits completes at most one byte, and fewer than 8 bits stay. -/
theorem unpackSymbol_bounds {n : Nat} (hn : n ≤ 8) {d : Datapath} (h : d.c.toNat < 2 ^ d.cn.toNat)
    (hcn : d.cn.toNat ≤ 7) (v : BitVec n) :
    (unpackSymbol v d).2.c.toNat < 2 ^ (unpackSymbol v d).2.cn.toNat ∧ (unpackSymbol v d).2.cn.toNat ≤ 7 ∧
      (unpackSymbol v d).1.length ≤ 1 := by
  obtain ⟨hbytes, hcarry, _⟩ := unpackSymbol_spec hn v (carries_of_canonical h) (by simp; omega)
  refine ⟨hcarry.canonical, ?_, ?_⟩
  · have := rest_length_lt (n := 8) (by omega) (bitsOf (BitVec.ofNat d.cn.toNat d.c.toNat) ++ bitsOf v)
    rw [hcarry.2]
    omega
  · rw [hbytes, whole_length, List.length_append, bitsOf_length, bitsOf_length]
    omega

end Sys2Proof.Machine

namespace Sys2Proof.Proofs

open Sys2Proof.Machine

/-- Settles O49: a canonical carry holds a list of bits, so what each primitive keeps is the rest of a stream. -/
theorem carryStaysCanonical : Obligations.CarryStaysCanonical := by
  intro n d hn h
  simp only [List.mem_cons, List.not_mem_nil, or_false] at hn
  have h3 : 3 ≤ n := by omega
  have h8 : n ≤ 8 := by omega
  exact ⟨fun b hcn => packByte_bounds h3 h8 h hcn b, fun v hcn => unpackSymbol_bounds h8 h hcn v,
    flushGroup_canonical n h⟩

end Sys2Proof.Proofs
end

section
/-! The register space: what a host's read or write of it does, the interrupt output, and which events change BUSY, DONE
and RESULT (10_state.md R20 to R36, R47). -/

namespace Sys2Proof.Machine

/-! ### The register map -/

theorem regReached_regOffset (r : Reg) : regReached .b32 (regOffset r) = some r := by cases r <;> rfl

theorem regOffset_aligned (r : Reg) : (regOffset r).toNat % 4 = 0 ∧ (regOffset r).toNat ≤ 0x20 := by
  cases r <;> decide

/-- 10_state.md R21. -/
theorem regReached_eq_none {width : BusWidth} {offset : BitVec 6}
    (h : width ≠ .b32 ∨ offset.toNat % 4 ≠ 0 ∨ 0x20 < offset.toNat) : regReached width offset = none := by
  rw [Option.eq_none_iff_forall_ne_some]
  intro r hr
  obtain ⟨hwidth, hoffset⟩ := regReached_eq_some hr
  obtain ⟨haligned, hmapped⟩ := regOffset_aligned r
  rw [← hoffset] at haligned hmapped
  rcases h with h | h | h
  · exact h hwidth
  · exact h haligned
  · omega

/-- What a register reads as does not depend on the host's queue. -/
theorem readReg_setBus (r : Reg) (s : State) (bus : List (Option HostOp)) :
    readReg r { s with bus := bus } = readReg r s := by cases r <;> rfl

theorem readReg_irqEn (s : State) : readReg .irqEn s = if s.doneIe then 1 else 0 := by
  unfold readReg
  cases s.doneIe <;> rfl

/-! ### Register writes, field by field -/

theorem writeReg_status (v : Word) (s : State) :
    writeReg .status v s = { s with done := if v.getLsbD 1 then false else s.done } := by
  rw [writeReg]
  split <;> rfl

theorem writeReg_inAddr (v : Word) (s : State) :
    writeReg .inAddr v s = { s with inAddr := if s.busy then s.inAddr else v } := by
  rw [writeReg]
  split <;> rfl

theorem writeReg_inLen (v : Word) (s : State) :
    writeReg .inLen v s = { s with inLen := if s.busy then s.inLen else v } := by
  rw [writeReg]
  split <;> rfl

theorem writeReg_outAddr (v : Word) (s : State) :
    writeReg .outAddr v s = { s with outAddr := if s.busy then s.outAddr else v } := by
  rw [writeReg]
  split <;> rfl

theorem writeReg_outCap (v : Word) (s : State) :
    writeReg .outCap v s = { s with outCap := if s.busy then s.outCap else v } := by
  rw [writeReg]
  split <;> rfl

theorem writeReg_cmd_of_idle (w : Word) {s : State} (hb : s.busy = false) : writeReg .cmd w s = startCommand w s := by
  simp [writeReg, hb]

theorem writeReg_cmd_of_busy (w : Word) {s : State} (hb : s.busy = true) : writeReg .cmd w s = s := by
  simp [writeReg, hb]

/-! ### The step of a host turn -/

theorem step_hostTurn {s : State} {op : HostOp} {queue : List (Option HostOp)} (h : s.bus = some op :: queue) :
    step s = hostTurn op { s with bus := queue } := by
  simp only [step, h]

theorem step_regWrite (r : Reg) {s : State} {v : Word} {queue : List (Option HostOp)}
    (h : s.bus = some (.regWrite .b32 (regOffset r) v) :: queue) :
    step s = .next (writeReg r v { s with bus := queue }) := by
  rw [step_hostTurn h, hostTurn, busWrite, regReached_regOffset]

theorem step_regRead (r : Reg) {s : State} {queue : List (Option HostOp)}
    (h : s.bus = some (.regRead .b32 (regOffset r)) :: queue) :
    step s = .next { s with bus := queue, rdata := readReg r s } := by
  rw [step_hostTurn h, hostTurn, busRead, regReached_regOffset, ← readReg_setBus r s queue]
  rfl

theorem step_inertWrite {s : State} {width : BusWidth} {offset : BitVec 6} {v : Word} {queue : List (Option HostOp)}
    (hnone : regReached width offset = none) (h : s.bus = some (.regWrite width offset v) :: queue) :
    step s = .next { s with bus := queue } := by
  rw [step_hostTurn h, hostTurn, busWrite, hnone]

theorem step_inertRead {s : State} {width : BusWidth} {offset : BitVec 6} {queue : List (Option HostOp)}
    (hnone : regReached width offset = none) (h : s.bus = some (.regRead width offset) :: queue) :
    step s = .next { s with bus := queue, rdata := 0 } := by
  rw [step_hostTurn h, hostTurn, busRead, hnone]
  rfl

/-! ### STATUS and irq -/

/-- Concatenation puts `x` above the `n` bits of `y`. -/
theorem toNat_append_add {m n : Nat} (x : BitVec m) (y : BitVec n) : (x ++ y).toNat = x.toNat * 2 ^ n + y.toNat := by
  rw [BitVec.toNat_append, ← Nat.shiftLeft_add_eq_or_of_lt y.isLt, Nat.shiftLeft_eq]

/-- 10_state.md R30, in numbers. -/
theorem statusWord_toNat (s : State) :
    (statusWord s).toNat = 256 * s.result.toNat + 2 * s.done.toNat + s.busy.toNat := by
  simp only [statusWord, toNat_append_add, BitVec.toNat_ofBool, BitVec.ofNat_eq_ofNat, BitVec.toNat_ofNat]
  omega

theorem irq_iff (s : State) : irq s = true ↔ s.done = true ∧ s.doneIe = true := by simp [irq]

theorem irq_of_not_done {s : State} (h : s.done = false) : irq s = false := by simp [irq, h]

theorem irq_of_not_enabled {s : State} (h : s.doneIe = false) : irq s = false := by simp [irq, h]

/-! ### The events that change BUSY, DONE and RESULT -/

/-- How a step from `s` to `t` leaves BUSY, DONE and RESULT: as they were, or by one of the four events of 10_state.md
R27 to R29. -/
inductive StatusEvent (s t : State) : Prop where
  /-- None of the three changes. -/
  | kept (hbusy : t.busy = s.busy) (hdone : t.done = s.done) (hresult : t.result = s.result)
  /-- The engine's turn completes the running command. -/
  | completion (hbus : s.bus = [] ∨ ∃ queue, s.bus = none :: queue) (hrunning : s.busy = true)
      (hbusy : t.busy = false) (hdone : t.done = true)
  /-- The reset input. -/
  | reset (hbus : ∃ queue, s.bus = some .reset :: queue) (hbusy : t.busy = false) (hdone : t.done = false)
  /-- An accepted CMD write. -/
  | start (hbus : ∃ w queue, s.bus = some (.regWrite .b32 0x00 w) :: queue) (hbusy : t.busy = true)
      (hdone : t.done = false) (hresult : t.result = 0)
  /-- A STATUS write with bit 1 set. -/
  | acknowledgement (hbus : ∃ v queue, s.bus = some (.regWrite .b32 0x04 v) :: queue ∧ v.getLsbD 1 = true)
      (hbusy : t.busy = s.busy) (hdone : t.done = false) (hresult : t.result = s.result)

theorem statusEvent_of_regWrite {r : Reg} {v : Word} {s t : State} {queue : List (Option HostOp)}
    (hbus : s.bus = some (.regWrite .b32 (regOffset r) v) :: queue) (ht : t = writeReg r v { s with bus := queue }) :
    StatusEvent s t := by
  subst ht
  rcases writeReg_cases r v { s with bus := queue } with
    e | ⟨rfl, _, e⟩ | ⟨rfl, hv, e⟩ | ⟨_, e⟩ | ⟨_, ia, il, oa, oc, e⟩ <;> rw [e]
  · exact .kept rfl rfl rfl
  · exact .start ⟨v, queue, hbus⟩ rfl rfl rfl
  · exact .acknowledgement ⟨v, queue, hbus, hv⟩ rfl rfl rfl
  · exact .kept rfl rfl rfl
  · exact .kept rfl rfl rfl

theorem statusEvent_of_hostTurn {op : HostOp} {s t : State} {queue : List (Option HostOp)}
    (hbus : s.bus = some op :: queue) (ht : hostTurn op { s with bus := queue } = .next t) : StatusEvent s t := by
  rcases hostTurn_next ht with ⟨width, offset, v, rfl, e⟩ | ⟨v, bus, rfl⟩ | ⟨a, v, rfl, rfl, _⟩ | ⟨rfl, rfl⟩
  · unfold busWrite at e
    split at e
    · next hreg =>
      obtain ⟨rfl, rfl⟩ := regReached_eq_some hreg
      exact statusEvent_of_regWrite hbus e
    · subst e; exact .kept rfl rfl rfl
  · exact .kept rfl rfl rfl
  · unfold portWrite
    split <;> exact .kept rfl rfl rfl
  · exact .reset ⟨queue, hbus⟩ rfl rfl

theorem statusEvent_of_engineTurn {s t : State} {queue : List (Option HostOp)} (h : Inv s)
    (hbus : s.bus = [] ∨ ∃ queue, s.bus = none :: queue) (ht : engineTurn { s with bus := queue } = .next t) :
    StatusEvent s t := by
  rcases engineTurn_next { s with bus := queue } with ⟨hrun, code, u, _, e⟩ | ⟨_, e⟩ <;>
    cases e.symm.trans ht
  · exact .completion hbus (h.mirrors.2 hrun) rfl rfl
  · exact .kept rfl rfl rfl

/-- By whose turn the step is; the invariant says that an engine that runs is BUSY. -/
theorem step_statusEvent {s t : State} (h : Inv s) (ht : step s = .next t) : StatusEvent s t := by
  rcases step_cases s with ⟨hbus, e⟩ | ⟨queue, hbus, e⟩ | ⟨op, queue, hbus, e⟩ <;> rw [e] at ht
  · exact statusEvent_of_engineTurn (queue := s.bus) h (.inl hbus) ht
  · exact statusEvent_of_engineTurn h (.inr ⟨queue, hbus⟩) ht
  · exact statusEvent_of_hostTurn hbus ht

end Sys2Proof.Machine

namespace Sys2Proof.Proofs

open Sys2Proof.Machine

/-- Settles O54: a step is at most one of the events of `StatusEvent`, and each clause asks which of them it can be. -/
theorem statusChangesOnlyAtItsEvents : Obligations.StatusChangesOnlyAtItsEvents := by
  intro s t h ht
  cases step_statusEvent h ht with
  | kept hbusy hdone hresult => simp_all
  | completion hbus hrunning hbusy hdone => simp_all
  | reset hbus hbusy hdone => simp_all
  | start hbus hbusy hdone hresult => simp_all
  | acknowledgement hbus hbusy hdone hresult => simp_all

/-- Settles O7: an accepted write is `startCommand`, and one while BUSY is dropped. -/
theorem cmdWriteStartsCommand : Obligations.CmdWriteStartsCommand := by
  intro s queue w h
  rw [step_regWrite .cmd h]
  constructor <;> intro hb
  · rw [writeReg_cmd_of_idle (s := { s with bus := queue }) w hb, startCommand,
      BitVec.setWidth_eq_extractLsb' (by decide)]
    rfl
  · rw [writeReg_cmd_of_busy (s := { s with bus := queue }) w hb]

/-- Settles O9: the operand registers are written behind BUSY and read as they stand. -/
theorem operandRegisters : Obligations.OperandRegisters := by
  refine ⟨fun s queue v => ⟨fun h => ?_, fun h => ?_, fun h => ?_, fun h => ?_,
    step_regRead .inAddr, step_regRead .inLen, step_regRead .outAddr, step_regRead .outCap⟩,
    fun n => ⟨rfl, rfl, rfl, rfl⟩⟩
  · rw [step_regWrite .inAddr h, writeReg_inAddr]
  · rw [step_regWrite .inLen h, writeReg_inLen]
  · rw [step_regWrite .outAddr h, writeReg_outAddr]
  · rw [step_regWrite .outCap h, writeReg_outCap]

/-- Settles O10: a STATUS write with bit 1 set is `acknowledge`, and any other changes nothing. -/
theorem statusWriteClearsDoneOnly : Obligations.StatusWriteClearsDoneOnly := by
  intro s queue v h
  rw [step_regWrite .status h, writeReg_status]

/-- Settles O11: IRQ_EN is written at any time, MEMSIZE and OUT_LEN never. -/
theorem irqEnAndReadOnlyRegisters : Obligations.IrqEnAndReadOnlyRegisters := by
  refine ⟨fun s queue v => ⟨step_regWrite .irqEn, fun h => ?_, step_regWrite .memsize, step_regRead .memsize,
    step_regWrite .outLen⟩, fun n => rfl⟩
  rw [step_regRead .irqEn h, readReg_irqEn]

/-- Settles O12: each pair of the list is the offset of a register and the value that `readReg` gives of it. -/
theorem registerReadValues : Obligations.RegisterReadValues := by
  intro s queue off v hmem h
  obtain ⟨r, rfl, rfl⟩ : ∃ r, off = regOffset r ∧ v = readReg r s := by
    rw [← readReg_irqEn] at hmem
    simp only [List.mem_cons, List.not_mem_nil, or_false, Prod.mk.injEq] at hmem
    rcases hmem with e | e | e | e | e | e | e | e | e
    exacts [⟨.cmd, e⟩, ⟨.status, e⟩, ⟨.inAddr, e⟩, ⟨.inLen, e⟩, ⟨.outAddr, e⟩, ⟨.outCap, e⟩, ⟨.outLen, e⟩, ⟨.irqEn, e⟩,
      ⟨.memsize, e⟩]
  exact step_regRead r h

/-- Settles O13, by the number that `statusWord` stands for. -/
theorem statusReadLayout : Obligations.StatusReadLayout :=
  fun s _ h => ⟨statusWord s, step_regRead .status h, statusWord_toNat s⟩

/-- Settles O14: such an access reaches no register. -/
theorem inertRegisterAccesses : Obligations.InertRegisterAccesses :=
  fun _ _ _ _ _ hinert => ⟨step_inertRead (regReached_eq_none hinert), step_inertWrite (regReached_eq_none hinert)⟩

/-- Settles O17: each event of the rule leaves DONE or DONE_IE at 0, but for the enabling write while DONE is 1. -/
theorem irqFollowsDoneAndEnable : Obligations.IrqFollowsDoneAndEnable := by
  intro s v n
  refine ⟨irq_iff s, irq_of_not_done rfl, fun hv => ?_, fun hb => ?_, fun hv => ⟨irq_of_not_enabled hv, rfl⟩,
    irq_of_not_done rfl, fun hv hd => (irq_iff _).2 ⟨hd, hv⟩⟩
  · rw [writeReg_status, if_pos hv]; exact irq_of_not_done rfl
  · rw [writeReg_cmd_of_idle v hb]; exact irq_of_not_done rfl

/-- Settles O19: the fields of `State.resetWith`; its memory lists no byte, so each reads as its power-on byte. -/
theorem resetRegisterValues : Obligations.ResetRegisterValues := by
  rintro n s rfl
  exact ⟨rfl, rfl, rfl, rfl, rfl, rfl, rfl, rfl, rfl, rfl, irq_of_not_done rfl, rfl, rfl, rfl, rfl, rfl, rfl, rfl, rfl,
    rfl, fun _ => rfl⟩

end Sys2Proof.Proofs
end

section
/-! What of a command follows its prologue, and what the prologue settles before (41_command_framework.md R134 to R139,
R144): a command refused there has changed no byte. -/

namespace Sys2Proof.Machine

/-- The kind of input of a command (41_command_framework.md R136); a reserved command looks at none. -/
def kindOf (i : Instr) : InputKind := if i ∈ stringCommands then .string else .bytes

/-- REQ of a command (41_command_framework.md R138); DEC32 has no check up front, so any capacity will do. -/
def reqOf : Instr → Nat → Nat
  | .enc16 => reqEnc16
  | .dec16 => reqDec16
  | .enc32 => reqEnc32
  | .enc8 => reqEnc8
  | .dec8 => reqDec8
  | .s2n8 => reqS2n8
  | .dec32 | .rsvd0 | .rsvd8 _ => fun _ => 0

/-- The input loop of ENC16 and its NUL. -/
def enc16Main (s : State) : Flow State := (forInput (emitGroups 4 hexSym fun _ s => s) s).bind emitTerminator

/-- The input loop of DEC16, on an even length. -/
def dec16Main (s : State) : Flow State := (rejectOdd s).bind (forInput dec16Symbol)

/-- The input loop of ENC32, the final group, the padding and the NUL. -/
def enc32Main (s : State) : Flow State :=
  (forInput (emitGroups 5 b32Sym fun _ s => s) s).bind fun s =>
    (enc32Flush s).bind fun s => (padToEight 8 s).bind emitTerminator

/-- The input loop of ENC8, the check digit and the NUL. -/
def enc8Main (s : State) : Flow State :=
  (forInput enc8Byte s).bind fun s => (enc8Check s).bind emitTerminator

/-- The digit loop of DEC8 and its check, on an aligned length. -/
def dec8Main (s : State) : Flow State :=
  (rejectMisaligned s).bind fun s => (digitLoop s.dp.s.toNat 0 s).bind fun r => dec8Check r.1 r.2

/-- The body of a command after its prologue. -/
def mainOf : Instr → State → Flow State
  | .enc16 => enc16Main
  | .dec16 => dec16Main
  | .enc32 => enc32Main
  | .dec32 => forInput dec32Symbol
  | .enc8 => enc8Main
  | .dec8 => dec8Main
  | .s2n8 => forInput s2n8Symbol
  | .rsvd0 | .rsvd8 _ => reservedBody

theorem prologueUnbounded_eq_prologue (kind : InputKind) (s : State) :
    prologueUnbounded kind s = prologue kind (fun _ => 0) s := by
  simp [prologueUnbounded_eq, prologue_eq]

theorem bodyOf_codec {i : Instr} (hi : i ∈ codecCommands) (s : State) :
    bodyOf i s = (prologue (kindOf i) (reqOf i) s).bind (mainOf i) := by
  cases i with
  | rsvd0 | rsvd8 => simp [codecCommands] at hi
  | dec32 => exact congrArg (Flow.bind · _) (prologueUnbounded_eq_prologue .string s)
  | enc16 | dec16 | enc32 | enc8 | dec8 | s2n8 => rfl

theorem bodyOf_reserved {i : Instr} (hi : i ∉ codecCommands) (s : State) : bodyOf i s = .stop .error s := by
  cases i with
  | rsvd0 | rsvd8 => rfl
  | enc16 | dec16 | enc32 | dec32 | enc8 | dec8 | s2n8 => simp [codecCommands] at hi

/-- Refusals leave the output window alone, but for DEC32's OVERFLOW (20_memory.md R67). -/
theorem freeOf_refusal {i : Instr} {code : Code}
    (h : code = .error ∨ code = .arguments ∨ (code = .overflow ∧ i ≠ .dec32)) : freeOf i code = false := by
  rcases h with rfl | rfl | ⟨rfl, hi⟩
  · cases i <;> rfl
  · cases i <;> rfl
  · cases i with
    | dec32 => exact absurd rfl hi
    | _ => rfl

/-! ### Two states that a command cannot tell apart -/

/-- The operands, MEM_SIZE and the input bytes are the same. -/
structure Alike (s s' : State) : Prop where
  /-- IN_ADDR. -/
  inAddr : s'.inAddr = s.inAddr
  /-- IN_LEN. -/
  inLen : s'.inLen = s.inLen
  /-- OUT_ADDR. -/
  outAddr : s'.outAddr = s.outAddr
  /-- OUT_CAP. -/
  outCap : s'.outCap = s.outCap
  /-- MEM_SIZE. -/
  memSize : s'.memSize = s.memSize
  /-- The bytes of the input window. -/
  input : inputBytes s' = inputBytes s

theorem Alike.refl (s : State) : Alike s s := ⟨rfl, rfl, rfl, rfl, rfl, rfl⟩

/-- Being alike does not speak of the datapath. -/
theorem Alike.setDatapath {s s' : State} (h : Alike s s') (d d' : Datapath) :
    Alike { s with dp := d } { s' with dp := d' } := { h with }

theorem Alike.usable_iff {s s' : State} (h : Alike s s') : Usable s' ↔ Usable s := by
  unfold Usable
  rw [h.inAddr, h.inLen, h.outAddr, h.outCap, h.memSize]

theorem Alike.kindSize {s s' : State} (h : Alike s s') (kind : InputKind) :
    Machine.kindSize kind s' = Machine.kindSize kind s := by
  cases kind with
  | string => simp only [Machine.kindSize, inputString, h.input]
  | bytes => simp only [Machine.kindSize, h.inLen]

/-- How command `i` begins in two states that it cannot tell apart: refused in both with the same code and no byte
changed, or past its prologue in both. -/
inductive Begins (i : Instr) (s s' : State) : Prop where
  /-- A reserved command, or one that its prologue has ended. -/
  | refused (code : Code) (u u' : State) (hbody : bodyOf i s = .stop code u) (hbody' : bodyOf i s' = .stop code u')
      (hmem : u.mem = s.mem) (hok : code ≠ .ok) (hfree : freeOf i code = false)
  /-- The input is not empty, and the windows and the capacity are in order. -/
  | main (hcodec : i ∈ codecCommands) (husable : Usable s) (hcap : reqOf i (kindSize (kindOf i) s) ≤ s.outCap.toNat)
      (hbody : bodyOf i s = mainOf i (setLength (kindSize (kindOf i) s) s))
      (hbody' : bodyOf i s' = mainOf i (setLength (kindSize (kindOf i) s) s'))

theorem bodyOf_begins (i : Instr) {s s' : State} (h : Alike s s') : Begins i s s' := by
  by_cases hi : i ∈ codecCommands
  · have hb := bodyOf_codec hi s
    have hb' := bodyOf_codec hi s'
    rw [prologue_eq] at hb hb'
    simp only [h.usable_iff, h.kindSize, h.outCap] at hb'
    by_cases hu : Usable s
    · rw [if_neg (not_not.2 hu)] at hb hb'
      by_cases hz : kindSize (kindOf i) s = 0
      · rw [if_pos hz] at hb hb'
        exact .refused .arguments _ _ hb hb' rfl (by simp) (freeOf_refusal (.inr (.inl rfl)))
      · rw [if_neg hz] at hb hb'
        by_cases hc : s.outCap.toNat < reqOf i (kindSize (kindOf i) s)
        · rw [if_pos hc] at hb hb'
          have hne : i ≠ .dec32 := by rintro rfl; exact Nat.not_lt_zero _ hc
          exact .refused .overflow _ _ hb hb' rfl (by simp) (freeOf_refusal (.inr (.inr ⟨rfl, hne⟩)))
        · rw [if_neg hc] at hb hb'
          exact .main hi hu (Nat.le_of_not_lt hc) hb hb'
    · rw [if_pos hu] at hb hb'
      exact .refused .arguments _ _ hb hb' rfl (by simp) (freeOf_refusal (.inr (.inl rfl)))
  · exact .refused .error _ _ (bodyOf_reserved hi s) (bodyOf_reserved hi s') rfl (by simp) (freeOf_refusal (.inl rfl))

end Sys2Proof.Machine
end

section
/-! Two runs of a command in lockstep: from states alike in operands and input bytes they take the same path, hold the
same datapath and write the same bytes, in the part of the output window below O (20_memory.md R65 to R67). -/

namespace Sys2Proof.Machine

/-- Two runs of a command, in `s` and `s'`, are in step: they are alike with equal datapaths, and the first O + `e`
bytes of the output window are the same in both. The run in `s`, which began in `s₀`, has changed no other byte. -/
structure InStep (s₀ : State) (e : Nat) (s s' : State) : Prop where
  /-- The operands, MEM_SIZE and the input bytes. -/
  alike : Alike s s'
  /-- The datapath. -/
  dp : s'.dp = s.dp
  /-- The windows are valid and disjoint. -/
  usable : Usable s
  /-- The input lies in the input window. -/
  length : s.dp.s.toNat ≤ s.inLen.toNat
  /-- The output written lies in the output window. -/
  room : s.dp.o.toNat + e ≤ s.outCap.toNat
  /-- No byte is written but the output. -/
  kept : KeptOutside s₀ s s.outAddr.toNat (s.dp.o.toNat + e)
  /-- The output. -/
  output : bytesAt s'.mem s.outAddr.toNat (s.dp.o.toNat + e) = bytesAt s.mem s.outAddr.toNat (s.dp.o.toNat + e)

/-- The codes that end a command after its prologue. -/
def MainCode (code : Code) : Prop := code = .ok ∨ code = .overflow ∨ code = .srcerror

/-- Two pieces of pseudocode do the same: they go on with values that `G` relates, or end with the same code in states
that are in step. -/
inductive Together {α : Type} (s₀ : State) (G : α → α → Prop) : Flow α → Flow α → Prop where
  /-- Both go on. -/
  | go {a a' : α} (h : G a a') : Together s₀ G (.go a) (.go a')
  /-- Both end. -/
  | stop {code : Code} {s s' : State} (hcode : MainCode code) (h : InStep s₀ 0 s s') :
      Together s₀ G (.stop code s) (.stop code s')

/-- In states that are in step, a piece of pseudocode does the same and leaves them in step. -/
abbrev Lockstep (s₀ : State) (e : Nat) (f : State → Flow State) : Prop :=
  ∀ s s', InStep s₀ 0 s s' → Together s₀ (InStep s₀ e) (f s) (f s')

variable {s₀ s s' : State} {e : Nat}

theorem Together.bind {α β : Type} {G : α → α → Prop} {H : β → β → Prop} {x x' : Flow α} {k k' : α → Flow β}
    (hx : Together s₀ G x x') (hk : ∀ a a', G a a' → Together s₀ H (k a) (k' a')) :
    Together s₀ H (x.bind k) (x'.bind k') := by
  cases hx with
  | go h => exact hk _ _ h
  | stop hcode h => exact .stop hcode h

theorem Lockstep.bind {f g : State → Flow State} (hf : Lockstep s₀ 0 f) (hg : Lockstep s₀ e g) :
    Lockstep s₀ e fun s => (f s).bind g :=
  fun s s' h => (hf s s' h).bind hg

theorem lockstep_srcerror : Lockstep s₀ e (.stop .srcerror) := fun _ _ h => .stop (.inr (.inr rfl)) h

/-! ### One access -/

theorem InStep.read {k : Nat} (h : InStep s₀ e s s') (hk : k < s.inLen.toNat) :
    readByte s'.mem (s'.inAddr.toNat + k) = readByte s.mem (s.inAddr.toNat + k) := by
  have hin := h.alike.input
  rw [inputBytes, inputBytes, h.alike.inLen] at hin
  exact bytesAt_eq_iff.1 hin k hk

/-- A read inside the input window goes on with the same byte in both runs. -/
theorem InStep.engineRead_bind {α : Type} {G : α → α → Prop} {k : Nat} {f f' : Byte → Flow α} (h : InStep s₀ e s s')
    (hk : k < s.inLen.toNat) (hf : ∀ b, Together s₀ G (f b) (f' b)) :
    Together s₀ G ((engineRead (s.inAddr.toNat + k) s).bind f) ((engineRead (s'.inAddr.toNat + k) s').bind f') := by
  obtain ⟨hin, _, _⟩ := h.usable
  rw [engineRead_inside (s := s) (by omega), engineRead_inside (s := s')
    (by rw [h.alike.inAddr, h.alike.memSize]; omega), h.read hk]
  exact hf _

/-- A datapath that leaves O and S as they are. -/
theorem InStep.withDatapath (h : InStep s₀ e s s') {d : Datapath} (ho : d.o = s.dp.o) (hs : d.s = s.dp.s) :
    InStep s₀ e (withDatapath d s) (withDatapath d s') where
  alike := h.alike.setDatapath d d
  dp := rfl
  usable := h.usable
  length := by rw [withDatapath_dp, hs]; exact h.length
  room := by rw [withDatapath_dp, ho]; exact h.room
  kept := by rw [withDatapath_dp, ho]; exact h.kept
  output := by rw [withDatapath_dp, ho]; exact h.output

/-- The same update of both datapaths, which leaves O and S as they are. -/
theorem InStep.mapDatapath (h : InStep s₀ e s s') (f : Datapath → Datapath) (ho : (f s.dp).o = s.dp.o)
    (hs : (f s.dp).s = s.dp.s) : InStep s₀ e { s with dp := f s.dp } { s' with dp := f s'.dp } := by
  rw [h.dp]
  exact h.withDatapath ho hs

/-- The next byte of output, which lies outside the input window. -/
theorem InStep.store (h : InStep s₀ 0 s s') (v : Byte) (hroom : s.dp.o.toNat < s.outCap.toNat) :
    InStep s₀ 1 (storeByte (s.outAddr.toNat + s.dp.o.toNat) v s)
      (storeByte (s.outAddr.toNat + s.dp.o.toNat) v s') := by
  obtain ⟨_, _, hdisjoint⟩ := h.usable
  have hinput : ∀ t : State, t.inAddr = s.inAddr → t.inLen = s.inLen →
      inputBytes (storeByte (s.outAddr.toNat + s.dp.o.toNat) v t) = inputBytes t := fun t ha hl => by
    refine bytesAt_eq_iff.2 fun k hk => readByte_writeByte_other _ _ ?_
    rw [storeByte_inLen, hl] at hk
    rw [storeByte_inAddr, ha]
    omega
  refine ⟨⟨h.alike.inAddr, h.alike.inLen, h.alike.outAddr, h.alike.outCap, h.alike.memSize, ?_⟩, h.dp, h.usable,
    h.length, hroom, fun x hx => ?_, bytesAt_eq_iff.2 fun k hk => ?_⟩
  · rw [hinput s' h.alike.inAddr h.alike.inLen, hinput s rfl rfl, h.alike.input]
  · simp only [storeByte_outAddr, storeByte_dp] at hx
    rw [← h.kept x (by omega)]
    exact readByte_writeByte_other _ _ (by omega)
  · simp only [storeByte_mem, storeByte_outAddr, storeByte_dp, readByte_writeByte] at hk ⊢
    split
    · rfl
    · exact bytesAt_eq_iff.1 h.output k (by omega)

theorem InStep.advanceOut (h : InStep s₀ 1 s s') : InStep s₀ 0 (advanceOut s) (advanceOut s') := by
  have hroom := h.room
  have hcap := s.outCap.isLt
  have ho : (Machine.advanceOut s).dp.o.toNat = s.dp.o.toNat + 1 := by
    simp only [advanceOut_dp, BitVec.toNat_add, BitVec.ofNat_eq_ofNat, BitVec.toNat_ofNat]
    omega
  refine ⟨h.alike.setDatapath _ _, by simp only [advanceOut_dp, h.dp], h.usable, h.length, ?_, ?_, ?_⟩ <;> rw [ho]
  · exact hroom
  · exact h.kept
  · exact h.output

theorem writeOut_lockstep (v : Byte) : Lockstep s₀ 1 (writeOut v) := by
  intro s s' h
  obtain ⟨_, hout, _⟩ := h.usable
  by_cases hroom : s.dp.o.toNat < s.outCap.toNat
  · rw [writeOut_room hroom hout, writeOut_room (by rw [h.dp, h.alike.outCap]; exact hroom)
      (by rw [h.alike.outAddr, h.alike.outCap, h.alike.memSize]; exact hout), h.alike.outAddr, h.dp]
    exact .go (h.store v hroom)
  · rw [writeOut_full (by omega), writeOut_full (by rw [h.dp, h.alike.outCap]; omega)]
    exact .stop (.inr (.inl rfl)) h

theorem emitSymbol_lockstep (ch : Byte) : Lockstep s₀ 0 (emitSymbol ch) :=
  fun s s' h => (writeOut_lockstep ch s s' h).bind fun _ _ ht => .go ht.advanceOut

/-! ### The loops -/

theorem forEach_lockstep {α : Type} {body : α → State → Flow State} (hbody : ∀ x, Lockstep s₀ 0 (body x)) :
    ∀ xs, Lockstep s₀ 0 (forEach body xs)
  | [] => fun _ _ h => .go h
  | x :: xs => (hbody x).bind (forEach_lockstep hbody xs)

theorem emitGroups_lockstep {n : Nat} (rom : BitVec n → Byte) {note : BitVec n → State → State}
    (hnote : ∀ g s s', InStep s₀ 0 s s' → InStep s₀ 0 (note g s) (note g s')) (b : Byte) :
    Lockstep s₀ 0 (emitGroups n rom note b) := by
  intro s s' h
  have hd := packByte_input n b s.dp
  unfold emitGroups
  rw [h.dp]
  exact forEach_lockstep (fun g t t' ht => emitSymbol_lockstep (rom g) _ _ (hnote g t t' ht)) _ _ _
    (h.withDatapath (by rw [hd]) (by rw [hd]))

theorem emitUnpacked_lockstep {n : Nat} (v : BitVec n) : Lockstep s₀ 0 (emitUnpacked v) := by
  intro s s' h
  have hd := unpackSymbol_input v s.dp
  unfold emitUnpacked
  rw [h.dp]
  exact forEach_lockstep emitSymbol_lockstep _ _ _ (h.withDatapath (by rw [hd]) (by rw [hd]))

theorem InStep.advanceIn (h : InStep s₀ e s s') : InStep s₀ e (advanceIn s) (advanceIn s') :=
  h.mapDatapath (fun d => { d with i := d.i + 1 }) rfl rfl

theorem InStep.addWeight (g : BitVec 3) (h : InStep s₀ e s s') : InStep s₀ e (addWeight g s) (addWeight g s') :=
  h.mapDatapath (fun d => { d with p := d.p + BitVec.ofNat 32 (weight g) }) rfl rfl

theorem InStep.advancePhase (h : InStep s₀ e s s') : InStep s₀ e (advancePhase s) (advancePhase s') :=
  h.mapDatapath (fun d => { d with ph := BitVec.ofNat 2 ((d.ph.toNat + 1) % 3) }) rfl rfl

theorem inputLoop_lockstep {body : Byte → State → Flow State} (hbody : ∀ b, Lockstep s₀ 0 (body b)) :
    ∀ fuel, Lockstep s₀ 0 (inputLoop body fuel)
  | 0 => fun _ _ h => .go h
  | fuel + 1 => fun s s' h => by
    have hlen := h.length
    simp only [inputLoop, h.dp]
    split
    · exact h.engineRead_bind (by omega) fun b => (hbody b s s' h).bind fun t t' ht =>
        inputLoop_lockstep hbody fuel _ _ ht.advanceIn
    · exact .go h

theorem forInput_lockstep {body : Byte → State → Flow State} (hbody : ∀ b, Lockstep s₀ 0 (body b)) :
    Lockstep s₀ 0 (forInput body) := by
  intro s s' h
  rw [forInput, forInput, h.dp]
  exact inputLoop_lockstep hbody _ s s' h

/-! ### The encodes -/

theorem enc16Main_lockstep : Lockstep s₀ 1 enc16Main :=
  (forInput_lockstep fun b => emitGroups_lockstep hexSym (fun _ _ _ h => h) b).bind (writeOut_lockstep 0x00)

theorem flushGroup_input (n : Nat) (d : Datapath) :
    (flushGroup n d).2 = { d with c := (flushGroup n d).2.c, cn := (flushGroup n d).2.cn } := by
  unfold flushGroup
  split <;> rfl

theorem enc32Flush_lockstep : Lockstep s₀ 0 enc32Flush := by
  intro s s' h
  have hd := flushGroup_input 5 s.dp
  have hstep := h.withDatapath (d := (flushGroup 5 s.dp).2) (by rw [hd]) (by rw [hd])
  simp only [enc32Flush, h.dp]
  split
  · exact .go hstep
  · exact emitSymbol_lockstep _ _ _ hstep

theorem padToEight_lockstep : ∀ fuel, Lockstep s₀ 0 (padToEight fuel)
  | 0 => fun _ _ h => .go h
  | fuel + 1 => fun s s' h => by
    simp only [padToEight, h.dp]
    split
    · exact .go h
    · exact (emitSymbol_lockstep padChar s s' h).bind (padToEight_lockstep fuel)

theorem enc32Main_lockstep : Lockstep s₀ 1 enc32Main :=
  (forInput_lockstep fun b => emitGroups_lockstep b32Sym (fun _ _ _ h => h) b).bind
    (enc32Flush_lockstep.bind ((padToEight_lockstep 8).bind (writeOut_lockstep 0x00)))

theorem enc8Byte_lockstep (b : Byte) : Lockstep s₀ 0 (enc8Byte b) :=
  (emitGroups_lockstep b8Sym (fun g _ _ h => h.addWeight g) b).bind fun _ _ h => .go h.advancePhase

theorem enc8Check_lockstep : Lockstep s₀ 0 enc8Check := by
  intro s s' h
  simp only [enc8Check, h.dp]
  split
  · exact .go h
  · exact (emitSymbol_lockstep _ s s' h).bind fun _ _ ht => .go (ht.mapDatapath ({ · with c := 0, cn := 0 }) rfl rfl)

theorem enc8Main_lockstep : Lockstep s₀ 1 enc8Main :=
  (forInput_lockstep enc8Byte_lockstep).bind (enc8Check_lockstep.bind (writeOut_lockstep 0x00))

/-! ### The decodes -/

theorem dec16Symbol_lockstep (ch : Byte) : Lockstep s₀ 0 (dec16Symbol ch) := by
  unfold dec16Symbol
  split
  · exact lockstep_srcerror
  · exact emitUnpacked_lockstep _

theorem dec16Main_lockstep : Lockstep s₀ 0 dec16Main := by
  refine Lockstep.bind (fun s s' h => ?_) (forInput_lockstep dec16Symbol_lockstep)
  rw [rejectOdd, rejectOdd, h.dp]
  split
  · exact lockstep_srcerror s s' h
  · exact .go h

/-- The padding check reads the characters from K on, all of them in the input window. -/
theorem padRun_lockstep (h : InStep s₀ 0 s s') :
    ∀ n k, (∀ j, k ≤ j → j < k + n → j < s.inLen.toNat) →
      Together s₀ (InStep s₀ 0) (padRun n k s) (padRun n k s')
  | 0, _, _ => .stop (.inl rfl) h
  | n + 1, k, hk => h.engineRead_bind (hk k (by omega) (by omega)) fun ch => by
      split
      · exact padRun_lockstep h n (k + 1) fun j _ _ => hk j (by omega) (by omega)
      · exact lockstep_srcerror s s' h

theorem dec32Symbol_lockstep (ch : Byte) : Lockstep s₀ 0 (dec32Symbol ch) := by
  intro s s' h
  have hlen := h.length
  unfold dec32Symbol
  split
  · simp only [dec32Padding, h.dp]
    split
    · exact padRun_lockstep h _ _ fun j _ _ => by omega
    · exact lockstep_srcerror s s' h
  · split
    · exact lockstep_srcerror s s' h
    · exact emitUnpacked_lockstep _ s s' h

theorem digitLoop_lockstep : ∀ (fuel : Nat) (last : BitVec 3) (s s' : State), InStep s₀ 0 s s' →
    Together s₀ (fun r r' => r'.1 = r.1 ∧ InStep s₀ 0 r.2 r'.2) (digitLoop fuel last s) (digitLoop fuel last s')
  | 0, _, _, _, h => .go ⟨rfl, h⟩
  | fuel + 1, last, s, s', h => by
    have hlen := h.length
    simp only [digitLoop, h.dp]
    split
    · refine h.engineRead_bind (by omega) fun b => ?_
      split
      · exact .stop (.inr (.inr rfl)) h
      · exact (emitUnpacked_lockstep _ _ _ (h.addWeight _)).bind fun t t' ht =>
          digitLoop_lockstep fuel _ _ _ ht.advanceIn
    · exact .go ⟨rfl, h⟩

theorem dec8Check_lockstep (last : BitVec 3) : Lockstep s₀ 0 (dec8Check last) := by
  intro s s' h
  simp only [dec8Check, h.dp]
  split
  · exact .go h
  · split
    · exact .go h
    · exact lockstep_srcerror s s' h

theorem dec8Main_lockstep : Lockstep s₀ 0 dec8Main := by
  refine Lockstep.bind (fun s s' h => ?_) fun s s' h => ?_
  · simp only [rejectMisaligned, h.dp]
    split
    · exact .go h
    · exact lockstep_srcerror s s' h
  · rw [h.dp]
    refine (digitLoop_lockstep _ 0 s s' h).bind fun r r' hr => ?_
    rw [hr.1]
    exact dec8Check_lockstep r.1 _ _ hr.2

theorem s2n8Symbol_lockstep (ch : Byte) : Lockstep s₀ 0 (s2n8Symbol ch) := by
  unfold s2n8Symbol
  split
  · exact lockstep_srcerror
  · exact emitSymbol_lockstep _

/-! ### Every command -/

/-- The bytes that a command writes after the first O of its output window: the NUL of an encode. -/
def nulOf (i : Instr) : Nat := if i ∈ encodeCommands then 1 else 0

theorem mainOf_lockstep {i : Instr} (hi : i ∈ codecCommands) : Lockstep s₀ (nulOf i) (mainOf i) := by
  cases i with
  | rsvd0 | rsvd8 => simp [codecCommands] at hi
  | enc16 => exact enc16Main_lockstep
  | dec16 => exact dec16Main_lockstep
  | enc32 => exact enc32Main_lockstep
  | dec32 => exact forInput_lockstep dec32Symbol_lockstep
  | enc8 => exact enc8Main_lockstep
  | dec8 => exact dec8Main_lockstep
  | s2n8 => exact forInput_lockstep s2n8Symbol_lockstep

end Sys2Proof.Machine
end

section
/-! After a prologue that has checked REQ, the output never outgrows OUT_CAP: no command but DEC32 ends with OVERFLOW
past its prologue (41_command_framework.md R137, R138; 40_datapath.md R115). -/

namespace Sys2Proof.Machine

/-- Where a piece of pseudocode goes on, `G` holds; and it does not end with OVERFLOW. -/
abbrev Fits {α : Type} (G : α → Prop) : Flow α → Prop := Holds G fun code _ => code ≠ .overflow

/-- A piece of pseudocode does not end with OVERFLOW. -/
abbrev NoOverflow {α : Type} (x : Flow α) : Prop := Fits (fun _ => True) x

/-- The output window is in memory and has room for `k` bytes from O on. -/
structure Roomy (k : Nat) (s : State) : Prop where
  /-- The output window is in memory. -/
  out : s.outAddr.toNat + s.outCap.toNat ≤ s.memSize
  /-- The room left. -/
  room : s.dp.o.toNat + k ≤ s.outCap.toNat

/-! ### The encodes -/

theorem Roomy.emitSymbol {k : Nat} {s : State} (h : Roomy (k + 1) s) (ch : Byte) :
    ∃ t, emitSymbol ch s = .go t ∧ Roomy k t ∧ t.dp.o.toNat = s.dp.o.toNat + 1 ∧ t.outCap = s.outCap := by
  have hroom := h.room
  have ho := emitted_o (s := s) (out := [ch]) (by rw [List.length_singleton]; omega)
  refine ⟨_, emitSymbol_room (by omega) h.out, ⟨h.out, ?_⟩, ho, rfl⟩
  rw [ho]
  show s.dp.o.toNat + 1 + k ≤ s.outCap.toNat
  omega

theorem Roomy.emitTerminator {s : State} (h : Roomy 1 s) : NoOverflow (emitTerminator s) := by
  have hroom := h.room
  rw [emitTerminator_room (by omega) h.out]
  trivial

/-- What the loop of an encode leaves in `t`, from a command that began in `s`, with room for `k` bytes more: the groups
of the input have been written, and the rest of its bits is held. -/
structure Encoded (n k : Nat) (s t : State) : Prop where
  /-- The room left. -/
  roomy : Roomy k t
  /-- OUT_CAP stays. -/
  outCap : t.outCap = s.outCap
  /-- A symbol for each whole group. -/
  o : t.dp.o.toNat = 8 * s.inLen.toNat / n
  /-- S stays. -/
  length : t.dp.s.toNat = s.inLen.toNat
  /-- The bits held. -/
  carries : Carries t.dp (rest n (bitStream (inputBytes s)))

theorem encodeLoop_encoded {n k : Nat} (hn : 0 < n) (hn8 : n ≤ 8) (rom : BitVec n → Byte)
    {note : BitVec n → State → State} (w : BitVec n → Nat)
    (hnote : ∀ g s, note g s = { s with dp := { s.dp with p := s.dp.p + BitVec.ofNat 32 (w g) } })
    {after : State → State} (hafter : ∀ s, ∃ ph, after s = { s with dp := { s.dp with ph := ph } })
    {body : Byte → State → Flow State}
    (hbody : ∀ b s, body b s = (emitGroups n rom note b s).bind fun s => .go (after s)) {s : State} (hs : Started s)
    (hu : Usable s) (hroom : 8 * s.inLen.toNat / n + k ≤ s.outCap.toNat) :
    ∃ t, forInput body (setLength s.inLen.toNat s) = .go t ∧ Encoded n k s t := by
  obtain ⟨t, hgo, honly, _, ho, hcarry, _, hlen⟩ :=
    encodeLoop_started hn hn8 rom w hnote hafter hbody hs hu (by omega)
  have hcap : t.outCap = s.outCap := by rw [honly]
  refine ⟨t, hgo, ⟨?_, by rw [ho, hcap]; exact hroom⟩, hcap, ho, hlen, hcarry⟩
  rw [honly]
  exact hu.2.1

theorem bind_go_right {α : Type} (x : Flow α) : (x.bind fun a => .go a) = x := by cases x <;> rfl

/-- The loop of ENC16 and ENC32, whose groups are only emitted. -/
theorem plainLoop_encoded {n k : Nat} (hn : 0 < n) (hn8 : n ≤ 8) (rom : BitVec n → Byte) {s : State} (hs : Started s)
    (hu : Usable s) (hroom : 8 * s.inLen.toNat / n + k ≤ s.outCap.toNat) :
    ∃ t, forInput (emitGroups n rom fun _ s => s) (setLength s.inLen.toNat s) = .go t ∧ Encoded n k s t :=
  encodeLoop_encoded hn hn8 rom (fun _ => 0) (fun _ s => by simp) (after := id) (fun s => ⟨s.dp.ph, rfl⟩)
    (fun _ _ => (bind_go_right _).symm) hs hu hroom

theorem enc16Main_fits {s : State} (hs : Started s) (hu : Usable s)
    (hcap : reqEnc16 s.inLen.toNat ≤ s.outCap.toNat) :
    NoOverflow (enc16Main (setLength s.inLen.toNat s)) := by
  unfold reqEnc16 at hcap
  obtain ⟨t, hgo, ht⟩ := plainLoop_encoded (n := 4) (k := 1) (by omega) (by omega) hexSym hs hu (by omega)
  rw [enc16Main, hgo, bind_go]
  exact ht.roomy.emitTerminator

/-- The final group takes a symbol where bits are held. -/
theorem enc32Flush_roomy {k : Nat} {s : State} {r : List Bool} (hc : Carries s.dp r) (hr : r.length < 5)
    (h : Roomy ((r.length + 4) / 5 + k) s) :
    ∃ t, enc32Flush s = .go t ∧ Roomy k t ∧ t.dp.o.toNat = s.dp.o.toNat + (r.length + 4) / 5 ∧ t.outCap = s.outCap := by
  obtain ⟨hgroup, _, _⟩ := flushGroup_spec (n := 5) (by omega) hc hr
  have ho : (flushGroup 5 s.dp).2.o = s.dp.o := by rw [flushGroup_input]
  have hroom := h.room
  unfold enc32Flush
  simp only [hgroup]
  by_cases hnil : r = []
  · subst hnil
    exact ⟨_, rfl, ⟨h.out, by simpa [ho] using hroom⟩, by simp [ho], rfl⟩
  · have hpos : 0 < r.length := List.length_pos_iff.2 hnil
    have hone : (r.length + 4) / 5 = 1 := by omega
    rw [if_neg hnil]
    rw [hone] at hroom ⊢
    obtain ⟨t, hgo, ht, hto, hcap⟩ := Roomy.emitSymbol (k := k) (s := withDatapath (flushGroup 5 s.dp).2 s)
      ⟨h.out, by rw [withDatapath_dp, ho]; show _ ≤ s.outCap.toNat; omega⟩ (b32Sym (element 5 r 0))
    exact ⟨t, hgo, ht, by rw [hto, withDatapath_dp, ho], hcap⟩

theorem padToEight_roomy {k : Nat} {s : State} (h : Roomy ((8 - s.dp.o.toNat % 8) % 8 + k) s) :
    ∃ t, padToEight 8 s = .go t ∧ Roomy k t := by
  have hroom := h.room
  refine ⟨_, padToEight_room 8 s h.out (Nat.mod_lt _ (by omega)) (by omega), h.out, ?_⟩
  rw [emitted_o (by rw [List.length_replicate]; omega), List.length_replicate]
  show s.dp.o.toNat + (8 - s.dp.o.toNat % 8) % 8 + k ≤ s.outCap.toNat
  omega

theorem enc32Main_fits {s : State} (hs : Started s) (hu : Usable s)
    (hcap : reqEnc32 s.inLen.toNat ≤ s.outCap.toNat) :
    NoOverflow (enc32Main (setLength s.inLen.toNat s)) := by
  unfold reqEnc32 at hcap
  obtain ⟨t, hgo, ht⟩ := plainLoop_encoded (n := 5)
    (k := (8 * s.inLen.toNat % 5 + 4) / 5) (by omega) (by omega) b32Sym hs hu (by omega)
  have hrest : (rest 5 (bitStream (inputBytes s))).length = 8 * s.inLen.toNat % 5 := by
    rw [rest_length, bitStream_length, inputBytes, bytesAt_length]
  obtain ⟨u, hflush, hu', ho, hucap⟩ := enc32Flush_roomy (k := 0) ht.carries (by omega) (by rw [hrest]; exact ht.roomy)
  obtain ⟨v, hpad, hv⟩ := padToEight_roomy (k := 1) (s := u)
    ⟨hu'.out, by rw [ho, ht.o, hrest, hucap, ht.outCap]; omega⟩
  rw [enc32Main, hgo, bind_go, hflush, bind_go, hpad, bind_go]
  exact hv.emitTerminator

/-- The check digit takes a symbol where the length is not a multiple of 3. -/
theorem enc8Check_roomy {k : Nat} {s : State} (h : Roomy ((s.dp.s.toNat % 3 + 2) / 3 + k) s) :
    ∃ t, enc8Check s = .go t ∧ Roomy k t := by
  have hroom := h.room
  unfold enc8Check
  simp only
  split
  · exact ⟨s, rfl, h.out, by omega⟩
  · obtain ⟨t, hgo, ht, _⟩ := Roomy.emitSymbol (k := k) ⟨h.out, by omega⟩ (b8Sym (checkDigit (s.dp.s.toNat % 3) s.dp))
    rw [hgo, bind_go]
    exact ⟨_, rfl, ht.out, ht.room⟩

theorem enc8Main_fits {s : State} (hs : Started s) (hu : Usable s) (hcap : reqEnc8 s.inLen.toNat ≤ s.outCap.toNat) :
    NoOverflow (enc8Main (setLength s.inLen.toNat s)) := by
  have hreq : 8 * s.inLen.toNat / 3 + ((s.inLen.toNat % 3 + 2) / 3 + 1) = reqEnc8 s.inLen.toNat := by
    have hmod : s.inLen.toNat % 3 = 0 ∨ s.inLen.toNat % 3 = 1 ∨ s.inLen.toNat % 3 = 2 := by omega
    unfold reqEnc8
    rcases hmod with h | h | h <;> rw [h] <;> simp only [enc8Tail] <;> omega
  obtain ⟨t, hgo, ht⟩ := encodeLoop_encoded (n := 3) (k := (s.inLen.toNat % 3 + 2) / 3 + 1)
    (by omega) (by omega) b8Sym weight (fun _ _ => rfl) (after := advancePhase) (fun s => ⟨_, rfl⟩)
    (body := enc8Byte) (fun _ _ => rfl) hs hu (by omega)
  obtain ⟨u, hcheck, hu'⟩ := enc8Check_roomy (k := 1) (s := t) (by rw [ht.length]; exact ht.roomy)
  rw [enc8Main, hgo, bind_go, hcheck, bind_go]
  exact hu'.emitTerminator

/-! ### The decodes -/

/-- A decode keeps pace: what it has written and what it holds are together the `n` bits of each symbol consumed, and
the output window has room for the whole bytes of all of them. -/
structure Paced (n : Nat) (s : State) : Prop where
  /-- The windows are in memory. -/
  ready : Ready s
  /-- The room for the output. -/
  fits : n * s.dp.s.toNat / 8 ≤ s.outCap.toNat
  /-- The bits written and the bits held. -/
  count : ∃ r, Carries s.dp r ∧ r.length < 8 ∧ 8 * s.dp.o.toNat + r.length = n * s.dp.i.toNat

/-- A symbol still to come has room for the byte that it may complete. -/
theorem emitUnpacked_fits {n : Nat} (hn : n ≤ 8) (v : BitVec n) {s : State} (h : Paced n s)
    (hlt : s.dp.i.toNat < s.dp.s.toNat) : Fits (fun t => Paced n (advanceIn t)) (emitUnpacked v s) := by
  obtain ⟨r, hcarry, hr, hcount⟩ := h.count
  have hbits : 8 * s.dp.o.toNat + (r ++ bitsOf v).length = n * (s.dp.i.toNat + 1) := by
    rw [List.length_append, bitsOf_length, Nat.mul_add]
    omega
  have hle : n * (s.dp.i.toNat + 1) ≤ n * s.dp.s.toNat := Nat.mul_le_mul_left n hlt
  have hfits := h.fits
  refine (emitUnpacked_emits hn v hcarry hr (by rw [whole_length]; omega) h.ready.out).mono (fun t ht => ?_)
    fun _ _ hf => hf.elim
  obtain ⟨hemits, hi, hlen⟩ := ht
  have hlt' : t.dp.i.toNat < t.dp.s.toNat := by rw [hi, hlen]; exact hlt
  have ho := hemits.o
  have hout := h.ready.out
  have hinp := h.ready.inp
  rw [whole_length] at ho
  refine ⟨⟨?_, ?_⟩, ?_, rest 8 (r ++ bitsOf v), hemits.carries, rest_length_lt (by omega) _, ?_⟩
  · show t.outAddr.toNat + t.outCap.toNat ≤ t.memSize
    rwa [hemits.outAddr, hemits.outCap, hemits.memSize]
  · show t.inAddr.toNat + t.dp.s.toNat ≤ t.memSize
    rwa [hemits.inAddr, hlen, hemits.memSize]
  · show n * t.dp.s.toNat / 8 ≤ t.outCap.toNat
    rwa [hlen, hemits.outCap]
  · rw [advanceIn_i hlt', hi, rest_length, advanceIn_dp, ← hbits]
    simp only
    omega

/-- An input loop each of whose symbols keeps pace. -/
theorem inputLoop_fits {n : Nat} {body : Byte → State → Flow State}
    (hbody : ∀ b s, Paced n s → s.dp.i.toNat < s.dp.s.toNat → Fits (fun t => Paced n (advanceIn t)) (body b s)) :
    ∀ (fuel : Nat) (s : State), Paced n s → NoOverflow (inputLoop body fuel s)
  | 0, _, _ => trivial
  | fuel + 1, s, h => by
    have hinp := h.ready.inp
    rw [inputLoop]
    split
    · next hlt =>
      rw [engineRead_inside (by omega), bind_go]
      exact (hbody _ s h hlt).bind fun t ht => inputLoop_fits hbody fuel _ ht
    · trivial

theorem fits_srcerror {α : Type} {G : α → Prop} (s : State) : Fits G (.stop .srcerror s) := by simp

theorem dec16Main_fits {s : State} (h : Paced 4 s) : NoOverflow (dec16Main s) := by
  unfold dec16Main rejectOdd
  split
  · exact fits_srcerror s
  · refine inputLoop_fits (n := 4) (fun b t ht hlt => ?_) _ s h
    unfold dec16Symbol
    split
    · exact fits_srcerror t
    · exact emitUnpacked_fits (by omega) _ ht hlt

/-- A value emitted whole is a symbol of width 8, of which the carry holds nothing back. -/
theorem s2n8Symbol_fits (ch : Byte) {s : State} (h : Paced 8 s) (hlt : s.dp.i.toNat < s.dp.s.toNat) :
    Fits (fun t => Paced 8 (advanceIn t)) (s2n8Symbol ch s) := by
  obtain ⟨r, hcarry, hr, hcount⟩ := h.count
  have hfits := h.fits
  unfold s2n8Symbol
  split
  · exact fits_srcerror s
  · next v _ =>
    have hroom : s.dp.o.toNat + [v.setWidth 8].length ≤ s.outCap.toNat := by rw [List.length_singleton]; omega
    rw [emitByte_eq, emitSymbol_room hroom h.ready.out]
    refine ⟨⟨h.ready.out, h.ready.inp⟩, h.fits, r, hcarry, hr, ?_⟩
    rw [advanceIn_i (s := emitted [v.setWidth 8] s) hlt]
    show 8 * (emitted [v.setWidth 8] s).dp.o.toNat + r.length = 8 * (s.dp.i.toNat + 1)
    rw [emitted_o hroom, List.length_singleton]
    omega

theorem addWeight_paced {n : Nat} (g : BitVec 3) {s : State} (h : Paced n s) : Paced n (addWeight g s) :=
  ⟨⟨h.ready.out, h.ready.inp⟩, h.fits, h.count⟩

theorem digitLoop_fits : ∀ (fuel : Nat) (last : BitVec 3) (s : State), Paced 3 s →
    NoOverflow (digitLoop fuel last s)
  | 0, _, _, _ => trivial
  | fuel + 1, last, s, h => by
    have hinp := h.ready.inp
    rw [digitLoop]
    split
    · next hlt =>
      rw [engineRead_inside (by omega), bind_go]
      split
      · exact fits_srcerror s
      · exact (emitUnpacked_fits (by omega) _ (addWeight_paced _ h) hlt).bind fun t ht => digitLoop_fits fuel _ _ ht
    · trivial

theorem dec8Check_fits (last : BitVec 3) (s : State) : NoOverflow (dec8Check last s) := by
  unfold dec8Check
  simp only
  split
  · trivial
  · split
    · trivial
    · exact fits_srcerror s

theorem dec8Main_fits {s : State} (h : s.dp.s.toNat % 8 = 0 ∨ s.dp.s.toNat % 8 = 3 ∨ s.dp.s.toNat % 8 = 6 → Paced 3 s) :
    NoOverflow (dec8Main s) := by
  unfold dec8Main rejectMisaligned
  simp only
  split
  · next haligned => exact (digitLoop_fits _ 0 s (h haligned)).bind fun r _ => dec8Check_fits r.1 r.2
  · exact fits_srcerror s

theorem setLength_paced {n : Nat} (kind : InputKind) {s : State} (hs : Started s) (hu : Usable s)
    (hfits : n * kindSize kind s / 8 ≤ s.outCap.toNat) : Paced n (setLength (kindSize kind s) s) where
  ready := ready_setLength hu
  fits := by rwa [setLength_kind]
  count := by
    rw [setLength_started hs]
    exact ⟨[], carries_zero, by simp, by simp [Datapath.zero]⟩

/-! ### Every command -/

theorem mainOf_fits {i : Instr} (hi : i ≠ .dec32) {s : State} (hs : Started s) (hu : Usable s)
    (hcap : reqOf i (kindSize (kindOf i) s) ≤ s.outCap.toNat) :
    NoOverflow (mainOf i (setLength (kindSize (kindOf i) s) s)) := by
  cases i with
  | rsvd0 | rsvd8 => simp [mainOf, reservedBody]
  | enc16 => exact enc16Main_fits hs hu hcap
  | enc32 => exact enc32Main_fits hs hu hcap
  | enc8 => exact enc8Main_fits hs hu hcap
  | dec32 => exact absurd rfl hi
  | dec16 =>
    refine dec16Main_fits (setLength_paced .string hs hu ?_)
    have hreq : kindSize .string s / 2 ≤ s.outCap.toNat := hcap
    omega
  | dec8 =>
    refine dec8Main_fits (s := setLength (kindSize .bytes s) s) fun haligned => setLength_paced .bytes hs hu ?_
    rw [setLength_kind] at haligned
    have hreq : 3 * (kindSize .bytes s / 8) + kindSize .bytes s % 8 / 3 ≤ s.outCap.toNat := hcap
    omega
  | s2n8 =>
    refine inputLoop_fits (fun b _ ht hlt => s2n8Symbol_fits b ht hlt) _ _ (setLength_paced .string hs hu ?_)
    have hreq : kindSize .string s ≤ s.outCap.toNat := hcap
    omega

end Sys2Proof.Machine
end

section
/-! What a command leaves in memory, by its result (20_memory.md R65 to R67). -/

namespace Sys2Proof.Machine

/-- Two states alike, just after the start, are in step once the prologue has set S. -/
theorem setLength_inStep {s s' : State} (h : Alike s s') (hs : Started s) (hs' : Started s') (hu : Usable s)
    (kind : InputKind) :
    InStep s 0 (setLength (kindSize kind s) s) (setLength (kindSize kind s) s') where
  alike := h.setDatapath _ _
  dp := by rw [setLength_started hs, setLength_started hs']
  usable := hu
  length := by rw [setLength_kind]; exact kindSize_le kind s
  room := by rw [setLength_started hs]; exact Nat.zero_le _
  kept := fun _ _ => rfl
  output := by rw [setLength_started hs]; rfl

theorem mainOf_together {i : Instr} (hi : i ∈ codecCommands) {s s' : State} (h : Alike s s') (hs : Started s)
    (hs' : Started s') (hu : Usable s) :
    Together s (InStep s (nulOf i)) (mainOf i (setLength (kindSize (kindOf i) s) s))
      (mainOf i (setLength (kindSize (kindOf i) s) s')) :=
  mainOf_lockstep hi _ _ (setLength_inStep h hs hs' hu (kindOf i))

/-- A command that can end with OK before its body falls off the end is no encode, and writes no NUL. -/
theorem nulOf_of_stopsOf_ok {i : Instr} (h : stopsOf i .ok) : nulOf i = 0 := by
  cases i with
  | dec16 | dec32 | dec8 | s2n8 | rsvd0 | rsvd8 => rfl
  | enc16 | enc32 | enc8 => simp [stopsOf, EncodeCode] at h

/-- In states alike, just after the start, a command completes with the same code, and after OK the two runs are in
step, the NUL of an encode included. -/
theorem exec_alike (i : Instr) {s s' : State} (h : Alike s s') (hs : Started s) (hs' : Started s') :
    ∃ code u u', exec i s = .next (complete (freeOf i code) code u) ∧
      exec i s' = .next (complete (freeOf i code) code u') ∧ Ran s u ∧ (code = .ok → InStep s (nulOf i) u u') := by
  have hrun := bodyOf_runs i s
  rw [exec_eq, exec_eq]
  cases bodyOf_begins i h with
  | refused code u u' hbody hbody' _ hok _ =>
    rw [hbody] at hrun ⊢
    rw [hbody']
    exact ⟨code, u, u', rfl, rfl, hrun.1, fun hc => absurd hc hok⟩
  | main hi hu _ hbody hbody' =>
    have htogether := mainOf_together hi h hs hs' hu
    rw [← hbody, ← hbody'] at htogether
    generalize bodyOf i s = x at hrun htogether ⊢
    generalize bodyOf i s' = x' at htogether ⊢
    cases htogether with
    | go hstep => exact ⟨.ok, _, _, rfl, rfl, hrun, fun _ => hstep⟩
    | stop hcode hstep =>
      refine ⟨_, _, _, rfl, rfl, hrun.1, ?_⟩
      rintro rfl
      rwa [nulOf_of_stopsOf_ok hrun.2]

theorem complete_mem_ok (i : Instr) (u : State) : (complete (freeOf i .ok) .ok u).mem = u.mem := by cases i <;> rfl

/-- Past its prologue a command ends with OK, SRCERROR, or, if it is DEC32, with OVERFLOW. -/
theorem mainOf_code {i : Instr} (hi : i ∈ codecCommands) {s u : State} {code : Code} (hs : Started s) (hu : Usable s)
    (hcap : reqOf i (kindSize (kindOf i) s) ≤ s.outCap.toNat)
    (hstop : mainOf i (setLength (kindSize (kindOf i) s) s) = .stop code u) :
    code = .ok ∨ code = .srcerror ∨ (code = .overflow ∧ i = .dec32) := by
  have htogether := mainOf_together hi (Alike.refl s) hs hs hu
  rw [hstop] at htogether
  cases htogether with
  | stop hcode _ =>
    rcases hcode with rfl | rfl | rfl
    · exact .inl rfl
    · refine .inr (.inr ⟨rfl, by_contra fun hne => ?_⟩)
      have hfits := mainOf_fits hne hs hu hcap
      rw [hstop] at hfits
      exact hfits rfl
    · exact .inr (.inl rfl)

/-- The refusals of 20_memory.md R67 come from the prologue, before any store. -/
theorem exec_refusal_mem {i : Instr} {s t : State} {code : Code} (hs : Started s) (ht : exec i s = .next t)
    (hcode : code = .error ∨ code = .arguments ∨ (code = .overflow ∧ i ≠ .dec32))
    (hresult : t.result = resultBits code) : t.mem = s.mem := by
  obtain ⟨code', u, hexec, _, hend⟩ := exec_cases i s
  cases hexec.symm.trans ht
  obtain rfl := resultBits_injective hresult
  have hstop : bodyOf i s = .stop code' u := by
    rcases hend with ⟨_, rfl⟩ | ⟨hstop, _⟩
    · simp at hcode
    · exact hstop
  cases bodyOf_begins i (Alike.refl s) with
  | refused code u' _ hbody _ hmem _ _ =>
    cases hbody.symm.trans hstop
    rw [complete_mem, freeOf_refusal hcode]
    exact hmem
  | main hi hu hcap hbody _ =>
    rcases mainOf_code hi hs hu hcap (hbody.symm.trans hstop) with rfl | rfl | ⟨rfl, rfl⟩ <;> simp at hcode

end Sys2Proof.Machine

namespace Sys2Proof.Proofs

open Sys2Proof.Machine

/-- Settles O44: each of these results is a refusal, and refusals come from the prologue. -/
theorem refusedCommandsWriteNothing : Obligations.RefusedCommandsWriteNothing := by
  rintro i s t hs ht (hresult | hresult | ⟨hresult, hne⟩)
  · exact exec_refusal_mem hs ht (code := .error) (.inl rfl) hresult
  · exact exec_refusal_mem hs ht (code := .arguments) (.inr (.inl rfl)) hresult
  · exact exec_refusal_mem hs ht (code := .overflow) (.inr (.inr ⟨rfl, hne⟩)) hresult

/-- Settles O45: a run is in step with itself, and so has changed nothing but its output. -/
theorem okWritesOnlyThePrefix : Obligations.OkWritesOnlyThePrefix := by
  intro i s t hs ht hresult
  obtain ⟨code, u, _, hexec, _, hran, hok⟩ := exec_alike i (Alike.refl s) hs hs
  cases hexec.symm.trans ht
  obtain rfl := resultBits_injective (b := .ok) hresult
  have hstep := hok rfl
  have hkept := hstep.kept
  have hroom := hstep.room
  rw [hran.outAddr] at hkept
  rw [hran.outCap] at hroom
  refine ⟨fun x hx => ?_, hroom⟩
  rw [complete_mem_ok]
  exact hkept x hx

/-- Settles O46: the two runs are in step, and the output is what runs in step have in common. -/
theorem outcomeDependsOnInputWindowOnly : Obligations.OutcomeDependsOnInputWindowOnly := by
  intro i s s' t t' hs hs' hia hil hoa hoc hms hinput ht ht'
  obtain ⟨code, u, u', hexec, hexec', hran, hok⟩ :=
    exec_alike i ⟨hia.symm, hil.symm, hoa.symm, hoc.symm, hms.symm, hinput.symm⟩ hs hs'
  cases hexec.symm.trans ht
  cases hexec'.symm.trans ht'
  refine ⟨rfl, fun hresult => ?_⟩
  obtain rfl := resultBits_injective (b := .ok) hresult
  have hstep := hok rfl
  have houtput := hstep.output
  rw [hran.outAddr] at houtput
  refine ⟨congrArg Datapath.o hstep.dp.symm, ?_⟩
  rw [complete_mem_ok, complete_mem_ok]
  exact houtput.symm

end Sys2Proof.Proofs
end

section
/-! The agents that change a byte of memory: the host's buffer port while idle, a running command, and a reset that
aborts one (20_memory.md R60 to R62, R65; 70_reset_and_hazards.md R231, R240). -/

namespace Sys2Proof.Machine

/-! ### The buffer port -/

theorem step_memRead {s : State} {a : Nat} {queue : List (Option HostOp)} (hok : ¬(s.busy = true ∧ a < s.memSize))
    (h : s.bus = some (.memRead a) :: queue) :
    step s = .next { s with bus := queue, rdata := (portRead a s).setWidth 32 } := by
  rw [step_hostTurn h, hostTurn, if_neg (by rw [portViolation_iff]; exact hok)]
  rfl

theorem step_memWrite {s : State} {a : Nat} {v : Byte} {queue : List (Option HostOp)}
    (hok : ¬(s.busy = true ∧ a < s.memSize)) (h : s.bus = some (.memWrite a v) :: queue) :
    step s = .next (portWrite a v { s with bus := queue }) := by
  rw [step_hostTurn h, hostTurn, if_neg (by rw [portViolation_iff]; exact hok)]

/-- 70_reset_and_hazards.md R240. -/
theorem step_portViolation {s : State} {a : Nat} {v : Byte} {queue : List (Option HostOp)} (hb : s.busy = true)
    (ha : a < s.memSize) (h : s.bus = some (.memRead a) :: queue ∨ s.bus = some (.memWrite a v) :: queue) :
    step s = .fault .hostMemoryWhileBusy := by
  have hviolation : portViolation a { s with bus := queue } = true := (portViolation_iff a _).2 ⟨hb, ha⟩
  rcases h with h | h <;> rw [step_hostTurn h, hostTurn, if_pos hviolation]

theorem portWrite_inside {a : Nat} (v : Byte) {s : State} (h : a < s.memSize) : portWrite a v s = storeByte a v s := by
  rw [portWrite, if_pos h]

/-! ### What leaves memory alone -/

theorem writeReg_mem (r : Reg) (v : Word) (s : State) :
    (writeReg r v s).mem = s.mem ∧ (writeReg r v s).memSize = s.memSize := by
  rcases writeReg_cases r v s with e | ⟨_, _, e⟩ | ⟨_, _, e⟩ | ⟨_, e⟩ | ⟨_, ia, il, oa, oc, e⟩ <;> rw [e] <;>
    exact ⟨rfl, rfl⟩

theorem busWrite_mem (width : BusWidth) (offset : BitVec 6) (v : Word) (s : State) :
    (busWrite width offset v s).mem = s.mem ∧ (busWrite width offset v s).memSize = s.memSize := by
  unfold busWrite
  split
  · exact writeReg_mem _ v s
  · exact ⟨rfl, rfl⟩

theorem portWrite_memSize (a : Nat) (v : Byte) (s : State) : (portWrite a v s).memSize = s.memSize := by
  unfold portWrite
  split <;> rfl

/-- A byte outside buffer memory is never listed. -/
theorem readByte_outside {m : Memory} {n a : Nat} (h : ∀ c ∈ m, c.1 < n) (ha : n ≤ a) :
    readByte m a = Config.powerOnByte a := by
  induction m with
  | nil => rfl
  | cons c m ih =>
    obtain ⟨b, w⟩ := c
    have hb : b < n := h (b, w) (by simp)
    have hm := ih fun c hc => h c (by simp [hc])
    rwa [readByte, lookup, if_neg (by omega)]

/-! ### Who changes a byte -/

/-- The byte at `a` is in the output window and not in the input window. -/
def EngineMayWrite (s : State) (a : Nat) : Prop :=
  s.outAddr.toNat ≤ a ∧ a < s.outAddr.toNat + s.outCap.toNat ∧
    ¬(s.inAddr.toNat ≤ a ∧ a < s.inAddr.toNat + s.inLen.toNat)

/-- From `s` to `t` MEM_SIZE stays, and a byte changes only where BUSY falls and the engine may write. -/
def ChangedByEngine (s t : State) : Prop :=
  t.memSize = s.memSize ∧
    ∀ a, readByte t.mem a ≠ readByte s.mem a → s.busy = true ∧ t.busy = false ∧ EngineMayWrite s a

/-- The same, or a write of the host's next turn while idle. -/
def ChangedByAgents (s t : State) : Prop :=
  t.memSize = s.memSize ∧ ∀ a, readByte t.mem a ≠ readByte s.mem a →
    (s.busy = false ∧ ∃ v queue, s.bus = some (.memWrite a v) :: queue) ∨
      (s.busy = true ∧ t.busy = false ∧ EngineMayWrite s a)

theorem changedByAgents_of_engine {s t : State} (h : ChangedByEngine s t) : ChangedByAgents s t :=
  h.imp_right fun hchange a ha => .inr (hchange a ha)

theorem changedByEngine_of_mem_eq {s t : State} (hsize : t.memSize = s.memSize) (hmem : t.mem = s.mem) :
    ChangedByEngine s t :=
  ⟨hsize, fun a ha => absurd (by rw [hmem]) ha⟩

/-- A command whose windows are not usable is refused and changes no byte; for any other they are disjoint. -/
theorem exec_changedByEngine {i : Instr} {s t : State} (hb : s.busy = true) (ht : exec i s = .next t) :
    ChangedByEngine s t := by
  obtain ⟨code, u, hexec, hran, hend⟩ := exec_cases i s
  cases hexec.symm.trans ht
  refine ⟨hran.memSize, fun a ha => ⟨hb, rfl, ?_⟩⟩
  cases bodyOf_begins i (Alike.refl s) with
  | refused code' u' _ hbody _ hmem hok hfree =>
    rcases hend with ⟨hgo, _⟩ | ⟨hstop, _⟩
    · cases hbody.symm.trans hgo
    · cases hbody.symm.trans hstop
      rw [complete_mem, hfree] at ha
      exact absurd (congrArg (readByte · a) hmem) ha
  | main _ hu _ _ _ =>
    obtain ⟨_, _, hdisjoint⟩ := hu
    have hwindow : ¬(a < s.outAddr.toNat ∨ s.outAddr.toNat + s.outCap.toNat ≤ a) :=
      fun hout => ha (keptOutside_complete hran _ _ a hout)
    unfold EngineMayWrite
    omega

theorem engineTurn_changedByEngine {s t : State} (h : Inv s) (ht : engineTurn s = .next t) : ChangedByEngine s t := by
  unfold engineTurn at ht
  split at ht
  · next hrun => exact exec_changedByEngine (h.mirrors.2 (by simpa [running] using hrun)) ht
  · cases ht; exact changedByEngine_of_mem_eq rfl rfl

theorem assertReset_changedByEngine (s : State) : ChangedByEngine s (assertReset s) := by
  cases hb : s.busy with
  | false => exact changedByEngine_of_mem_eq rfl (by rw [assertReset_mem, hb]; rfl)
  | true =>
    refine ⟨rfl, fun a ha => ⟨hb, rfl, ?_⟩⟩
    rw [assertReset_mem, hb, if_pos rfl, readByte_drawOutputWindow] at ha
    split at ha
    · next hwindow =>
      obtain ⟨hlow, hhigh, _, hin⟩ := hwindow
      exact ⟨hlow, hhigh, hin⟩
    · exact absurd rfl ha

theorem portWrite_changedByAgents {s : State} {a : Nat} {v : Byte} {queue : List (Option HostOp)} (hb : s.busy = false)
    (hbus : s.bus = some (.memWrite a v) :: queue) : ChangedByAgents s (portWrite a v { s with bus := queue }) := by
  refine ⟨portWrite_memSize a v _, fun x hx => ?_⟩
  by_cases hxa : x = a
  · subst hxa
    exact .inl ⟨hb, v, queue, hbus⟩
  · unfold portWrite at hx
    split at hx
    · exact absurd (readByte_writeByte_other _ v hxa) hx
    · exact absurd rfl hx

theorem hostTurn_changedByAgents {op : HostOp} {s t : State} {queue : List (Option HostOp)}
    (hbus : s.bus = some op :: queue) (ht : hostTurn op { s with bus := queue } = .next t) : ChangedByAgents s t := by
  rcases hostTurn_next ht with ⟨width, offset, v, _, rfl⟩ | ⟨v, bus, rfl⟩ | ⟨a, v, rfl, rfl, hb | ⟨_, e⟩⟩ | ⟨_, rfl⟩
  · obtain ⟨hmem, hsize⟩ := busWrite_mem width offset v { s with bus := queue }
    exact changedByAgents_of_engine (s := s) (changedByEngine_of_mem_eq hsize hmem)
  · exact changedByAgents_of_engine (s := s) (changedByEngine_of_mem_eq rfl rfl)
  · exact portWrite_changedByAgents hb hbus
  · rw [e]; exact changedByAgents_of_engine (s := s) (changedByEngine_of_mem_eq rfl rfl)
  · exact changedByAgents_of_engine (s := s) (assertReset_changedByEngine { s with bus := queue })

theorem step_changedByAgents {s t : State} (h : Inv s) (ht : step s = .next t) : ChangedByAgents s t := by
  rcases step_cases s with ⟨_, e⟩ | ⟨queue, _, e⟩ | ⟨op, queue, hbus, e⟩ <;> rw [e] at ht
  · exact changedByAgents_of_engine (engineTurn_changedByEngine h ht)
  · have hengine := engineTurn_changedByEngine (h.setBus s.rdata queue) ht
    exact changedByAgents_of_engine (s := s) hengine
  · exact hostTurn_changedByAgents hbus ht

end Sys2Proof.Machine

namespace Sys2Proof.Proofs

open Sys2Proof.Machine

/-- Settles O15: below MEM_SIZE the port is a read or a store of one byte, and R240 stops it while BUSY. -/
theorem bufferPortReadsAndWrites : Obligations.BufferPortReadsAndWrites := by
  intro s queue a v
  refine ⟨fun hb ha h => ?_, fun hb ha h => ?_, fun ha h => ?_, fun ha h => ?_, step_portViolation⟩
  · rw [step_memRead (by simp [hb]) h, portRead, if_pos ha]
  · refine ⟨_, step_memWrite (by simp [hb]) h, ?_⟩
    rw [portWrite_inside (s := { s with bus := queue }) v ha]
    exact ⟨rfl, readByte_writeByte_same _ a v, fun x hx => readByte_writeByte_other _ v hx⟩
  · rw [step_memRead (by omega) h, portRead_outside ha]
    rfl
  · rw [step_memWrite (by omega) h, portWrite_outside (s := { s with bus := queue }) v ha]

/-- Settles O55: the agents of a step, and the invariant of its two ends, in which no byte outside memory is listed. -/
theorem memoryChangesOnlyByItsAgents : Obligations.MemoryChangesOnlyByItsAgents := by
  intro s t h ht
  obtain ⟨hsize, hagents⟩ := step_changedByAgents h ht
  refine ⟨hsize, fun a ha => ⟨Nat.lt_of_not_le fun hout => ha ?_, hagents a ha⟩⟩
  have hinside := (stepKeepsTheInvariants s t h ht).mem_inside
  rw [readByte_outside h.mem_inside hout, readByte_outside hinside (by rw [hsize]; exact hout)]

end Sys2Proof.Proofs
end

section
/-! The command word: its OP field, the opcode table and the encoder (30_encoding.md R80 to R89). Every function of a
command word reads OP alone, which leaves 16 cases to compute. -/

namespace Sys2Proof

/-! ### OP -/

/-- Both spellings of bits 3:0. -/
theorem opField_eq_extractLsb' (w : Word) : opField w = w.extractLsb' 0 4 := BitVec.setWidth_eq_extractLsb' (by decide)

/-- The word of an OP is the command word with its ignored bits cleared (30_encoding.md R88). -/
theorem setWidth_opField (w : Word) : (opField w).setWidth 32 = w &&& 0x0000000F := by
  apply BitVec.eq_of_toNat_eq
  rw [opField, BitVec.toNat_setWidth, BitVec.toNat_setWidth, BitVec.toNat_and]
  calc w.toNat % 2 ^ 4 % 2 ^ 32 = w.toNat % 2 ^ 4 := by omega
    _ = w.toNat &&& (2 ^ 4 - 1) := (Nat.and_two_pow_sub_one_eq_mod w.toNat 4).symm

theorem opField_setWidth (op : BitVec 4) : opField (op.setWidth 32) = op :=
  BitVec.setWidth_setWidth_of_le op (by decide)

theorem opField_and_mask (w : Word) : opField (w &&& 0x0000000F) = opField w := by
  rw [← setWidth_opField, opField_setWidth]

/-! ### Decoding an OP -/

theorem wellFormed_decodeOp : ∀ op : BitVec 4, wellFormed (decodeOp op) = true := by decide

theorem encodeOp_decodeOp : ∀ op : BitVec 4, encodeOp (decodeOp op) = op := by decide

/-! ### The opcode table -/

/-- A row's mask selects bits of OP only, so the other bits do not affect which rows match. -/
theorem matchingRows_and_mask (w : Word) : matchingRows (w &&& 0x0000000F) = matchingRows w := by
  refine List.filter_congr fun r hr => ?_
  have hmask : ∀ r ∈ opcodeTable, 0x0000000F &&& r.mask = r.mask := by decide
  rw [BitVec.and_assoc, hmask r hr]

/-- On the 16 words with no ignored bit set, the matching rows are one, and it gives the decoded command. -/
theorem map_toInstr_matchingRows :
    ∀ op : BitVec 4, (matchingRows (op.setWidth 32)).map (·.toInstr op) = [decodeOp op] := by decide

/-- 30_encoding.md R89. -/
theorem matchingRows_eq_singleton (w : Word) : ∃ r, matchingRows w = [r] ∧ r.toInstr (opField w) = decode w := by
  rw [← matchingRows_and_mask, ← setWidth_opField]
  exact List.map_eq_singleton_iff.1 (map_toInstr_matchingRows (opField w))

/-- A row that a word matches gives the command that the word decodes to: no other row matches the word. -/
theorem decode_of_row {w : Word} {r : OpcodeRow} (hr : r ∈ opcodeTable) (hw : w &&& r.mask = r.pattern) :
    decode w = r.toInstr (opField w) := by
  obtain ⟨r', hrows, hdecode⟩ := matchingRows_eq_singleton w
  have hmem : r ∈ matchingRows w := List.mem_filter.2 ⟨hr, by simpa using hw⟩
  rw [hrows, List.mem_singleton] at hmem
  rw [hmem, hdecode]

/-! ### The encoder -/

theorem encodesInARow : ∀ i : Instr, Laws.EncodesInARow.Statement i
  | .rsvd0 => Laws.EncodesInARow.rsvd0
  | .enc16 => Laws.EncodesInARow.enc16
  | .dec16 => Laws.EncodesInARow.dec16
  | .enc32 => Laws.EncodesInARow.enc32
  | .dec32 => Laws.EncodesInARow.dec32
  | .enc8 => Laws.EncodesInARow.enc8
  | .dec8 => Laws.EncodesInARow.dec8
  | .s2n8 => Laws.EncodesInARow.s2n8
  | .rsvd8 op => Laws.EncodesInARow.rsvd8 op

theorem decode_encode {i : Instr} (hi : wellFormed i = true) : decode (encode i) = i ∧ (encode i).toNat < 16 := by
  obtain ⟨r, hr, hmatch, hinstr, hlt⟩ := encodesInARow i hi
  exact ⟨(decode_of_row hr hmatch).trans hinstr, hlt⟩

theorem encode_decode (w : Word) : encode (decode w) = w &&& 0x0000000F := by
  rw [encode, decode, encodeOp_decodeOp, setWidth_opField]

theorem decode_and_mask (w : Word) : decode (w &&& 0x0000000F) = decode w := by
  rw [decode, decode, opField_and_mask]

end Sys2Proof

namespace Sys2Proof.Machine

/-! ### The CMD write and the two WAITs -/

theorem writeReg_cmd_and_mask (w : Word) (s : State) :
    writeReg .cmd (w &&& 0x0000000F) s = writeReg .cmd w s := by
  cases hb : s.busy with
  | true => rw [writeReg_cmd_of_busy _ hb, writeReg_cmd_of_busy _ hb]
  | false =>
    have hop : (w &&& 0x0000000F).setWidth 4 = w.setWidth 4 := opField_and_mask w
    rw [writeReg_cmd_of_idle _ hb, writeReg_cmd_of_idle _ hb, startCommand, startCommand, hop]

/-- A polling WAIT reads STATUS in either case; it leaves the queue only if DONE is 1 (30_encoding.md R91). -/
theorem step_waitDone {s : State} {queue : List (Option HostOp)} (h : s.bus = some .waitDone :: queue) :
    step s = .next (if s.done then { s with bus := queue, rdata := statusWord s }
      else { s with bus := none :: some .waitDone :: queue, rdata := statusWord s }) := by
  rw [step_hostTurn h, hostTurn, apply_ite Host.Outcome.next]
  rfl

/-- A WAIT under interrupts reads STATUS, and leaves the queue, only if irq is 1 (30_encoding.md R91). -/
theorem step_waitIrq {s : State} {queue : List (Option HostOp)} (h : s.bus = some .waitIrq :: queue) :
    step s = .next (if irq s then { s with bus := queue, rdata := statusWord s }
      else { s with bus := none :: some .waitIrq :: queue }) := by
  rw [step_hostTurn h, hostTurn, apply_ite Host.Outcome.next]
  rfl

end Sys2Proof.Machine

namespace Sys2Proof.Proofs

open Sys2Proof.Machine

/-- Settles O1: a well-formed command is encoded in a row of the table, and the row that a word matches is its only one;
the other way, the encoder gives back the OP that was decoded. -/
theorem decodeEncodeAgree : Obligations.DecodeEncodeAgree :=
  ⟨fun _ hi => decode_encode hi, fun w => ⟨wellFormed_decodeOp (opField w), encode_decode w⟩⟩

/-- Settles O2: no row looks beyond OP, and each of the 16 OP values matches one row. -/
theorem exactlyOneRowMatches : Obligations.ExactlyOneRowMatches := by
  intro w
  obtain ⟨r, hrows, hdecode⟩ := matchingRows_eq_singleton w
  exact ⟨r, hrows, by rw [← opField_eq_extractLsb', hdecode]⟩

/-- Settles O3: ten closed words, computed. -/
theorem sampleWordsDecode : Obligations.SampleWordsDecode := by
  unfold Obligations.SampleWordsDecode
  decide

/-- Settles O4: the decoder and the CMD write read OP alone. -/
theorem upperBitsOfCommandWordIgnored : Obligations.UpperBitsOfCommandWordIgnored := fun w s =>
  ⟨(decode_and_mask w).symm, (writeReg_cmd_and_mask w s).symm⟩

/-- Settles O18: the two WAITs, each by whether what it waits for has come. -/
theorem waitEndsWhenDone : Obligations.WaitEndsWhenDone := by
  intro s queue
  refine ⟨fun h hd => ?_, fun h hd => ?_, fun h hi => ?_, fun h hi => ?_⟩
  · rw [step_waitDone h, if_pos hd]
  · rw [step_waitDone h, if_neg (by simp [hd])]
  · rw [step_waitIrq h, if_pos hi]
  · rw [step_waitIrq h, if_neg (by simp [hi])]

end Sys2Proof.Proofs
end

section
/-! The reframer run over a whole list (40_datapath.md R106, R109): from an empty carry it gives the whole elements of
the list's bit stream, and the carry holds the rest. -/

namespace Sys2Proof.Machine

/-! ### The bits of the carry -/

/-- Bit `j` of a list, counted from its first, in the value of the list. -/
theorem testBit_bitsValue {l : List Bool} {j : Nat} (h : j < l.length) :
    (bitsValue l).testBit (l.length - 1 - j) = l.getD j false := by
  have hdiv : bitsValue l / 2 ^ (l.length - 1 - j) = bitsValue (l.take j) * 2 + l[j].toNat := by
    rw [show l.length - 1 - j = l.length - (j + 1) by omega, ← (bitsValue_take_drop l (j + 1)).1,
      List.take_succ_eq_append_getElem h, bitsValue_append]
    simp [bitsValue]
  have hbit : (bitsValue (l.take j) * 2 + l[j].toNat) % 2 = l[j].toNat := by
    have := Bool.toNat_lt l[j]
    omega
  rw [List.getD_eq_getElem _ _ h, Nat.testBit_eq_decide_div_mod_eq, hdiv, hbit]
  cases l[j] <;> rfl

/-- A carry that holds the rest of a stream, read off bit by bit: its length, and its bits in order, oldest first. -/
theorem Carries.rest_bits {n : Nat} {d : Datapath} {l : List Bool} (h : Carries d (rest n l)) :
    d.cn.toNat = l.length % n ∧
      ∀ j < l.length % n, d.c.getLsbD (l.length % n - 1 - j) = l.getD (l.length / n * n + j) false := by
  obtain ⟨hvalue, hcount⟩ := h
  refine ⟨by rw [hcount, rest_length], fun j hj => ?_⟩
  rw [BitVec.getLsbD, hvalue, ← rest_length, testBit_bitsValue (by rwa [rest_length])]
  simp [rest, List.getD_eq_getElem?_getD]

/-! ### Lists -/

/-- `packAll`: what is held and the bytes after it, as one stream, cut into groups and a rest. -/
theorem packAll_spec {n : Nat} (hn : 0 < n) (hn9 : n ≤ 9) :
    ∀ (bs : List Byte) {d : Datapath} {r : List Bool}, Carries d r → r.length < n →
      (packAll n bs d).1 = whole n (r ++ bitStream bs) ∧ Carries (packAll n bs d).2 (rest n (r ++ bitStream bs))
  | [], d, r, hc, hr => by
    rw [bitStream_nil, List.append_nil, whole_eq_nil hr, rest_eq_self hr]
    exact ⟨rfl, hc⟩
  | b :: bs, d, r, hc, hr => by
    obtain ⟨hgroups, hcarry, _⟩ := packByte_spec hn b hc (by omega)
    obtain ⟨ihGroups, ihCarry⟩ := packAll_spec hn hn9 bs hcarry (rest_length_lt hn _)
    rw [bitStream_cons, ← List.append_assoc, whole_append hn (r ++ bitsOf b), rest_append hn (r ++ bitsOf b)]
    exact ⟨congrArg₂ (· ++ ·) hgroups ihGroups, ihCarry⟩

/-- `unpackAll`: what is held and the values after it, as one stream, cut into bytes and a rest. -/
theorem unpackAll_spec {n : Nat} (hn : n ≤ 8) :
    ∀ (vs : List (BitVec n)) {d : Datapath} {r : List Bool}, Carries d r → r.length < 8 →
      (unpackAll vs d).1 = whole 8 (r ++ bitStream vs) ∧ Carries (unpackAll vs d).2 (rest 8 (r ++ bitStream vs))
  | [], d, r, hc, hr => by
    rw [bitStream_nil, List.append_nil, whole_eq_nil hr, rest_eq_self hr]
    exact ⟨rfl, hc⟩
  | v :: vs, d, r, hc, hr => by
    have h8 : 0 < 8 := by decide
    obtain ⟨hbytes, hcarry, _⟩ := unpackSymbol_spec hn v hc hr
    obtain ⟨ihBytes, ihCarry⟩ := unpackAll_spec hn vs hcarry (rest_length_lt h8 _)
    rw [bitStream_cons, ← List.append_assoc, whole_append h8 (r ++ bitsOf v), rest_append h8 (r ++ bitsOf v)]
    exact ⟨congrArg₂ (· ++ ·) hbytes ihBytes, ihCarry⟩

end Sys2Proof.Machine

namespace Sys2Proof.Proofs

open Sys2Proof.Machine

/-- Settles O47: from an empty carry the stream is that of the bytes alone. -/
theorem packCutsTheStream : Obligations.PackCutsTheStream := by
  intro n bs hn
  have hbounds : 0 < n ∧ n ≤ 9 := by simp at hn; omega
  obtain ⟨hgroups, hcarry⟩ := packAll_spec hbounds.1 hbounds.2 bs carries_zero hbounds.1
  rw [List.nil_append] at hgroups hcarry
  have hbits := hcarry.rest_bits
  rw [bitStream_length] at hbits
  exact ⟨by rw [hgroups, whole, bitStream_length], hbits⟩

/-- Settles O48: from an empty carry the stream is that of the values alone. -/
theorem unpackJoinsTheStream : Obligations.UnpackJoinsTheStream := by
  intro n vs hn
  have hn8 : n ≤ 8 := by simp at hn; omega
  obtain ⟨hbytes, hcarry⟩ := unpackAll_spec hn8 vs carries_zero (by decide)
  rw [List.nil_append] at hbytes hcarry
  have hbits := hcarry.rest_bits
  rw [bitStream_length] at hbits
  exact ⟨by rw [hbytes, whole, bitStream_length, decodedBytes], hbits⟩

end Sys2Proof.Proofs
end

section
/-! The contents of the ROMs (40_datapath.md R100 to R104): a symbol table is a run or two of character codes, and a
value table subtracts the start of the run that a character lies in. -/

namespace Sys2Proof.Machine

/-! ### Symbols -/

theorem hexSym_toNat :
    ∀ g : BitVec 4, (hexSym g).toNat = if g.toNat < 10 then 0x30 + g.toNat else 0x37 + g.toNat := by decide

theorem b32Sym_toNat :
    ∀ g : BitVec 5, (b32Sym g).toNat = if g.toNat < 26 then 0x41 + g.toNat else 0x18 + g.toNat := by decide

theorem b8Sym_toNat : ∀ g : BitVec 3, (b8Sym g).toNat = 0x31 + g.toNat := by decide

/-! ### Values -/

theorem inRange_iff {lo hi ch : Byte} : inRange lo hi ch = true ↔ lo.toNat ≤ ch.toNat ∧ ch.toNat ≤ hi.toNat := by
  simp [inRange, BitVec.le_def]

/-- One run of a value table: inside it a character's value is its distance from `base`, outside it the other runs
decide. -/
theorem rangeValue_eq_some_iff {n : Nat} {lo hi base : Byte} (hlo : base.toNat ≤ lo.toNat)
    (hhi : hi.toNat < base.toNat + 2 ^ n) {ch : Byte} {g : BitVec n} {others : Option (BitVec n)} :
    (if inRange lo hi ch then some ((ch - base).setWidth n) else others) = some g ↔
      ((lo.toNat ≤ ch.toNat ∧ ch.toNat ≤ hi.toNat) ∧ ch.toNat = base.toNat + g.toNat) ∨
      (¬ (lo.toNat ≤ ch.toNat ∧ ch.toNat ≤ hi.toNat) ∧ others = some g) := by
  by_cases h : inRange lo hi ch = true
  · have hr := inRange_iff.1 h
    have hsub : (ch - base).toNat = ch.toNat - base.toNat := BitVec.toNat_sub_of_le (BitVec.le_def.2 (by omega))
    have hwidth : ((ch - base).setWidth n).toNat = ch.toNat - base.toNat := by
      rw [BitVec.toNat_setWidth, hsub, Nat.mod_eq_of_lt (by omega)]
    simp only [if_pos h, Option.some.injEq, ← BitVec.toNat_inj, hwidth, hr, and_self, true_and, not_true_eq_false,
      false_and, or_false]
    omega
  · have hr : ¬ (lo.toNat ≤ ch.toNat ∧ ch.toNat ≤ hi.toNat) := fun hr => h (inRange_iff.2 hr)
    simp [if_neg h, hr]

/-- HEXVAL is the inverse of HEXSYM, and takes `a` to `f` as `A` to `F` (40_datapath.md R101). -/
theorem hexVal_eq_some_iff (ch : Byte) (g : BitVec 4) :
    hexVal ch = some g ↔ ch = hexSym g ∨ (0x61 ≤ ch ∧ ch ≤ 0x66 ∧ ch - 0x20 = hexSym g) := by
  have hg := g.isLt
  have hsym := hexSym_toNat g
  rw [hexVal, rangeValue_eq_some_iff (by decide) (by decide), rangeValue_eq_some_iff (by decide) (by decide),
    rangeValue_eq_some_iff (by decide) (by decide)]
  simp only [reduceCtorEq, and_false, or_false]
  split at hsym <;> bv_omega

/-- B32VAL is the inverse of B32SYM, and takes `a` to `z` as `A` to `Z` (40_datapath.md R102). -/
theorem b32Val_eq_some_iff (ch : Byte) (g : BitVec 5) :
    b32Val ch = some g ↔ ch = b32Sym g ∨ (0x61 ≤ ch ∧ ch ≤ 0x7A ∧ ch - 0x20 = b32Sym g) := by
  have hg := g.isLt
  have hsym := b32Sym_toNat g
  rw [b32Val, rangeValue_eq_some_iff (by decide) (by decide), rangeValue_eq_some_iff (by decide) (by decide),
    rangeValue_eq_some_iff (by decide) (by decide)]
  simp only [reduceCtorEq, and_false, or_false]
  split at hsym <;> bv_omega

/-- B8VAL is the inverse of B8SYM (40_datapath.md R103). -/
theorem b8Val_eq_some_iff (ch : Byte) (g : BitVec 3) : b8Val ch = some g ↔ ch = b8Sym g := by
  have hg := g.isLt
  have hsym := b8Sym_toNat g
  rw [b8Val, rangeValue_eq_some_iff (by decide) (by decide)]
  simp only [reduceCtorEq, and_false, or_false]
  bv_omega

end Sys2Proof.Machine

namespace Sys2Proof.Proofs

open Sys2Proof.Machine

/-- Settles O50: each ROM by its own lemma; WEIGHT is its table by definition. -/
theorem romContents : Obligations.RomContents :=
  ⟨hexSym_toNat, b32Sym_toNat, b8Sym_toNat, hexVal_eq_some_iff, b32Val_eq_some_iff, b8Val_eq_some_iff,
    fun g => ⟨rfl, weight_eq_hamming g⟩⟩

end Sys2Proof.Proofs
end

section
/-! The command framework (41_command_framework.md): the dispatch of a running engine, the reserved commands, the three
checks of the prologue, and what every completion writes and leaves alone. -/

namespace Sys2Proof.Machine

/-! ### The engine's turn -/

theorem step_of_emptyQueue {s : State} (h : s.bus = []) : step s = engineTurn s := by
  simp only [step, h]

theorem step_of_idleSlot {s : State} {queue : List (Option HostOp)} (h : s.bus = none :: queue) :
    step s = engineTurn { s with bus := queue } := by
  simp only [step, h]

theorem engineTurn_of_run {s : State} (h : s.estate = .run) : engineTurn s = exec (decode (s.op.setWidth 32)) s := by
  rw [engineTurn, if_pos (by simpa [running] using h)]
  rfl

theorem engineTurn_of_idle {s : State} (h : s.estate = .idle) : engineTurn s = .next s := by
  rw [engineTurn, if_neg (by simp [running, h])]

/-- CMD holds OP alone, and OP is all that the decoder reads of the word (30_encoding.md R81). -/
theorem decode_startCommand_op (w : Word) (s : State) : decode ((startCommand w s).op.setWidth 32) = decode w :=
  (congrArg decode (setWidth_opField w)).trans (decode_and_mask w)

theorem startCommand_started (w : Word) (s : State) : Started (startCommand w s) := ⟨rfl, rfl, rfl, rfl, rfl, rfl⟩

/-! ### Completion -/

/-- What a completion writes, whatever the command and its outcome (R140). -/
theorem complete_completedWith {s u : State} (h : Ran s u) (free : Bool) (code : Code) :
    CompletedWith (resultBits code) s (complete free code u) :=
  ⟨rfl, rfl, rfl, rfl, controlKept_complete h free code⟩

/-- Usable windows are disjoint, so what changes the output window alone keeps the input (20_memory.md R65). -/
theorem inputBytes_kept {s t : State} (hu : Usable s) (h : KeptOutside s t s.outAddr.toNat s.outCap.toNat) :
    bytesAt t.mem s.inAddr.toNat s.inLen.toNat = inputBytes s := by
  obtain ⟨_, _, hdisjoint⟩ := hu
  exact bytesAt_eq_iff.2 fun k hk => h _ (by omega)

/-! ### Reserved commands -/

theorem decodeOp_reserved :
    ∀ op : BitVec 4, (op = 0 ∨ 8 ≤ op.toNat) → decodeOp op = .rsvd0 ∨ decodeOp op = .rsvd8 op := by decide

theorem exec_reserved {i : Instr} (hi : i ∉ codecCommands) (s : State) :
    exec i s = .next (complete false .error s) := by
  rw [exec_eq, bodyOf_reserved hi, finish, freeOf_refusal (.inl rfl)]

theorem statusWord_error (free : Bool) (s : State) : statusWord (complete free .error s) = 0x00000402 :=
  BitVec.eq_of_toNat_eq (statusWord_toNat _)

/-! ### The checks of the prologue -/

/-- A codec command that its prologue ends has written nothing. -/
theorem failsUntouched_of_prologue {i : Instr} (hi : i ∈ codecCommands) {s u : State} {code : Code}
    (hp : prologue (kindOf i) (reqOf i) s = .stop code u) (hmem : u.mem = s.mem)
    (hcode : code = .arguments ∨ (code = .overflow ∧ i ≠ .dec32)) : FailsUntouched i s (resultBits code) := by
  have hbody : bodyOf i s = .stop code u := by rw [bodyOf_codec hi, hp, bind_stop]
  have hok : code ≠ .ok := by rcases hcode with rfl | ⟨rfl, _⟩ <;> decide
  exact failsUntouched_of_stop hbody hok (freeOf_refusal (.inr hcode)) hmem

theorem kindSize_kindOf (i : Instr) (s : State) : kindSize (kindOf i) s = inputSize i s := by
  unfold kindOf inputSize
  split <;> rfl

/-- ENC8's REQ in closed form: ceil(8S/3) digits and the NUL. -/
theorem reqEnc8_eq (n : Nat) : reqEnc8 n = (8 * n + 2) / 3 + 1 := by
  have hmod : n % 3 = 0 ∨ n % 3 = 1 ∨ n % 3 = 2 := by omega
  unfold reqEnc8
  rcases hmod with h | h | h <;> rw [h] <;> simp only [enc8Tail] <;> omega

/-- The commands with an up-front check are the codec commands but DEC32, and their REQ is the model's (R138). -/
theorem reqOf_of_requiredOutput {i : Instr} {n req : Nat} (h : requiredOutput i n = some req) :
    i ∈ codecCommands ∧ i ≠ .dec32 ∧ reqOf i n = req := by
  cases i with
  | rsvd0 | rsvd8 | dec32 => cases h
  | enc8 => exact ⟨by decide, by decide, (reqEnc8_eq n).trans (Option.some.inj h)⟩
  | enc16 | dec16 | enc32 | dec8 | s2n8 => exact ⟨by decide, by decide, Option.some.inj h⟩

end Sys2Proof.Machine

namespace Sys2Proof.Proofs

open Sys2Proof.Machine

/-- Settles O42: every body ends in a completion, and RESULT is 0 only for OK. -/
theorem everyCommandCompletes : Obligations.EveryCommandCompletes := by
  intro i s
  obtain ⟨code, u, hexec, hran, _⟩ := exec_cases i s
  refine ⟨_, hexec, complete_completedWith hran _ code, resultBits_le code, fun hresult => ?_, fun hresult => ?_⟩
  · obtain rfl := resultBits_injective (b := .ok) hresult
    exact ⟨rfl, hran.draws⟩
  · have hok : code ≠ .ok := by rintro rfl; exact hresult rfl
    rw [complete_outLen, complete_draws, if_neg hok, if_neg hok, hran.draws]
    exact ⟨rfl, rfl⟩

/-- Settles O43: a body runs within the output window and a completion frees no byte outside it. -/
theorem commandFrame : Obligations.CommandFrame := by
  intro i s t ht
  obtain ⟨code, u, hexec, hran, _⟩ := exec_cases i s
  cases hexec.symm.trans ht
  have hkept := keptOutside_complete hran (freeOf i code) code
  exact ⟨controlKept_complete hran _ code, hkept, fun hu => inputBytes_kept hu hkept⟩

/-- Settles O21: the body of a reserved command is ERROR and nothing else. -/
theorem reservedCompletesWithError : Obligations.ReservedCompletesWithError := by
  refine ⟨fun w hw => ?_, fun s i hi => ?_⟩
  · rw [← opField_eq_extractLsb'] at hw ⊢
    exact decodeOp_reserved (opField w) hw
  · have hreserved : i ∉ codecCommands := by rcases hi with rfl | ⟨op, rfl⟩ <;> simp [codecCommands]
    exact ⟨_, exec_reserved hreserved s, complete_completedWith (Ran.refl s) false .error,
      statusWord_error false s, rfl⟩

/-- Settles O33: the first check of the prologue. -/
theorem unusableWindowsGiveArguments : Obligations.UnusableWindowsGiveArguments := by
  intro i s hi hu
  have hp : prologue (kindOf i) (reqOf i) s = .stop .arguments s := by rw [prologue_eq, if_pos hu]
  exact failsUntouched_of_prologue hi hp rfl (.inl rfl)

/-- Settles O34: the second check of the prologue. -/
theorem emptyInputGivesArguments : Obligations.EmptyInputGivesArguments := by
  intro i s hi hu hz
  rw [← kindSize_kindOf] at hz
  have hp : prologue (kindOf i) (reqOf i) s = .stop .arguments (setLength 0 s) := by
    rw [prologue_eq, if_neg (not_not.2 hu), if_pos hz]
  exact failsUntouched_of_prologue hi hp rfl (.inl rfl)

/-- Settles O35: the third check of the prologue, which comes before the body reads a symbol. -/
theorem shortCapacityGivesOverflow : Obligations.ShortCapacityGivesOverflow := by
  intro i s req hu hz hreq hc
  obtain ⟨hi, hne, rfl⟩ := reqOf_of_requiredOutput hreq
  rw [← kindSize_kindOf] at hz hc
  have hp : prologue (kindOf i) (reqOf i) s = .stop .overflow (setLength (kindSize (kindOf i) s) s) := by
    rw [prologue_eq, if_neg (not_not.2 hu), if_neg hz, if_pos hc]
  exact failsUntouched_of_prologue hi hp rfl (.inr ⟨rfl, hne⟩)

/-- Settles O5: the engine's turn in its two cases, with an empty queue and after an idle slot. -/
theorem stepRunsFetchedCommand : Obligations.StepRunsFetchedCommand := by
  refine ⟨fun s hrun hbus => ?_, fun s queue hrun hbus => ?_, fun s hidle hbus => ?_, fun s queue hidle hbus => ?_⟩
  · rw [step_of_emptyQueue hbus, engineTurn_of_run hrun]
  · rw [step_of_idleSlot hbus, engineTurn_of_run (s := { s with bus := queue }) hrun]
  · rw [step_of_emptyQueue hbus, engineTurn_of_idle hidle]
  · rw [step_of_idleSlot hbus, engineTurn_of_idle (s := { s with bus := queue }) hidle]

/-- Settles O57: the engine's turn is exec of some command (O5), and every command completes (O42). -/
theorem engineTurnCompletesTheCommand : Obligations.EngineTurnCompletesTheCommand := by
  intro s hrun hbus
  have hstep : ∃ i u, step s = exec i u := by
    rcases hbus with hbus | ⟨queue, hbus⟩
    · exact ⟨_, _, stepRunsFetchedCommand.1 s hrun hbus⟩
    · exact ⟨_, _, stepRunsFetchedCommand.2.1 s queue hrun hbus⟩
  obtain ⟨i, u, hstep⟩ := hstep
  obtain ⟨t, hexec, ⟨_, hbusy, hdone, hidle, _⟩, _⟩ := everyCommandCompletes i u
  exact ⟨t, hstep.trans hexec, hbusy, hdone, hidle⟩

/-- Settles O6: the presented state has an empty queue and a started engine, so its step is the engine's. -/
theorem presentedWordRunsNext : Obligations.PresentedWordRunsNext := by
  intro s nbits w
  have hstep := stepRunsFetchedCommand.1 (s.withFetchWord nbits w) rfl rfl
  exact ⟨startCommand_started _ _, _, rfl, hstep.trans (congrArg (exec · _) (decode_startCommand_op _ _))⟩

end Sys2Proof.Proofs
end

section
/-! A bit stream cut into elements and joined again, and a text read back as the string of another window: what the round
trips of the codecs share (20_memory.md R68; 40_datapath.md R117; 41_command_framework.md R135). -/

namespace Sys2Proof.Machine

/-! ### Elements and their stream -/

/-- A list of `n` bits is the bits of its value. -/
theorem bitsOf_bitsValue {n : Nat} {l : List Bool} (h : l.length = n) : bitsOf (BitVec.ofNat n (bitsValue l)) = l := by
  subst h
  apply List.ext_getElem
  · simp
  · intro j _ hj
    have hlt : l.length - 1 - j < l.length := by omega
    simp only [bitsOf, List.getElem_map, List.getElem_range, BitVec.getMsbD, BitVec.getLsbD_ofNat, testBit_bitsValue hj]
    simp [hj, hlt]

theorem elements_succ (n count : Nat) (l : List Bool) :
    elements n (count + 1) l = elements n count l ++ [element n l count] := by
  simp [elements, List.range_succ]

/-- The stream of the first elements of a stream is its first bits, with zeros where it has ended. -/
theorem bitStream_elements (n count : Nat) (l : List Bool) :
    bitStream (elements n count l) = (List.range (count * n)).map fun j => l.getD j false := by
  induction count with
  | zero => simp [elements]
  | succ count ih =>
    rw [elements_succ, bitStream_append, ih, bitStream_cons, bitStream_nil, List.append_nil, element_eq,
      bitsOf_bitsValue (by simp), Nat.add_mul, Nat.one_mul, List.range_add, List.map_append, List.map_map]
    rfl

/-- Elements that cover a stream join to the stream, with zeros behind it. -/
theorem bitStream_elements_cover {n count : Nat} {l : List Bool} (h : l.length ≤ count * n) :
    bitStream (elements n count l) = l ++ List.replicate (count * n - l.length) false := by
  rw [bitStream_elements]
  apply List.ext_getElem
  · simp; omega
  · intro j _ _
    by_cases hj : j < l.length
    · simp [hj]
    · simp [hj, List.getElem_append_right (Nat.le_of_not_lt hj)]

/-- The stream of a list of values, cut at their width, is the values. -/
theorem whole_bitStream {n : Nat} (hn : 0 < n) (vs : List (BitVec n)) : whole n (bitStream vs) = vs := by
  induction vs with
  | nil => simp [whole, elements]
  | cons v vs ih =>
    rw [bitStream_cons, whole_cons hn (by simp), List.take_left' (bitsOf_length v), List.drop_left' (bitsOf_length v), ih,
      bitsValue_bitsOf, BitVec.ofNat_toNat, BitVec.setWidth_eq]

/-- Bytes come back from the elements that their stream is cut into: the zeros behind the stream are less than a byte. -/
theorem decodedBytes_elements {n count : Nat} {bs : List Byte} (hcover : 8 * bs.length ≤ n * count)
    (hshort : n * count < 8 * bs.length + 8) : decodedBytes (elements n count (bitStream bs)) = bs := by
  have hlen : n * count / 8 = bs.length := by omega
  rw [Nat.mul_comm n] at hcover
  rw [decodedBytes, elements_length, hlen, bitStream_elements_cover (by rwa [bitStream_length]),
    elements_append_left _ (by rw [bitStream_length, Nat.mul_comm])]
  have hwhole := whole_bitStream (show 0 < 8 by decide) bs
  rwa [whole, bitStream_length, Nat.mul_div_cancel_left _ (by decide)] at hwhole

/-! ### A text read back -/

@[simp] theorem inputBytes_length (s : State) : (inputBytes s).length = s.inLen.toNat := bytesAt_length _ _ _

theorem bytesAt_add (m : Memory) (a n k : Nat) : bytesAt m a (n + k) = bytesAt m a n ++ bytesAt m (a + n) k := by
  simp [bytesAt, List.range_add, Nat.add_assoc]

/-- The string of a window that holds a text and a NUL, the NUL perhaps just behind the window, is the text. -/
theorem inputString_of_text {s : State} {text : List Byte} (hnul : ∀ ch ∈ text, ch ≠ 0)
    (htext : bytesAt s.mem s.inAddr.toNat (text.length + 1) = text ++ [0x00]) (hlen : text.length ≤ s.inLen.toNat) :
    inputString s = text := by
  have hkeep : ∀ ch ∈ text, (ch != 0) = true := fun ch hch => by simpa using hnul ch hch
  have hsplit := htext
  rw [bytesAt_add] at hsplit
  obtain ⟨hfirst, hlast⟩ := List.append_inj hsplit (bytesAt_length _ _ _)
  obtain hwindow | ⟨more, hwindow⟩ : s.inLen.toNat = text.length ∨ ∃ more, s.inLen.toNat = text.length + 1 + more := by
    rcases Nat.eq_or_lt_of_le hlen with h | h
    · exact .inl h.symm
    · exact .inr ⟨_, (Nat.add_sub_of_le h).symm⟩
  · rw [inputString, inputBytes, hwindow, hfirst, List.takeWhile_eq_self_iff.2 hkeep]
  · rw [inputString, inputBytes, hwindow, bytesAt_add, htext, List.append_assoc, List.takeWhile_append_of_pos hkeep]
    simp

end Sys2Proof.Machine
end

section
/-! The steps that the codecs' proofs share: a command past its prologue, the terminator of an encode, and a decode up to
the first character that has no value (41_command_framework.md R139; 40_datapath.md R114). -/

namespace Sys2Proof.Machine

/-- A codec command whose windows, input and capacity are in order goes on after its prologue. -/
theorem bodyOf_main {i : Instr} (hi : i ∈ codecCommands) {s : State} (hu : Usable s) (hz : kindSize (kindOf i) s ≠ 0)
    (hc : reqOf i (kindSize (kindOf i) s) ≤ s.outCap.toNat) :
    bodyOf i s = mainOf i (setLength (kindSize (kindOf i) s) s) := by
  rw [bodyOf_codec hi, prologue_ok _ _ hu hz hc, bind_go]

/-- The terminator goes behind the output, and O does not count it. -/
theorem emitTerminator_appends {s : State} {m : Memory} {out : List Byte} (h : Roomy 1 s)
    (hmem : s.mem = storeList m s.outAddr.toNat out) (ho : s.dp.o.toNat = out.length) :
    ∃ t, emitTerminator s = .go t ∧ t.dp = s.dp ∧ t.mem = storeList m s.outAddr.toNat (out ++ [0x00]) := by
  refine ⟨_, emitTerminator_room h.room h.out, rfl, ?_⟩
  rw [storeByte_mem, hmem, ho, storeList_append]
  rfl

/-- The loop of an encode whose groups are only emitted: the symbols of the whole groups of the input, and room for `k`
bytes more. -/
theorem plainLoop_writes {n k : Nat} (hn : 0 < n) (hn8 : n ≤ 8) (rom : BitVec n → Byte) {s : State} (hs : Started s)
    (hu : Usable s) (hroom : 8 * s.inLen.toNat / n + k ≤ s.outCap.toNat) :
    ∃ t, forInput (emitGroups n rom fun _ s => s) (setLength s.inLen.toNat s) = .go t ∧ Encoded n k s t ∧
      t.outAddr = s.outAddr ∧ t.mem = storeList s.mem s.outAddr.toNat ((whole n (bitStream (inputBytes s))).map rom) := by
  obtain ⟨t, hgo, hencoded⟩ := plainLoop_encoded (k := k) hn hn8 rom hs hu hroom
  obtain ⟨t', hgo', honly, hmem, _⟩ :=
    encodeLoop_started hn hn8 rom (note := fun _ s => s) (fun _ => 0) (fun _ s => by simp) (after := id)
      (fun s => ⟨s.dp.ph, rfl⟩) (fun _ _ => (bind_go_right _).symm) hs hu (Nat.le_of_add_right_le hroom)
  cases hgo.symm.trans hgo'
  refine ⟨t, hgo, hencoded, by rw [honly], ?_⟩
  rw [hmem, whole, bitStream_length, inputBytes_length]

/-- A string with a character that has no value: the symbols before the first such character, and their values. -/
theorem split_at_invalid {n : Nat} {val : Byte → Option (BitVec n)} :
    ∀ {l : List Byte}, (∃ ch ∈ l, val ch = none) →
      ∃ (pre : List Byte) (ch : Byte) (post : List Byte) (vs : List (BitVec n)),
        l = pre ++ ch :: post ∧ pre.map val = vs.map some ∧ val ch = none
  | [], h => by simp at h
  | ch :: l, h => by
    cases hch : val ch with
    | none => exact ⟨[], ch, l, [], rfl, rfl, hch⟩
    | some v =>
      obtain ⟨pre, bad, post, vs, rfl, hvs, hbad⟩ := split_at_invalid (l := l) (by simpa [hch] using h)
      exact ⟨ch :: pre, bad, post, v :: vs, rfl, by simp [hch, hvs], hbad⟩

/-- The loop of a decode ends at a character at which its body ends, if the output of the symbols before it has room. -/
theorem decodeLoop_stop {n : Nat} (hn : n ≤ 8) (val : Byte → Option (BitVec n)) {body : Byte → State → Flow State}
    (hbody : ∀ ch v s, val ch = some v → body ch s = emitUnpacked v s) {s : State} (hs : Started s) (hu : Usable s)
    {pre post : List Byte} {ch : Byte} (hx : inputString s = pre ++ ch :: post) {vs : List (BitVec n)}
    (hvs : pre.map val = vs.map some) (hroom : n * vs.length / 8 ≤ s.outCap.toNat) {code : Code}
    (hstop : ∀ t, body ch t = .stop code t) :
    ∃ t, forInput body (setLength (inputString s).length s) = .stop code t := by
  obtain ⟨t, hloop, hemits, hlength, hindex, _, ho⟩ := decodeLoop_started hn val hbody hs hu hx hvs hroom
  have hsize : (inputString s).length = pre.length + (post.length + 1) := by rw [hx]; simp
  have hle := inputString_length_le s
  have hinside := hu.1
  have hread : bytesAt t.mem (s.inAddr.toNat + pre.length) 1 = [ch] := by
    rw [hemits.readString hu ?_ pre.length 1 (by omega), hx]
    · simp
    · rw [setLength_started hs]
      simpa [decodedBytes, Datapath.zero] using hroom
  have hbyte : readByte t.mem (t.inAddr.toNat + t.dp.i.toNat) = ch := by
    rw [hemits.inAddr, hindex]
    simpa [bytesAt] using hread
  refine ⟨t, ?_⟩
  rw [hloop, List.length_cons]
  refine inputLoop_stop ?_ ?_ (hbyte ▸ hstop t)
  · rw [hindex, hlength, List.length_cons]; omega
  · rw [hemits.inAddr, hemits.memSize, hlength, List.length_cons]
    simp only [setLength_inAddr, setLength_memSize]
    omega

end Sys2Proof.Machine
end

section
/-! ENC16 and DEC16 (42_base16.md R150 to R153). -/

namespace Sys2Proof.Machine

theorem hexVal_hexSym (g : BitVec 4) : hexVal (hexSym g) = some g := (hexVal_eq_some_iff _ g).2 (.inl rfl)

theorem hexSym_ne_nul : ∀ g : BitVec 4, hexSym g ≠ 0 := by decide

theorem hexText_length (bs : List Byte) : (hexText bs).length = 2 * bs.length := by simp [hexText]

/-- A byte is two whole groups, so a base16 text is all of the whole groups of its bytes. -/
theorem hexText_eq_whole (bs : List Byte) : hexText bs = (whole 4 (bitStream bs)).map hexSym := by
  rw [hexText, whole, bitStream_length, show 8 * bs.length / 4 = 2 * bs.length by omega]

/-- DEC16 past its prologue. -/
theorem dec16_body_main {s : State} (hu : Usable s) (hne : inputString s ≠ [])
    (hc : (inputString s).length / 2 ≤ s.outCap.toNat) :
    bodyOf .dec16 s = dec16Main (setLength (inputString s).length s) :=
  bodyOf_main (by decide) hu (fun h => hne (List.length_eq_zero_iff.1 h)) hc

theorem dec16Main_odd {s : State} (h : (inputString s).length % 2 = 1) :
    dec16Main (setLength (inputString s).length s) = .stop .srcerror (setLength (inputString s).length s) := by
  rw [dec16Main, rejectOdd, setLength_toNat s (inputString_length_lt s), if_pos h, bind_stop]

theorem dec16Main_even {s : State} (h : (inputString s).length % 2 = 0) :
    dec16Main (setLength (inputString s).length s) =
      forInput dec16Symbol (setLength (inputString s).length s) := by
  rw [dec16Main, rejectOdd, setLength_toNat s (inputString_length_lt s), if_neg (by omega), bind_go]

theorem dec16Symbol_none {ch : Byte} (h : hexVal ch = none) (s : State) : dec16Symbol ch s = .stop .srcerror s := by
  simp [dec16Symbol, h]

/-- Two digits take half the length in bytes. -/
theorem four_mul_div_eight (n : Nat) : 4 * n / 8 = n / 2 := by omega

end Sys2Proof.Machine

namespace Sys2Proof.Proofs

open Sys2Proof.Machine

/-- Settles O22: the loop writes the whole groups, and the terminator follows them. -/
theorem enc16WritesHexText : Obligations.Enc16WritesHexText := by
  intro s hs hu hpos hcap
  obtain ⟨t, hloop, hencoded, haddr, hmem⟩ :=
    plainLoop_writes (n := 4) (k := 1) (by decide) (by decide) hexSym hs hu (by omega)
  have ho := hencoded.o
  rw [← hexText_eq_whole, ← haddr] at hmem
  obtain ⟨u, hnul, hudp, humem⟩ := emitTerminator_appends hencoded.roomy hmem
    (by rw [ho, hexText_length, inputBytes_length]; omega)
  have hbody : bodyOf .enc16 s = .go u := by
    rw [bodyOf_main (i := .enc16) (by decide) hu (Nat.ne_of_gt hpos) hcap]
    exact (congrArg (Flow.bind · emitTerminator) hloop).trans hnul
  rw [haddr] at humem
  exact succeeds_of_go hbody (by rw [hudp, ho]; omega) humem

/-- Settles O23: the loop runs over the whole string, and nothing is left for it to read. -/
theorem dec16WritesBytes : Obligations.Dec16WritesBytes := by
  intro s vs hs hu hvs hne heven hcap
  have hlen : (inputString s).length = vs.length := by simpa using congrArg List.length hvs
  obtain ⟨t, hloop, _, _, _, hmem, ho⟩ := decodeLoop_started (n := 4) (zs := []) (by decide) hexVal dec16Symbol_some hs
    hu (List.append_nil _).symm hvs (by rwa [four_mul_div_eight])
  have hbody : bodyOf .dec16 s = .go t := by
    rw [dec16_body_main hu ?_ (by rwa [hlen]), dec16Main_even (by rwa [hlen]), hloop]
    · rfl
    · rw [← List.length_pos_iff, hlen]
      exact List.length_pos_iff.2 hne
  exact succeeds_of_go hbody (by rw [ho, four_mul_div_eight]) hmem

/-- Settles O36: an odd length ends the command before its loop, and a character that is no digit ends the loop. -/
theorem dec16SourceErrors : Obligations.Dec16SourceErrors := by
  intro s hs hu hne hcap hbad
  obtain ⟨t, hstop⟩ : ∃ t, dec16Main (setLength (inputString s).length s) = .stop .srcerror t := by
    by_cases hodd : (inputString s).length % 2 = 1
    · exact ⟨_, dec16Main_odd hodd⟩
    · obtain ⟨pre, ch, post, vs, hsplit, hvs, hch⟩ := split_at_invalid (hbad.resolve_left hodd)
      have hpre : pre.length = vs.length := by simpa using congrArg List.length hvs
      have htotal : (inputString s).length = pre.length + (post.length + 1) := by rw [hsplit]; simp
      rw [dec16Main_even (by omega)]
      exact decodeLoop_stop (by decide) hexVal dec16Symbol_some hs hu hsplit hvs (by omega) (dec16Symbol_none hch)
  exact failsWindowFree_of_stop hu ((dec16_body_main hu hne hcap).trans hstop) (by decide) rfl

/-- Settles O30: DEC16 reads the text of ENC16 (O22) as digits, and their stream is that of the bytes (O23). -/
theorem base16RoundTrip : Obligations.Base16RoundTrip := by
  intro s hs hu
  refine ⟨fun hz => emptyInputGivesArguments .enc16 s (by decide) hu hz, fun hpos hcap => ?_⟩
  obtain ⟨t, hexec, ⟨hresult, _⟩, _, _, hout, _⟩ := enc16WritesHexText s hs hu hpos hcap
  refine ⟨t, hexec, hresult, fun u hsu huu hcopy hlen hroom => ?_⟩
  have hbytes := inputBytes_length s
  have htext : (hexText (inputBytes s)).length = 2 * s.inLen.toNat := by rw [hexText_length, hbytes]
  rw [List.length_append, List.length_singleton, htext] at hout
  have hstring : inputString u = hexText (inputBytes s) := by
    refine inputString_of_text (fun ch hch => ?_) (by rw [htext, hcopy, hout]) (by omega)
    obtain ⟨g, _, rfl⟩ := List.mem_map.1 hch
    exact hexSym_ne_nul g
  have hvals : (inputString u).map hexVal =
      (elements 4 (2 * (inputBytes s).length) (bitStream (inputBytes s))).map some := by
    rw [hstring, hexText, List.map_map]
    exact List.map_congr_left fun g _ => hexVal_hexSym g
  have hdecoded := dec16WritesBytes u _ hsu huu hvals
    (by rw [← List.length_pos_iff, elements_length]; omega) (by rw [elements_length]; omega)
    (by rw [elements_length]; omega)
  rwa [decodedBytes_elements (by omega) (by omega), elements_length, hbytes,
    Nat.mul_div_cancel_left _ (by decide)] at hdecoded

end Sys2Proof.Proofs
end

section
/-! A state between the stages of a command: what has been written and what is still to come. The stages around the
loops of the codecs are stated of it (40_datapath.md R107, R112 to R114; 41_command_framework.md R142). -/

namespace Sys2Proof.Machine

/-! ### An encode -/

/-- An encode that began in `s` has written `out` in `t`, and has room for `k` bytes more. -/
structure Written (s : State) (out : List Byte) (k : Nat) (t : State) : Prop where
  /-- The room left. -/
  roomy : Roomy k t
  /-- OUT_ADDR stays. -/
  outAddr : t.outAddr = s.outAddr
  /-- The bytes written. -/
  mem : t.mem = storeList s.mem s.outAddr.toNat out
  /-- O counts them. -/
  o : t.dp.o.toNat = out.length

/-- Emitting a list of bytes for which there is room. -/
theorem Written.emitted_more {s t : State} {out more : List Byte} {k : Nat} (h : Written s out (more.length + k) t) :
    Written s (out ++ more) k (emitted more t) := by
  have hroom := h.roomy.room
  have ho := emitted_o (s := t) (out := more) (by omega)
  refine ⟨⟨h.roomy.out, ?_⟩, h.outAddr, ?_, by rw [ho, h.o, List.length_append]⟩
  · show (emitted more t).dp.o.toNat + k ≤ t.outCap.toNat
    omega
  · show storeList t.mem (t.outAddr.toNat + t.dp.o.toNat) more = _
    rw [h.mem, h.outAddr, h.o, storeList_append]

theorem Written.withDatapath {s t : State} {out : List Byte} {k : Nat} (h : Written s out k t) {d : Datapath}
    (hd : d.o = t.dp.o) : Written s out k (withDatapath d t) :=
  ⟨⟨h.roomy.out, hd ▸ h.roomy.room⟩, h.outAddr, h.mem, hd ▸ h.o⟩

/-- The terminator ends an encode. -/
theorem Written.emitTerminator {s t : State} {out : List Byte} (h : Written s out 1 t) :
    ∃ u, emitTerminator t = .go u ∧ u.dp.o.toNat = out.length ∧
      u.mem = storeList s.mem s.outAddr.toNat (out ++ [0x00]) := by
  obtain ⟨u, hgo, hdp, hmem⟩ := emitTerminator_appends h.roomy (h.outAddr ▸ h.mem) h.o
  exact ⟨u, hgo, by rw [hdp, h.o], h.outAddr ▸ hmem⟩

/-- The loop of an encode whose groups are only emitted writes the symbols of the whole groups and holds the rest. -/
theorem plainLoop_written {n k : Nat} (hn : 0 < n) (hn8 : n ≤ 8) (rom : BitVec n → Byte) {s : State} (hs : Started s)
    (hu : Usable s) (hroom : 8 * s.inLen.toNat / n + k ≤ s.outCap.toNat) :
    ∃ t, forInput (emitGroups n rom fun _ s => s) (setLength s.inLen.toNat s) = .go t ∧
      Written s ((whole n (bitStream (inputBytes s))).map rom) k t ∧ Carries t.dp (rest n (bitStream (inputBytes s))) := by
  obtain ⟨t, hgo, hencoded, haddr, hmem⟩ := plainLoop_writes hn hn8 rom hs hu hroom
  refine ⟨t, hgo, ⟨hencoded.roomy, haddr, hmem, ?_⟩, hencoded.carries⟩
  rw [hencoded.o, List.length_map, whole_length, bitStream_length, inputBytes_length]

/-! ### A decode -/

/-- A decode that began in `s` has consumed symbols of the values `vs` in `t`, and `tail` is still to come. -/
structure DecodedTo {n : Nat} (s : State) (vs : List (BitVec n)) (tail : List Byte) (t : State) : Prop where
  /-- I is where `tail` begins, and `tail` ends at S. -/
  length : t.dp.s.toNat = t.dp.i.toNat + tail.length
  /-- The input is in memory. -/
  inside : t.inAddr.toNat + t.dp.s.toNat ≤ t.memSize
  /-- What is still to come. -/
  tail : bytesAt t.mem (t.inAddr.toNat + t.dp.i.toNat) tail.length = tail
  /-- OUT_CAP stays. -/
  outCap : t.outCap = s.outCap
  /-- The whole bytes of the values have been written. -/
  mem : t.mem = storeList s.mem s.outAddr.toNat (decodedBytes vs)
  /-- O counts them. -/
  o : t.dp.o.toNat = n * vs.length / 8
  /-- The bits held. -/
  carries : Carries t.dp (rest 8 (bitStream vs))

/-- The loop of a decode over the symbols `pre` at the start of the string. -/
theorem decodeLoop_decodedTo {n : Nat} (hn : n ≤ 8) (val : Byte → Option (BitVec n)) {body : Byte → State → Flow State}
    (hbody : ∀ ch v s, val ch = some v → body ch s = emitUnpacked v s) {s : State} (hs : Started s) (hu : Usable s)
    {pre tail : List Byte} (hx : inputString s = pre ++ tail) {vs : List (BitVec n)} (hvs : pre.map val = vs.map some)
    (hroom : n * vs.length / 8 ≤ s.outCap.toNat) :
    ∃ t, forInput body (setLength (inputString s).length s) = inputLoop body tail.length t ∧ DecodedTo s vs tail t := by
  obtain ⟨t, hloop, hemits, hlength, hindex, hmem, ho⟩ := decodeLoop_started hn val hbody hs hu hx hvs hroom
  have hsize : (inputString s).length = pre.length + tail.length := by rw [hx, List.length_append]
  have hle := inputString_length_le s
  have hinside := hu.1
  refine ⟨t, hloop, by rw [hlength, hindex], ?_, ?_, by rw [hemits.outCap, setLength_outCap], hmem, ho, hemits.carries⟩
  · rw [hemits.inAddr, hemits.memSize, hlength, setLength_inAddr, setLength_memSize]
    omega
  · rw [hemits.inAddr, setLength_inAddr, hindex, hemits.readString hu ?_ _ _ (by omega), hx, List.drop_left,
      List.take_length]
    rw [setLength_started hs]
    simpa [decodedBytes, Datapath.zero] using hroom

/-- The loop ends at the next character where its body ends there. -/
theorem DecodedTo.loop_stop {n : Nat} {s t u : State} {vs : List (BitVec n)} {ch : Byte} {post : List Byte}
    (h : DecodedTo s vs (ch :: post) t) {body : Byte → State → Flow State} {code : Code}
    (hstop : body ch t = .stop code u) : inputLoop body (ch :: post).length t = .stop code u := by
  have hlength := h.length
  have hnext := h.tail
  rw [List.length_cons] at hlength
  rw [List.length_cons, bytesAt_succ, List.cons.injEq] at hnext
  exact inputLoop_stop (by omega) h.inside (by rwa [hnext.1])

end Sys2Proof.Machine
end

section
/-! ENC32 and DEC32 (43_base32.md R160 to R165). -/

namespace Sys2Proof.Machine

/-! ### Padding -/

/-- PADCOUNT is what the data symbols of `n` bytes lack to a multiple of 8 (R162). -/
theorem padCount_fills (n : Nat) : padCount (n % 5) = (8 - (8 * n + 4) / 5 % 8) % 8 := by
  have hmod : n % 5 = 0 ∨ n % 5 = 1 ∨ n % 5 = 2 ∨ n % 5 = 3 ∨ n % 5 = 4 := by omega
  rcases hmod with h | h | h | h | h <;> rw [h] <;> simp only [padCount] <;> omega

/-- The data symbols of `n` bytes and their padding are 8 characters for each five bytes begun. -/
theorem symbols_add_padCount (n : Nat) : (8 * n + 4) / 5 + padCount (n % 5) = 8 * ((n + 4) / 5) := by
  rw [padCount_fills]
  omega

/-- The data symbols of `n` bytes are the whole groups and the final one. -/
theorem symbols_eq_add_final (n : Nat) : (8 * n + 4) / 5 = 8 * n / 5 + (8 * n % 5 + 4) / 5 := by omega

/-- R164's table: the padding after `q` symbols depends on `q` mod 8 alone. -/
theorem padCount_decoded (q : Nat) :
    padCount (5 * q / 8 % 5) = [0, 0, 6, 6, 4, 3, 3, 1].getD (q % 8) 0 := by
  have hsplit : 5 * q / 8 = 5 * (q / 8) + 5 * (q % 8) / 8 := by omega
  have hbytes : 5 * q / 8 % 5 = 5 * (q % 8) / 8 := by
    rw [hsplit, Nat.mul_add_mod, Nat.mod_eq_of_lt (by omega)]
  have htable : ∀ r < 8, padCount (5 * r / 8) = [0, 0, 6, 6, 4, 3, 3, 1].getD r 0 := by decide
  rw [hbytes]
  exact htable _ (Nat.mod_lt _ (by decide))

/-! ### ENC32 -/

theorem b32Text_length (bs : List Byte) : (b32Text bs).length = 8 * ((bs.length + 4) / 5) := by
  rw [b32Text, List.length_append, List.length_map, elements_length, List.length_replicate, symbols_add_padCount]

/-- The data symbols of a text are those of the whole groups and of the bits left, zero-filled below. -/
theorem b32Symbols_eq (bs : List Byte) :
    (elements 5 ((8 * bs.length + 4) / 5) (bitStream bs)).map b32Sym =
      (whole 5 (bitStream bs)).map b32Sym ++
        (elements 5 ((8 * bs.length % 5 + 4) / 5) (rest 5 (bitStream bs))).map b32Sym := by
  rw [symbols_eq_add_final, elements_add, List.map_append, whole, rest, bitStream_length]

/-- The final group: the symbol of the bits held, if there are any. -/
theorem enc32Flush_eq {s : State} {r : List Bool} (hc : Carries s.dp r) (hr : r.length < 5)
    (h : Roomy ((r.length + 4) / 5) s) :
    enc32Flush s = .go (emitted ((elements 5 ((r.length + 4) / 5) r).map b32Sym)
      (withDatapath (flushGroup 5 s.dp).2 s)) := by
  obtain ⟨hgroup, _, _⟩ := flushGroup_spec (n := 5) (by omega) hc hr
  have hroom := h.room
  unfold enc32Flush
  simp only [hgroup]
  cases r with
  | nil => simp [elements]
  | cons b r =>
    have hone : ((b :: r).length + 4) / 5 = 1 := by rw [List.length_cons] at hr ⊢; omega
    rw [hone] at hroom ⊢
    have ho : (withDatapath (flushGroup 5 s.dp).2 s).dp.o = s.dp.o := by rw [withDatapath_dp, flushGroup_input]
    rw [if_neg (List.cons_ne_nil b r)]
    exact emitSymbol_room (by rw [ho, withDatapath_outCap]; omega) h.out

theorem enc32Flush_written {s t : State} {out : List Byte} {k : Nat} {r : List Bool} (hc : Carries t.dp r)
    (hr : r.length < 5) (h : Written s out ((r.length + 4) / 5 + k) t) :
    ∃ u, enc32Flush t = .go u ∧ Written s (out ++ (elements 5 ((r.length + 4) / 5) r).map b32Sym) k u := by
  refine ⟨_, enc32Flush_eq hc hr ⟨h.roomy.out, Nat.le_trans (by omega) h.roomy.room⟩, Written.emitted_more ?_⟩
  rw [List.length_map, elements_length]
  exact h.withDatapath (by rw [flushGroup_input])

theorem padToEight_written {s t : State} {out : List Byte} {k : Nat}
    (h : Written s out ((8 - out.length % 8) % 8 + k) t) :
    ∃ u, padToEight 8 t = .go u ∧ Written s (out ++ List.replicate ((8 - out.length % 8) % 8) padChar) k u := by
  have hroom := h.roomy.room
  have ho := h.o
  refine ⟨_, padToEight_room 8 t h.roomy.out (Nat.mod_lt _ (by decide)) (by omega), ?_⟩
  rw [ho]
  exact Written.emitted_more (by rwa [List.length_replicate])

/-- ENC32 past its prologue writes the text of the input and a NUL, which O does not count. -/
theorem enc32Main_writes {s : State} (hs : Started s) (hu : Usable s)
    (hcap : reqEnc32 s.inLen.toNat ≤ s.outCap.toNat) :
    ∃ t, enc32Main (setLength s.inLen.toNat s) = .go t ∧ t.dp.o.toNat = (b32Text (inputBytes s)).length ∧
      t.mem = storeList s.mem s.outAddr.toNat (b32Text (inputBytes s) ++ [0x00]) := by
  unfold reqEnc32 at hcap
  have hlen := inputBytes_length s
  have hrest : (rest 5 (bitStream (inputBytes s))).length = 8 * (inputBytes s).length % 5 := by
    rw [rest_length, bitStream_length]
  have hfill := padCount_fills (inputBytes s).length
  have hsymbols := symbols_eq_add_final s.inLen.toNat
  have htotal := symbols_add_padCount s.inLen.toNat
  obtain ⟨t, hloop, ht, hcarry⟩ := plainLoop_written (n := 5)
    (k := (8 * (inputBytes s).length % 5 + 4) / 5 + (padCount ((inputBytes s).length % 5) + 1)) (by decide) (by decide)
    b32Sym hs hu (by rw [hlen]; omega)
  obtain ⟨u, hflush, hu'⟩ := enc32Flush_written hcarry (rest_length_lt (by decide) _) (hrest ▸ ht)
  rw [hrest, ← b32Symbols_eq] at hu'
  obtain ⟨v, hpad, hv⟩ := padToEight_written (k := 1) (by
    rwa [List.length_map, elements_length, ← hfill])
  rw [List.length_map, elements_length, ← hfill] at hv
  obtain ⟨w, hnul, ho, hmem⟩ := hv.emitTerminator
  refine ⟨w, ?_, ho, hmem⟩
  rw [enc32Main, hloop, bind_go, hflush, bind_go, hpad, bind_go, hnul]

/-! ### DEC32 -/

theorem b32Val_b32Sym (g : BitVec 5) : b32Val (b32Sym g) = some g := (b32Val_eq_some_iff _ g).2 (.inl rfl)

theorem b32Sym_ne_nul : ∀ g : BitVec 5, b32Sym g ≠ 0 := by decide

theorem dec32Symbol_none {ch : Byte} (hpad : ch ≠ padChar) (h : b32Val ch = none) (s : State) :
    dec32Symbol ch s = .stop .srcerror s := by
  simp [dec32Symbol, hpad, h]

/-- The first `=` ends the command: with OK if what is left is the padding of the bytes decoded, else with SRCERROR. -/
theorem DecodedTo.dec32Symbol_pad {s t : State} {vs : List (BitVec 5)} {post : List Byte}
    (h : DecodedTo s vs (padChar :: post) t) :
    dec32Symbol padChar t =
      if padChar :: post = List.replicate (padCount (5 * vs.length / 8 % 5)) padChar then .stop .ok t
      else .stop .srcerror t := by
  have hlength := h.length
  have hinside := h.inside
  have hleft : t.dp.s.toNat - t.dp.i.toNat = (padChar :: post).length := by omega
  simp only [dec32Symbol, dec32Padding, if_true, hleft, h.o]
  split
  · next hcount => rw [padRun_eq _ _ _ (by omega), h.tail, ← hcount]
  · next hcount =>
    rw [if_neg]
    intro hpadding
    exact hcount (by simpa using congrArg List.length hpadding)

/-- DEC32 past its prologue, which checks no capacity. -/
theorem dec32_body_main {s : State} (hu : Usable s) (hne : inputString s ≠ []) :
    bodyOf .dec32 s = forInput dec32Symbol (setLength (inputString s).length s) :=
  bodyOf_main (i := .dec32) (by decide) hu (fun h => hne (List.length_eq_zero_iff.1 h)) (Nat.zero_le _)

/-- DEC32 up to the character after some symbols whose bytes fit. -/
theorem dec32_decodedTo {s : State} (hs : Started s) (hu : Usable s) {pre post : List Byte} {ch : Byte}
    (hx : inputString s = pre ++ ch :: post) {vs : List (BitVec 5)} (hvs : pre.map b32Val = vs.map some)
    (hroom : 5 * vs.length / 8 ≤ s.outCap.toNat) :
    ∃ t, bodyOf .dec32 s = inputLoop dec32Symbol (ch :: post).length t ∧ DecodedTo s vs (ch :: post) t := by
  rw [dec32_body_main hu (by simp [hx])]
  exact decodeLoop_decodedTo (by decide) b32Val dec32Symbol_some hs hu hx hvs hroom

/-- Symbols that hold more bytes than fit: the one at which the output window is full and a byte is completed. -/
theorem exists_overflow_symbol {cap q : Nat} (h : cap < 5 * q / 8) : ∃ k < q, 5 * k / 8 = cap ∧ 8 ≤ 5 * k % 8 + 5 := by
  obtain ⟨k, hlo, hhi⟩ : ∃ k, 8 * cap + 3 ≤ 5 * k ∧ 5 * k < 8 * cap + 8 := ⟨(8 * cap + 7) / 5, by omega, by omega⟩
  have hcap : 5 * k / 8 = cap := by omega
  exact ⟨k, by omega, hcap, by omega⟩

/-- DEC32 of symbols that hold more bytes than fit ends at the first byte that does not. -/
theorem dec32_overflow {s : State} (hs : Started s) (hu : Usable s) {pre post : List Byte}
    (hx : inputString s = pre ++ post) {vs : List (BitVec 5)} (hvs : pre.map b32Val = vs.map some)
    (hfull : s.outCap.toNat < 5 * vs.length / 8) : ∃ t, bodyOf .dec32 s = .stop .overflow t := by
  obtain ⟨k, hk, hcap, hbyte⟩ := exists_overflow_symbol hfull
  have hlen : pre.length = vs.length := by simpa using congrArg List.length hvs
  have hkp : k < pre.length := by omega
  have hsplit : inputString s = pre.take k ++ pre[k] :: (pre.drop (k + 1) ++ post) := by
    rw [hx, ← List.cons_append, ← List.drop_eq_getElem_cons hkp, ← List.append_assoc, List.take_append_drop]
  have htake : (pre.take k).map b32Val = (vs.take k).map some := by rw [List.map_take, hvs, List.map_take]
  have hval : b32Val pre[k] = some vs[k] := by
    have := List.getElem_of_eq hvs (i := k) (by simpa using hkp)
    simpa using this
  have hcount : (vs.take k).length = k := List.length_take_of_le (by omega)
  obtain ⟨t, hbody, ht⟩ := dec32_decodedTo hs hu hsplit htake (by rw [hcount]; omega)
  have hrest : (rest 8 (bitStream (vs.take k))).length = 5 * k % 8 := by rw [rest_length, bitStream_length, hcount]
  obtain ⟨u, hstop⟩ := emitUnpacked_full (by decide) vs[k] ht.carries (rest_length_lt (by decide) _)
    (by rwa [hrest]) (by rw [ht.outCap, ht.o, hcount]; omega)
  exact ⟨u, hbody.trans (ht.loop_stop ((dec32Symbol_some _ _ _ hval).trans hstop))⟩

end Sys2Proof.Machine

namespace Sys2Proof.Proofs

open Sys2Proof.Machine

/-- Settles O24: after its prologue ENC32 writes the text and the NUL. -/
theorem enc32WritesBase32Text : Obligations.Enc32WritesBase32Text := by
  intro s hs hu hpos hcap
  obtain ⟨t, hmain, ho, hmem⟩ := enc32Main_writes hs hu hcap
  have hbody : bodyOf .enc32 s = .go t :=
    (bodyOf_main (i := .enc32) (by decide) hu (Nat.ne_of_gt hpos) hcap).trans hmain
  exact succeeds_of_go hbody (by rw [ho, b32Text_length, inputBytes_length]) hmem

/-- Settles O25: the loop runs over the whole string, and nothing is left for it to read. -/
theorem dec32WritesUnpaddedBytes : Obligations.Dec32WritesUnpaddedBytes := by
  intro s vs hs hu hvs hne hcap
  obtain ⟨t, hloop, ht⟩ := decodeLoop_decodedTo (tail := []) (by decide) b32Val dec32Symbol_some hs hu
    (List.append_nil _).symm hvs hcap
  have hstring : inputString s ≠ [] := fun h => hne (by simpa [h] using hvs.symm)
  exact succeeds_of_go ((dec32_body_main hu hstring).trans hloop) ht.o ht.mem

/-- Settles O26: the loop ends at the first `=`, with OK exactly for the padding that R164's table gives. -/
theorem dec32PaddingAcceptance : Obligations.Dec32PaddingAcceptance := by
  intro s syms vs p hs hu hx hp hvs hcap
  obtain ⟨p, rfl⟩ : ∃ p', p = p' + 1 := ⟨p - 1, by omega⟩
  rw [List.replicate_succ] at hx
  obtain ⟨t, hbody, ht⟩ := dec32_decodedTo hs hu hx hvs hcap
  have hpad := ht.dec32Symbol_pad
  rw [← List.replicate_succ, padCount_decoded] at hpad
  simp only [List.replicate_left_inj] at hpad
  constructor
  · intro hcount
    rw [if_pos hcount] at hpad
    exact succeeds_of_stop (hbody.trans (ht.loop_stop hpad)) ht.o ht.mem
  · intro hcount
    rw [if_neg hcount] at hpad
    exact failsWindowFree_of_stop hu (hbody.trans (ht.loop_stop hpad)) (by decide) rfl

/-- Settles O37: the byte that does not fit ends the loop before what follows it is read; symbols that fit bring it to
the next character. -/
theorem dec32FirstErrorInInputOrder : Obligations.Dec32FirstErrorInInputOrder := by
  constructor
  · intro s pre post vs hs hu hx hvs hfull
    obtain ⟨t, hstop⟩ := dec32_overflow hs hu hx hvs hfull
    exact failsWindowFree_of_stop hu hstop (by decide) rfl
  · intro s pre post ch vs hs hu hx hvs hcap hbad
    obtain ⟨t, hbody, ht⟩ := dec32_decodedTo hs hu hx hvs hcap
    have hstop : dec32Symbol ch t = .stop .srcerror t := by
      rcases hbad with ⟨hpad, hnone⟩ | ⟨rfl, htail⟩
      · exact dec32Symbol_none hpad hnone t
      · rw [ht.dec32Symbol_pad, if_neg htail]
    exact failsWindowFree_of_stop hu (hbody.trans (ht.loop_stop hstop)) (by decide) rfl

/-- What O25 and O26 say of symbols whose padding is PADCOUNT's, be it none. -/
theorem dec32_padded {s : State} (hs : Started s) (hu : Usable s) {syms : List Byte} {vs : List (BitVec 5)}
    (hx : inputString s = syms ++ List.replicate (padCount (5 * vs.length / 8 % 5)) padChar)
    (hvs : syms.map b32Val = vs.map some) (hne : vs ≠ []) (hcap : 5 * vs.length / 8 ≤ s.outCap.toNat) :
    Succeeds .dec32 s (decodedBytes vs) (5 * vs.length / 8) := by
  obtain hnone | hsome := Nat.eq_zero_or_pos (padCount (5 * vs.length / 8 % 5))
  · rw [hnone, List.replicate_zero, List.append_nil] at hx
    exact dec32WritesUnpaddedBytes s vs hs hu (hx ▸ hvs) hne hcap
  · exact (dec32PaddingAcceptance s syms vs _ hs hu hx hsome hvs hcap).1 (padCount_decoded _)

/-- Settles O31: DEC32 reads the text of ENC32 (O24) as symbols, whose stream is that of the bytes, and the padding
that it expects after them (O25, O26). -/
theorem base32RoundTrip : Obligations.Base32RoundTrip := by
  intro s hs hu hpos hcap
  obtain ⟨t, hexec, ⟨hresult, _⟩, _, _, hout, _⟩ := enc32WritesBase32Text s hs hu hpos hcap
  refine ⟨t, hexec, hresult, fun u hsu huu hcopy hlen hroom => ?_⟩
  have hbytes := inputBytes_length s
  have htext : (b32Text (inputBytes s)).length = 8 * ((s.inLen.toNat + 4) / 5) := by rw [b32Text_length, hbytes]
  rw [List.length_append, List.length_singleton, htext] at hout
  have hstring : inputString u = b32Text (inputBytes s) := by
    refine inputString_of_text (fun ch hch => ?_) (by rw [htext, hcopy, hout]) (by omega)
    rcases List.mem_append.1 hch with hsym | hpad
    · obtain ⟨g, _, rfl⟩ := List.mem_map.1 hsym
      exact b32Sym_ne_nul g
    · rw [List.eq_of_mem_replicate hpad]
      decide
  have hvs : ((elements 5 ((8 * (inputBytes s).length + 4) / 5) (bitStream (inputBytes s))).map b32Sym).map b32Val =
      (elements 5 ((8 * (inputBytes s).length + 4) / 5) (bitStream (inputBytes s))).map some := by
    rw [List.map_map]
    exact List.map_congr_left fun g _ => b32Val_b32Sym g
  have hcount : 5 * ((8 * (inputBytes s).length + 4) / 5) / 8 = (inputBytes s).length := by omega
  have hdecoded := dec32_padded hsu huu (by rw [hstring, b32Text, elements_length, hcount]) hvs
    (by rw [← List.length_pos_iff, elements_length]; omega) (by rw [elements_length, hcount, hbytes]; exact hroom)
  rwa [decodedBytes_elements (by omega) (by omega), elements_length, hcount, hbytes] at hdecoded

end Sys2Proof.Proofs
end

section
/-! The digits of base8 on the bit stream (44_base8.md R170 to R173): the full groups and the digit with the check field
join to the stream of the bytes with the check bits behind it. -/

namespace Sys2Proof.Machine

/-! ### Streams -/

theorem decodedBytes_eq_whole {n : Nat} (vs : List (BitVec n)) : decodedBytes vs = whole 8 (bitStream vs) := by
  rw [whole, bitStream_length, decodedBytes]

theorem bitsValue_rest (n : Nat) (l : List Bool) : bitsValue (rest n l) = bitsValue l % 2 ^ (l.length % n) := by
  rw [rest, (bitsValue_take_drop l _).2, ← Nat.mod_eq_sub_div_mul]

/-- The whole elements and the rest of a stream join to the stream. -/
theorem bitStream_whole_append_rest (n : Nat) (l : List Bool) : bitStream (whole n l) ++ rest n l = l := by
  have hle := Nat.div_mul_le_self l.length n
  have htake : bitStream (whole n l) = l.take (l.length / n * n) := by
    rw [whole, bitStream_elements]
    apply List.ext_getElem
    · simp [hle]
    · intro j hj _
      have hlt : j < l.length := by simp at hj; omega
      simp [hlt]
  rw [htake, rest, List.take_append_drop]

/-- The first element of a stream that is no longer than it: the bits, and zeros below. -/
theorem element_zero {n : Nat} {r : List Bool} (h : r.length ≤ n) :
    element n r 0 = BitVec.ofNat n (bitsValue r * 2 ^ (n - r.length)) := by
  have hbits : bitsOf (element n r 0) = r ++ List.replicate (n - r.length) false := by
    simpa [elements] using bitStream_elements_cover (n := n) (count := 1) (l := r) (by omega)
  have hvalue := congrArg bitsValue hbits
  rw [bitsValue_bitsOf, bitsValue_append, bitsValue_replicate_false, Nat.add_zero, List.length_replicate] at hvalue
  rw [← hvalue, BitVec.ofNat_toNat, BitVec.setWidth_eq]

/-! ### Weights and the check -/

theorem weightSum_eq (gs : List (BitVec 3)) : (gs.map weight).sum = hammingSum gs := by
  rw [hammingSum, funext weight_eq_hamming]

theorem hammingSum_append (gs hs : List (BitVec 3)) : hammingSum (gs ++ hs) = hammingSum gs + hammingSum hs := by
  simp [hammingSum]

theorem hammingSum_cons (g : BitVec 3) (gs : List (BitVec 3)) : hammingSum (g :: gs) = hamming g + hammingSum gs := by
  simp [hammingSum]

/-- P counts modulo 2^32, which the modulus 2 * cb = 2^cb of the check divides (R173). -/
theorem parity_mod {cb : Nat} (hcb : cb = 1 ∨ cb = 2) (w : Nat) :
    (BitVec.ofNat 32 w).toNat % (2 * cb) = w % 2 ^ cb := by
  rw [BitVec.toNat_ofNat]
  rcases hcb with rfl | rfl <;> omega

/-- The check of a count that has one: the last digit against the weight of the others (R175). -/
theorem checkPasses_concat {pre : List (BitVec 3)} {last : BitVec 3} (h : (pre ++ [last]).length % 8 ≠ 0) :
    checkPasses (pre ++ [last]) ↔
      last.toNat % 2 ^ ((pre ++ [last]).length % 8 / 3) = hammingSum pre % 2 ^ ((pre ++ [last]).length % 8 / 3) := by
  rw [checkPasses, List.getLastD_concat, List.dropLast_concat, or_iff_right h]

/-! ### The digits of an encode -/

/-- The digits of a base8 encode: the full groups and the last digit. -/
def b8Digits (bs : List Byte) : List (BitVec 3) := b8Groups bs ++ b8Last bs

/-- The check field of the last digit: `L mod 3` bits (R173). -/
def b8CheckBits (bs : List Byte) : List Bool := bitsOf (BitVec.ofNat (bs.length % 3) (hammingSum (b8Groups bs)))

theorem b8Text_eq (bs : List Byte) : b8Text bs = (b8Digits bs).map b8Sym := rfl

theorem b8Groups_eq_whole (bs : List Byte) : b8Groups bs = whole 3 (bitStream bs) := by
  rw [b8Groups, whole, bitStream_length]

theorem b8Last_eq_nil {bs : List Byte} (h : bs.length % 3 = 0) : b8Last bs = [] := if_pos h

/-- R173: the bits left of the stream in the high positions, the check field below them. -/
theorem b8Last_eq_singleton {bs : List Byte} (h : bs.length % 3 ≠ 0) :
    b8Last bs = [BitVec.ofNat 3 (bitsValue (rest 3 (bitStream bs) ++ b8CheckBits bs))] := by
  have hrest : (rest 3 (bitStream bs)).length = 3 - bs.length % 3 := by rw [rest_length, bitStream_length]; omega
  have hdata : element 3 (bitStream bs) (8 * bs.length / 3) =
      BitVec.ofNat 3 (bitsValue (rest 3 (bitStream bs)) * 2 ^ (bs.length % 3)) := by
    rw [← Nat.add_zero (8 * bs.length / 3), ← element_drop, ← bitStream_length, ← rest, element_zero (by omega), hrest,
      Nat.sub_sub_self (by omega)]
  rw [b8Last, if_neg h, hdata, ← BitVec.ofNat_add, bitsValue_append, b8CheckBits, bitsOf_length, bitsValue_bitsOf,
    BitVec.toNat_ofNat]

/-- ceil(8L/3) in the terms of R170: 8 digits for each three bytes, and 3 for each byte left. -/
theorem digitCount_eq (n : Nat) : (8 * n + 2) / 3 = 8 * (n / 3) + 3 * (n % 3) := by
  have hmod : n % 3 = 0 ∨ n % 3 = 1 ∨ n % 3 = 2 := by omega
  rcases hmod with h | h | h <;> omega

theorem b8Digits_length (bs : List Byte) : (b8Digits bs).length = (8 * bs.length + 2) / 3 := by
  rw [b8Digits, List.length_append, b8Groups, elements_length]
  by_cases h : bs.length % 3 = 0
  · rw [b8Last_eq_nil h, List.length_nil]; omega
  · have hcount := digitCount_eq bs.length
    rw [b8Last_eq_singleton h, List.length_singleton]
    omega

/-- The digits hold the stream of the bytes, and behind it the check field. -/
theorem bitStream_b8Digits (bs : List Byte) : bitStream (b8Digits bs) = bitStream bs ++ b8CheckBits bs := by
  have hjoin := bitStream_whole_append_rest 3 (bitStream bs)
  have hrest := rest_length 3 (bitStream bs)
  rw [← b8Groups_eq_whole] at hjoin
  rw [bitStream_length] at hrest
  have hcheck : (b8CheckBits bs).length = bs.length % 3 := bitsOf_length _
  conv_rhs => rw [← hjoin]
  rw [b8Digits, bitStream_append, List.append_assoc]
  congr 1
  by_cases h : bs.length % 3 = 0
  · rw [b8Last_eq_nil h, bitStream_nil, List.length_eq_zero_iff.1 (hcheck.trans h), List.append_nil,
      List.length_eq_zero_iff.1 (hrest.trans (by omega))]
  · rw [b8Last_eq_singleton h, bitStream_cons, bitStream_nil, List.append_nil,
      bitsOf_bitsValue (by rw [List.length_append, hrest, hcheck]; omega)]

/-- The bytes come back from the digits: the check field is less than a byte. -/
theorem decodedBytes_b8Digits (bs : List Byte) : decodedBytes (b8Digits bs) = bs := by
  have hcount : 3 * ((8 * bs.length + 2) / 3) / 8 = bs.length := by omega
  have hwhole := whole_bitStream (show 0 < 8 by decide) bs
  rw [whole, bitStream_length, Nat.mul_div_cancel_left _ (by decide)] at hwhole
  rw [decodedBytes, b8Digits_length, hcount, bitStream_b8Digits,
    elements_append_left _ (by rw [bitStream_length, Nat.mul_comm]), hwhole]

/-- After ceil(8L/3) digits, the count mod 8 is 3 * (L mod 3), so decode finds the check bits of encode (R178). -/
theorem b8Digits_aligned (n : Nat) : (8 * n + 2) / 3 % 8 = 3 * (n % 3) := by
  rw [digitCount_eq]
  omega

/-- The check of an encode's digits passes: the check field is the low bits of the last digit (R175). -/
theorem checkPasses_b8Digits (bs : List Byte) : checkPasses (b8Digits bs) := by
  have haligned := b8Digits_aligned bs.length
  rw [← b8Digits_length] at haligned
  by_cases h : bs.length % 3 = 0
  · exact .inl (by omega)
  · have hlt := bitsValue_lt (rest 3 (bitStream bs) ++ b8CheckBits bs)
    rw [List.length_append, rest_length, bitStream_length, b8CheckBits, bitsOf_length,
      show 8 * bs.length % 3 + bs.length % 3 = 3 by omega] at hlt
    rw [b8Digits, b8Last_eq_singleton h] at haligned ⊢
    rw [checkPasses_concat (by omega), haligned, Nat.mul_div_cancel_left _ (by decide), b8CheckBits, BitVec.toNat_ofNat,
      Nat.mod_eq_of_lt hlt, bitsValue_append, bitsOf_length, Nat.mul_add_mod', bitsValue_bitsOf, BitVec.toNat_ofNat,
      Nat.mod_mod]

end Sys2Proof.Machine
end

section
/-! ENC8 (44_base8.md R171). -/

namespace Sys2Proof.Machine

/-- The check digit that the engine forms of its carry and of P. -/
theorem checkDigit_eq {cb w : Nat} {d : Datapath} {r : List Bool} (hcb : cb = 1 ∨ cb = 2) (hc : Carries d r)
    (hr : r.length ≤ 16) (hp : d.p = BitVec.ofNat 32 w) :
    checkDigit cb d = BitVec.ofNat 3 (bitsValue (r ++ bitsOf (BitVec.ofNat cb w))) := by
  have hcanonical := hc.canonical
  obtain ⟨hvalue, hcount⟩ := hc
  rw [checkDigit, and_carryMask_toNat _ (by omega), Nat.mod_eq_of_lt hcanonical, hvalue, Nat.shiftLeft_eq, hp,
    parity_mod hcb, bitsValue_append, bitsOf_length, bitsValue_bitsOf, BitVec.toNat_ofNat]

/-- The loop of ENC8 writes the full groups, holds the bits left and counts the weight of the groups. -/
theorem enc8Loop_written {k : Nat} {s : State} (hs : Started s) (hu : Usable s)
    (hroom : 8 * s.inLen.toNat / 3 + k ≤ s.outCap.toNat) :
    ∃ t, forInput enc8Byte (setLength s.inLen.toNat s) = .go t ∧
      Written s ((b8Groups (inputBytes s)).map b8Sym) k t ∧ t.dp.s.toNat = (inputBytes s).length ∧
      Carries t.dp (rest 3 (bitStream (inputBytes s))) ∧
      t.dp.p = BitVec.ofNat 32 (hammingSum (b8Groups (inputBytes s))) := by
  obtain ⟨t, hgo, honly, hmem, ho, hcarry, hp, hlen⟩ := encodeLoop_started (n := 3) (by decide) (by decide) b8Sym weight
    (note := addWeight) (fun _ _ => rfl) (after := advancePhase) (fun s => ⟨_, rfl⟩) (body := enc8Byte) (fun _ _ => rfl)
    hs hu (Nat.le_of_add_right_le hroom)
  have hcap : t.outCap = s.outCap := by rw [honly]
  rw [← inputBytes_length s, ← b8Groups] at hmem hp
  rw [weightSum_eq] at hp
  refine ⟨t, hgo, ⟨⟨?_, by rw [ho, hcap]; exact hroom⟩, by rw [honly], hmem, ?_⟩, by rw [hlen, inputBytes_length],
    hcarry, hp⟩
  · rw [honly]
    exact hu.2.1
  · rw [ho, List.length_map, b8Groups, elements_length, inputBytes_length]

/-- The check digit follows the groups, where there is one. -/
theorem enc8Check_written {s t : State} {bs : List Byte} {k : Nat}
    (h : Written s ((b8Groups bs).map b8Sym) ((b8Last bs).length + k) t) (hlen : t.dp.s.toNat = bs.length)
    (hc : Carries t.dp (rest 3 (bitStream bs))) (hp : t.dp.p = BitVec.ofNat 32 (hammingSum (b8Groups bs))) :
    ∃ u, enc8Check t = .go u ∧ Written s (b8Text bs) k u := by
  rw [b8Text_eq, b8Digits, List.map_append]
  simp only [enc8Check, hlen]
  by_cases hz : bs.length % 3 = 0
  · rw [b8Last_eq_nil hz] at h ⊢
    rw [if_pos hz]
    exact ⟨t, rfl, by simpa using h⟩
  · have hrest := rest_length_lt (show 0 < 3 by decide) (bitStream bs)
    have hdigit := checkDigit_eq (cb := bs.length % 3) (by omega) hc (by omega) hp
    rw [b8Last_eq_singleton hz] at h ⊢
    have hroom := h.roomy.room
    rw [List.length_singleton] at hroom
    rw [if_neg hz, hdigit, ← b8CheckBits, emitSymbol_room (by omega) h.roomy.out, bind_go]
    exact ⟨_, rfl, (Written.emitted_more (more := [_]) h).withDatapath rfl⟩

/-- ENC8 past its prologue writes the text of the input and a NUL, which O does not count. -/
theorem enc8Main_writes {s : State} (hs : Started s) (hu : Usable s)
    (hcap : (8 * s.inLen.toNat + 2) / 3 + 1 ≤ s.outCap.toNat) :
    ∃ t, enc8Main (setLength s.inLen.toNat s) = .go t ∧ t.dp.o.toNat = (b8Text (inputBytes s)).length ∧
      t.mem = storeList s.mem s.outAddr.toNat (b8Text (inputBytes s) ++ [0x00]) := by
  have hdigits := b8Digits_length (inputBytes s)
  rw [b8Digits, List.length_append, b8Groups, elements_length, inputBytes_length] at hdigits
  obtain ⟨t, hloop, ht, hlen, hcarry, hp⟩ :=
    enc8Loop_written (k := (b8Last (inputBytes s)).length + 1) hs hu (by omega)
  obtain ⟨u, hcheck, hu'⟩ := enc8Check_written ht hlen hcarry hp
  obtain ⟨v, hnul, ho, hmem⟩ := hu'.emitTerminator
  refine ⟨v, ?_, ho, hmem⟩
  rw [enc8Main, hloop, bind_go, hcheck, bind_go, hnul]

end Sys2Proof.Machine

namespace Sys2Proof.Proofs

open Sys2Proof.Machine

/-- Settles O27: after its prologue ENC8 writes the digits and the NUL. -/
theorem enc8WritesDigitsAndCheck : Obligations.Enc8WritesDigitsAndCheck := by
  intro s hs hu hpos hcap
  obtain ⟨t, hmain, ho, hmem⟩ := enc8Main_writes hs hu hcap
  have hbody : bodyOf .enc8 s = .go t :=
    (bodyOf_main (i := .enc8) (by decide) hu (Nat.ne_of_gt hpos) ((reqEnc8_eq _).trans_le hcap)).trans hmain
  exact succeeds_of_go hbody (by rw [ho, b8Text_eq, List.length_map, b8Digits_length, inputBytes_length]) hmem

end Sys2Proof.Proofs
end

section
/-! DEC8 (44_base8.md R174 to R176): the digit loop, the check that decides its result, and what the check detects. -/

namespace Sys2Proof.Machine

/-! ### After a loop -/

/-- What a loop that began in `s` has written and holds, as the state of a decode: `pre` is consumed, `tail` is still to
come. -/
theorem Emits.decodedTo {n size wt : Nat} {s t : State} {pre tail : List Byte} {vs : List (BitVec n)} (hs : Started s)
    (hu : Usable s) (hsize : size ≤ s.inLen.toNat) (hx : bytesAt s.mem s.inAddr.toNat size = pre ++ tail)
    (hroom : n * vs.length / 8 ≤ s.outCap.toNat)
    (h : Emits (setLength size s) t (decodedBytes vs) (rest 8 (bitStream vs)) wt)
    (hlen : t.dp.s = (setLength size s).dp.s) (hi : t.dp.i.toNat = pre.length) : DecodedTo s vs tail t := by
  have hdp := setLength_started hs size
  have hsplit : size = pre.length + tail.length := by simpa using congrArg List.length hx
  have hts : t.dp.s.toNat = size := by rw [hlen, setLength_toNat s (by omega)]
  have ho : (setLength size s).dp.o.toNat = 0 := by rw [hdp]; rfl
  have hout : (decodedBytes vs).length = n * vs.length / 8 := by simp [decodedBytes]
  have hinside := hu.1
  refine ⟨by omega, ?_, ?_, h.outCap, ?_, by rw [h.o, ho, Nat.zero_add, hout], h.carries⟩
  · rw [h.inAddr, h.memSize, setLength_inAddr, setLength_memSize, hts]
    omega
  · rw [hsplit, bytesAt_add] at hx
    rw [h.inAddr, hi, setLength_inAddr, ← (List.append_inj hx (bytesAt_length _ _ _)).2, bytesAt_length]
    refine bytesAt_eq_iff.2 fun k hk => h.readInput hu ?_ (by rw [ho, hout, Nat.zero_add]; exact hroom)
    simp only [setLength_inAddr, setLength_inLen]
    omega
  · rw [h.mem, ho, setLength_mem, setLength_outAddr, Nat.add_zero]

theorem eq_map_of_map_some {n : Nat} {val : Byte → Option (BitVec n)} {sym : BitVec n → Byte}
    (hval : ∀ b v, val b = some v → b = sym v) :
    ∀ {bs : List Byte} {vs : List (BitVec n)}, bs.map val = vs.map some → bs = vs.map sym
  | [], [], _ => rfl
  | b :: bs, v :: vs, h => by
    simp only [List.map_cons, List.cons.injEq] at h
    rw [List.map_cons, ← hval b v h.1, ← eq_map_of_map_some hval h.2]

/-! ### DEC8: digits -/

/-- Digit values, one byte each. -/
abbrev digitBytes (ds : List (BitVec 3)) : List Byte := ds.map fun d => d.setWidth 8

/-- The digit that a byte of DEC8's input holds; a byte above 7 holds none (R174). -/
def digitVal (b : Byte) : Option (BitVec 3) := if 7 < b.toNat then none else some (b.setWidth 3)

theorem digitVal_eq_none_iff {b : Byte} : digitVal b = none ↔ 7 < b.toNat := by simp [digitVal]

theorem digitVal_eq_some_iff {b : Byte} {d : BitVec 3} : digitVal b = some d ↔ b = d.setWidth 8 := by
  have hd := d.isLt
  unfold digitVal
  split
  · simp only [reduceCtorEq, false_iff]
    bv_omega
  · rw [Option.some.injEq]
    bv_omega

theorem digitBytes_of_digitVal {bs : List Byte} {ds : List (BitVec 3)} (h : bs.map digitVal = ds.map some) :
    bs = digitBytes ds :=
  eq_map_of_map_some (fun _ _ => digitVal_eq_some_iff.1) h

/-- Bytes none of which is above 7 are the digits of their low bits. -/
theorem digitBytes_setWidth {bs : List Byte} (h : ∀ b ∈ bs, ¬7 < b.toNat) :
    bs = digitBytes (bs.map fun b => b.setWidth 3) := by
  refine digitBytes_of_digitVal ?_
  rw [List.map_map]
  exact List.map_congr_left fun b hb => if_neg (h b hb)

/-! ### DEC8: the loop -/

theorem digitLoop_decodedTo {s : State} (hs : Started s) (hu : Usable s) {ds : List (BitVec 3)} {tail : List Byte}
    (hx : inputBytes s = digitBytes ds ++ tail) (hroom : 3 * ds.length / 8 ≤ s.outCap.toNat) :
    ∃ t, digitLoop s.inLen.toNat 0 (setLength s.inLen.toNat s) = digitLoop tail.length (ds.getLastD 0) t ∧
      DecodedTo s ds tail t ∧ t.dp.s.toNat = s.inLen.toNat ∧ t.dp.p = BitVec.ofNat 32 (hammingSum ds) := by
  have hdp := setLength_started hs s.inLen.toNat
  have hsn := setLength_toNat s s.inLen.isLt
  obtain ⟨t, hloop, hemits, hlen, hi⟩ := digitLoop_part (s := setLength s.inLen.toNat s) hu hsn.le (by rw [hdp]; rfl)
    (by rw [hdp]; rfl) (by rw [hdp]; exact carries_zero) (by rw [hsn]; exact hx) hroom 0 ds List.prefix_rfl tail.length
  have hsize : s.inLen.toNat = ds.length + tail.length := by simpa using congrArg List.length hx
  have hp := hemits.p
  rw [hdp, weightSum_eq] at hp
  refine ⟨t, by rw [← hloop, ← hsize], hemits.decodedTo hs hu (Nat.le_refl _) hx hroom hlen (by rw [hi]; simp),
    by rw [hlen, hsn], hp.trans (BitVec.zero_add _)⟩

/-- The loop ends at a byte above 7. -/
theorem DecodedTo.digitLoop_stop {s t : State} {ds : List (BitVec 3)} {b : Byte} {post : List Byte}
    (h : DecodedTo s ds (b :: post) t) (hb : 7 < b.toNat) (last : BitVec 3) :
    digitLoop (b :: post).length last t = .stop .srcerror t := by
  have hlength := h.length
  have hinside := h.inside
  have hnext := h.tail
  rw [List.length_cons] at hlength
  rw [List.length_cons, bytesAt_succ, List.cons.injEq] at hnext
  rw [List.length_cons, digitLoop, if_pos (by omega), engineRead_inside (by omega), bind_go, hnext.1, if_pos hb]

/-! ### DEC8: the check -/

/-- The bits left in the carry are the low bits of the last digit (R175). -/
theorem carry_lowBits {d : Datapath} {pre : List (BitVec 3)} {last : BitVec 3} {cb : Nat} (hcb : cb = 1 ∨ cb = 2)
    (hcount : (pre ++ [last]).length % 8 = 3 * cb) (hc : Carries d (rest 8 (bitStream (pre ++ [last])))) :
    (d.c &&& carryMask cb).toNat = last.toNat % 2 ^ cb := by
  have hleft : 3 * (pre ++ [last]).length % 8 = cb := by omega
  rw [and_carryMask_toNat _ (by omega), hc.1, bitsValue_rest, bitStream_length, hleft, Nat.mod_mod, bitStream_append,
    bitsValue_append, bitStream_cons, bitStream_nil, List.append_nil, bitsOf_length, bitsValue_bitsOf]
  rcases hcb with rfl | rfl <;> omega

/-- P without the weight of the last digit is the weight of the others (R175). -/
theorem parity_lastRemoved {pre : List (BitVec 3)} {last : BitVec 3} {cb : Nat} (hcb : cb = 1 ∨ cb = 2) {p : BitVec 32}
    (hp : p = BitVec.ofNat 32 (hammingSum (pre ++ [last]))) :
    (p - BitVec.ofNat 32 (weight last)).toNat % (2 * cb) = hammingSum pre % 2 ^ cb := by
  have hlast : hammingSum [last] = weight last := by simp [hammingSum, weight_eq_hamming]
  rw [hp, hammingSum_append, hlast, BitVec.ofNat_add, BitVec.add_sub_cancel, parity_mod hcb]

theorem DecodedTo.dec8Check_eq {s t : State} {ds : List (BitVec 3)} (h : DecodedTo s ds [] t)
    (hlen : t.dp.s.toNat = ds.length) (hp : t.dp.p = BitVec.ofNat 32 (hammingSum ds))
    (haligned : ds.length % 8 ∈ [0, 3, 6]) :
    dec8Check (ds.getLastD 0) t = if checkPasses ds then .go t else .stop .srcerror t := by
  simp only [List.mem_cons, List.not_mem_nil, or_false] at haligned
  simp only [dec8Check, hlen]
  by_cases hz : ds.length % 8 = 0
  · rw [if_pos hz, if_pos (.inl hz)]
  · have hne : ds ≠ [] := by rintro rfl; exact hz rfl
    obtain ⟨pre, last, rfl⟩ : ∃ pre last, ds = pre ++ [last] := ⟨_, _, (List.dropLast_concat_getLast hne).symm⟩
    have hcb : (pre ++ [last]).length % 8 / 3 = 1 ∨ (pre ++ [last]).length % 8 / 3 = 2 := by omega
    simp only [checkPasses_concat hz]
    rw [if_neg hz, List.getLastD_concat, carry_lowBits hcb (by omega) h.carries, parity_lastRemoved hcb hp]

/-- Aligned digits hold the bytes of REQ (R174). -/
theorem alignedBytes {n : Nat} (h : n % 8 ∈ [0, 3, 6]) : 3 * n / 8 = 3 * (n / 8) + n % 8 / 3 := by
  have hcases : n % 8 = 0 ∨ n % 8 = 3 ∨ n % 8 = 6 := by simpa using h
  omega

/-! ### DEC8: the command -/

theorem dec8_body_main {s : State} (hu : Usable s) (hpos : 0 < s.inLen.toNat)
    (hcap : 3 * (s.inLen.toNat / 8) + s.inLen.toNat % 8 / 3 ≤ s.outCap.toNat) :
    bodyOf .dec8 s = dec8Main (setLength s.inLen.toNat s) :=
  bodyOf_main (i := .dec8) (by decide) hu (Nat.ne_of_gt hpos) hcap

theorem dec8Main_misaligned {s : State} (h : s.inLen.toNat % 8 ∉ [0, 3, 6]) :
    dec8Main (setLength s.inLen.toNat s) = .stop .srcerror (setLength s.inLen.toNat s) := by
  rw [dec8Main, rejectMisaligned, setLength_toNat s s.inLen.isLt, if_neg (by simpa using h), bind_stop]

theorem dec8Main_aligned {s : State} (h : s.inLen.toNat % 8 ∈ [0, 3, 6]) :
    dec8Main (setLength s.inLen.toNat s) =
      (digitLoop s.inLen.toNat 0 (setLength s.inLen.toNat s)).bind fun r => dec8Check r.1 r.2 := by
  rw [dec8Main, rejectMisaligned, setLength_toNat s s.inLen.isLt, if_pos (by simpa using h), bind_go,
    setLength_toNat s s.inLen.isLt]

/-- DEC8 of aligned digits runs to its end, and the check decides. -/
theorem dec8_digits {s : State} (hs : Started s) (hu : Usable s) {ds : List (BitVec 3)}
    (hx : inputBytes s = digitBytes ds) (hne : ds ≠ []) (haligned : ds.length % 8 ∈ [0, 3, 6])
    (hcap : 3 * (ds.length / 8) + ds.length % 8 / 3 ≤ s.outCap.toNat) :
    ∃ t, bodyOf .dec8 s = (if checkPasses ds then .go t else .stop .srcerror t) ∧ DecodedTo s ds [] t := by
  have hlen : s.inLen.toNat = ds.length := by simpa using congrArg List.length hx
  have hpos := List.length_pos_iff.2 hne
  obtain ⟨t, hloop, ht, hts, hp⟩ :=
    digitLoop_decodedTo (tail := []) hs hu (by rw [hx, List.append_nil]) (by rwa [alignedBytes haligned])
  refine ⟨t, ?_, ht⟩
  rw [dec8_body_main hu (by omega) (by rwa [hlen]), dec8Main_aligned (by rwa [hlen]), hloop]
  exact ht.dec8Check_eq (hts.trans hlen) hp haligned

/-- DEC8 of aligned digits whose check fails. -/
theorem dec8_checkFails {s : State} (hs : Started s) (hu : Usable s) {ds : List (BitVec 3)}
    (hx : inputBytes s = digitBytes ds) (hne : ds ≠ []) (haligned : ds.length % 8 ∈ [0, 3, 6])
    (hcap : 3 * (ds.length / 8) + ds.length % 8 / 3 ≤ s.outCap.toNat) (hcheck : ¬checkPasses ds) :
    FailsWindowFree .dec8 s 3 := by
  obtain ⟨t, hbody, _⟩ := dec8_digits hs hu hx hne haligned hcap
  rw [if_neg hcheck] at hbody
  exact failsWindowFree_of_stop hu hbody (by decide) rfl

/-- DEC8 of aligned bytes of which one is above 7. -/
theorem dec8_digitAboveSeven {s : State} (hs : Started s) (hu : Usable s) (haligned : s.inLen.toNat % 8 ∈ [0, 3, 6])
    (hcap : 3 * (s.inLen.toNat / 8) + s.inLen.toNat % 8 / 3 ≤ s.outCap.toNat) (hbad : ∃ b ∈ inputBytes s, 7 < b.toNat) :
    FailsWindowFree .dec8 s 3 := by
  obtain ⟨pre, b, post, ds, hsplit, hds, hb⟩ := split_at_invalid (val := digitVal) (l := inputBytes s)
    (by simpa only [digitVal_eq_none_iff] using hbad)
  have htotal : s.inLen.toNat = pre.length + (post.length + 1) := by simpa using congrArg List.length hsplit
  have hcount : pre.length = ds.length := by simpa using congrArg List.length hds
  rw [← alignedBytes haligned] at hcap
  rw [digitBytes_of_digitVal hds] at hsplit
  obtain ⟨t, hloop, ht, _⟩ := digitLoop_decodedTo hs hu hsplit (by omega)
  have hbody : bodyOf .dec8 s = .stop .srcerror t := by
    rw [dec8_body_main hu (by omega) (by rwa [← alignedBytes haligned]), dec8Main_aligned haligned, hloop,
      ht.digitLoop_stop (digitVal_eq_none_iff.1 hb), bind_stop]
  exact failsWindowFree_of_stop hu hbody (by decide) rfl

end Sys2Proof.Machine

namespace Sys2Proof.Proofs

open Sys2Proof.Machine

/-- Settles O28: the check lets the command fall off its end. -/
theorem dec8WritesCheckedBytes : Obligations.Dec8WritesCheckedBytes := by
  intro s ds hs hu hx hne haligned hcap hcheck
  obtain ⟨t, hbody, ht⟩ := dec8_digits hs hu hx hne haligned hcap
  rw [if_pos hcheck] at hbody
  exact succeeds_of_go hbody (by rw [ht.o, alignedBytes haligned]) ht.mem

/-- Settles O38: a misaligned count ends the command before its loop, a byte above 7 ends the loop, and the check comes
after it. -/
theorem dec8SourceErrors : Obligations.Dec8SourceErrors := by
  intro s hs hu hpos hcap hbad
  by_cases haligned : s.inLen.toNat % 8 ∈ [0, 3, 6]
  · by_cases habove : ∃ b ∈ inputBytes s, 7 < b.toNat
    · exact dec8_digitAboveSeven hs hu haligned hcap habove
    · have hcheck := (hbad.resolve_left (not_not.2 haligned)).resolve_left habove
      have hlen : ((inputBytes s).map fun b => b.setWidth 3).length = s.inLen.toNat := by
        rw [List.length_map, inputBytes_length]
      exact dec8_checkFails hs hu (digitBytes_setWidth (by simpa using habove))
        (List.length_pos_iff.1 (by omega)) (by rwa [hlen]) (by rwa [hlen]) hcheck
  · have hbody := (dec8_body_main hu hpos hcap).trans (dec8Main_misaligned haligned)
    exact failsWindowFree_of_stop hu hbody (by decide) rfl

/-- DEC8 of aligned digits completes with OK exactly when their check passes (O28), and else with SRCERROR. -/
theorem dec8_result {s : State} (hs : Started s) (hu : Usable s) {ds : List (BitVec 3)}
    (hx : inputBytes s = digitBytes ds) (hne : ds ≠ []) (haligned : ds.length % 8 ∈ [0, 3, 6])
    (hcap : 3 * (ds.length / 8) + ds.length % 8 / 3 ≤ s.outCap.toNat) :
    ∃ t, exec .dec8 s = .next t ∧ (t.result = 0 ∨ t.result = 3) ∧ (t.result = 0 ↔ checkPasses ds) := by
  by_cases hcheck : checkPasses ds
  · obtain ⟨t, hexec, ⟨hresult, _⟩, _⟩ := dec8WritesCheckedBytes s ds hs hu hx hne haligned hcap hcheck
    exact ⟨t, hexec, .inl hresult, iff_of_true hresult hcheck⟩
  · obtain ⟨t, hexec, ⟨hresult, _⟩, _⟩ := dec8_checkFails hs hu hx hne haligned hcap hcheck
    exact ⟨t, hexec, .inr hresult, iff_of_false (by rw [hresult]; decide) hcheck⟩

/-- The same of a count that has a check digit: the low bits of the last digit against the weight of the others. -/
theorem dec8_result_concat {s : State} (hs : Started s) (hu : Usable s) {pre : List (BitVec 3)} {last : BitVec 3}
    (hx : inputBytes s = digitBytes (pre ++ [last])) {n : Nat} (hlen : (pre ++ [last]).length = n)
    (hcount : n % 8 ∈ [3, 6]) (hcap : 3 * (n / 8) + n % 8 / 3 ≤ s.outCap.toNat) :
    ∃ t, exec .dec8 s = .next t ∧ (t.result = 0 ∨ t.result = 3) ∧
      (t.result = 0 ↔ last.toNat % 2 ^ (n % 8 / 3) = hammingSum pre % 2 ^ (n % 8 / 3)) := by
  subst hlen
  have hz : (pre ++ [last]).length % 8 ≠ 0 := fun h => absurd (h ▸ hcount) (by decide)
  obtain ⟨t, hexec, hresult, hiff⟩ := dec8_result hs hu hx (by simp) (List.mem_cons_of_mem _ hcount) hcap
  exact ⟨t, hexec, hresult, hiff.trans (checkPasses_concat hz)⟩

/-- Settles O41: the check compares the last digit's low bits with the weight of the others, and a replaced digit moves
one side of it. -/
theorem checkDetectsCorruption : Obligations.CheckDetectsCorruption := by
  intro s ds hs hu hcount hpass hcap
  have hz : ds.length % 8 ≠ 0 := fun h => absurd (h ▸ hcount) (by decide)
  constructor
  · rintro pre d d' rfl hx
    obtain ⟨t, hexec, hresult, hiff⟩ := dec8_result_concat hs hu hx (by simp) hcount hcap
    refine ⟨t, hexec, hresult, hiff.trans ?_⟩
    rw [checkPasses_concat hz] at hpass
    rw [← hpass, BitVec.toNat_xor, Nat.xor_mod_two_pow, Nat.xor_eq_zero_iff, eq_comm]
  · rintro pre post g g' hne rfl hx
    obtain ⟨mid, last, rfl⟩ : ∃ mid last, post = mid ++ [last] := ⟨_, _, (List.dropLast_concat_getLast hne).symm⟩
    have hsnoc : ∀ x : BitVec 3, pre ++ x :: (mid ++ [last]) = (pre ++ x :: mid) ++ [last] := fun x => by simp
    rw [hsnoc] at hx hcount hpass hcap hz ⊢
    obtain ⟨t, hexec, hresult, hiff⟩ := dec8_result_concat hs hu hx (by simp) hcount hcap
    refine ⟨t, hexec, hresult, hiff.trans ?_⟩
    rw [checkPasses_concat hz] at hpass
    rw [hpass]
    simp only [hammingSum_append, hammingSum_cons]
    exact (Nat.ModEq.add_iff_left rfl).trans (Nat.ModEq.add_iff_right rfl)

end Sys2Proof.Proofs
end

section
/-! S2N8 and the round trip of base8 (44_base8.md R177, R178). -/

namespace Sys2Proof.Machine

theorem b8Val_b8Sym (g : BitVec 3) : b8Val (b8Sym g) = some g := (b8Val_eq_some_iff _ g).2 rfl

theorem b8Sym_ne_nul : ∀ g : BitVec 3, b8Sym g ≠ 0 := by decide

theorem b8Val_eq_none_iff {ch : Byte} : b8Val ch = none ↔ ch < 0x31 ∨ 0x38 < ch := by
  simp only [b8Val, ite_eq_right_iff, reduceCtorEq, imp_false, inRange_iff]
  bv_omega

theorem b8Sym_sub : ∀ d : BitVec 3, b8Sym d - 0x31 = d.setWidth 8 := by decide

/-- Characters that all have a value are the symbols of some digits. -/
theorem exists_digits {l : List Byte} (h : ∀ ch ∈ l, b8Val ch ≠ none) :
    ∃ ds : List (BitVec 3), l.map b8Val = ds.map some := by
  refine ⟨l.map fun ch => (ch - 0x31).setWidth 3, ?_⟩
  rw [List.map_map]
  exact List.map_congr_left fun ch hch => if_pos (by_contra fun hc => h ch hch (if_neg hc))

theorem s2n8Symbol_none {ch : Byte} (h : b8Val ch = none) (s : State) : s2n8Symbol ch s = .stop .srcerror s := by
  simp [s2n8Symbol, h]

/-- A character that has a value: the value is written, and the carry and P stay. -/
theorem s2n8Symbol_emits {s t : State} {out : List Byte} {r : List Bool} {wt : Nat} (h : Emits s t out r wt) {ch : Byte}
    {d : BitVec 3} (hd : b8Val ch = some d) (hroom : s.dp.o.toNat + (out.length + 1) ≤ s.outCap.toNat)
    (hm : s.outAddr.toNat + s.outCap.toNat ≤ s.memSize) :
    Holds (fun u => Emits s u (out ++ [d.setWidth 8]) r wt ∧ SameInput t u) (fun _ _ => False) (s2n8Symbol ch t) := by
  have ho := h.o
  have hlt : t.dp.o.toNat + [(d.setWidth 8 : Byte)].length ≤ t.outCap.toNat := by
    rw [h.outCap, List.length_singleton]
    omega
  have hone : Emits t (emitted [d.setWidth 8] t) [d.setWidth 8] r 0 :=
    ⟨rfl, rfl, emitted_o hlt, h.carries, by simp [emitted]⟩
  simp only [s2n8Symbol, hd]
  rw [emitByte_eq, emitSymbol_room hlt (by rwa [h.outAddr, h.outCap, h.memSize])]
  exact ⟨h.trans hone, rfl, rfl⟩

/-- Bytes are their own whole bytes, and nothing is left of them. -/
theorem decodedBytes_bytes (bs : List Byte) : decodedBytes bs = bs :=
  (decodedBytes_eq_whole bs).trans (whole_bitStream (by decide) bs)

theorem rest_bitStream {n : Nat} (vs : List (BitVec n)) : rest n (bitStream vs) = [] :=
  List.length_eq_zero_iff.1 (by rw [rest_length, bitStream_length, Nat.mul_mod_right])

/-- The loop of S2N8 over the characters `pre` at the start of the string, as a decode of their digit values, each a
whole byte that the carry never sees. -/
theorem s2n8Loop_decodedTo {s : State} (hs : Started s) (hu : Usable s) {pre tail : List Byte}
    (hx : inputString s = pre ++ tail) {ds : List (BitVec 3)} (hds : pre.map b8Val = ds.map some)
    (hroom : ds.length ≤ s.outCap.toNat) :
    ∃ t, forInput s2n8Symbol (setLength (inputString s).length s) = inputLoop s2n8Symbol tail.length t ∧
      DecodedTo s (digitBytes ds) tail t := by
  have hdp := setLength_started hs (inputString s).length
  have hsn := setLength_toNat s (inputString_length_lt s)
  have hsize := inputString_length_le s
  have hinside := hu.1
  have ho : (setLength (inputString s).length s).dp.o.toNat = 0 := by rw [hdp]; rfl
  have hstring : bytesAt s.mem s.inAddr.toNat (inputString s).length = pre ++ tail := by
    rw [← hx]; exact bytesAt_inputString s
  have hvals : pre.filterMap b8Val = ds := filterMap_of_map hds
  have hfit : ∀ ys, ys <+: pre → (digitBytes (ys.filterMap b8Val)).length ≤ s.outCap.toNat := fun ys h => by
    have hle := (filterMap_prefix b8Val h).length_le
    rw [hvals] at hle
    rw [List.length_map]
    exact hle.trans hroom
  have hpart := inputLoop_part (body := s2n8Symbol)
    (fun ys => (digitBytes (ys.filterMap b8Val), [], 0)) (s := setLength (inputString s).length s)
    (by rw [hsn, setLength_inAddr, setLength_memSize]; omega) (by rw [hdp]; rfl) (by rw [hsn]; exact hstring) rfl
    (by rw [hdp]; exact carries_zero) ?_ ?_ tail.length pre List.prefix_rfl
  · obtain ⟨t, hloop, hemits, hlen, hi⟩ := hpart
    rw [hvals] at hemits
    refine ⟨t, ?_, Emits.decodedTo (wt := 0) hs hu hsize hstring ?_ ?_ hlen hi⟩
    · rw [← hloop, forInput, hsn, ← List.length_append, ← hx]
    · rwa [List.length_map, Nat.mul_div_cancel_left _ (by decide)]
    · rwa [decodedBytes_bytes, rest_bitStream]
  · intro ys t hpre hemits k hk
    rw [hsn] at hk
    exact hemits.readInput hu (by simp only [setLength_inAddr, setLength_inLen]; omega)
      (by rw [ho, Nat.zero_add]; exact hfit ys hpre)
  · intro ys b t hpre _ _ hemits
    obtain ⟨d, hd⟩ : ∃ d, b8Val b = some d := by
      have hmem : b8Val b ∈ ds.map some := hds ▸ List.mem_map_of_mem (hpre.subset (by simp))
      obtain ⟨d, _, hd⟩ := List.mem_map.1 hmem
      exact ⟨d, hd.symm⟩
    have hsnoc : digitBytes ((ys ++ [b]).filterMap b8Val) = digitBytes (ys.filterMap b8Val) ++ [d.setWidth 8] := by
      simp [hd]
    have hle := hfit _ hpre
    rw [hsnoc, List.length_append, List.length_singleton] at hle
    simp only [hsnoc]
    exact s2n8Symbol_emits hemits hd (by rwa [ho, Nat.zero_add]) hu.2.1

theorem s2n8_body_main {s : State} (hu : Usable s) (hne : inputString s ≠ [])
    (hcap : (inputString s).length ≤ s.outCap.toNat) :
    bodyOf .s2n8 s = forInput s2n8Symbol (setLength (inputString s).length s) :=
  bodyOf_main (i := .s2n8) (by decide) hu (fun h => hne (List.length_eq_zero_iff.1 h)) hcap

/-- S2N8 of characters that all have a value. -/
theorem s2n8_writes {s : State} (hs : Started s) (hu : Usable s) {ds : List (BitVec 3)}
    (hds : (inputString s).map b8Val = ds.map some) (hne : inputString s ≠ [])
    (hcap : (inputString s).length ≤ s.outCap.toNat) : Succeeds .s2n8 s (digitBytes ds) (inputString s).length := by
  have hlen : (inputString s).length = ds.length := by simpa using congrArg List.length hds
  obtain ⟨t, hloop, ht⟩ := s2n8Loop_decodedTo (tail := []) hs hu (List.append_nil _).symm hds (by omega)
  have hmem := ht.mem
  rw [decodedBytes_bytes] at hmem
  refine succeeds_of_go ((s2n8_body_main hu hne hcap).trans hloop) ?_ hmem
  rw [ht.o, List.length_map, Nat.mul_div_cancel_left _ (by decide), hlen]

end Sys2Proof.Machine

namespace Sys2Proof.Proofs

open Sys2Proof.Machine

/-- Settles O29: the loop runs over the whole string, and a symbol less 0x31 is its digit. -/
theorem s2n8WritesDigitValues : Obligations.S2n8WritesDigitValues := by
  intro s hs hu hne hrange hcap
  obtain ⟨ds, hds⟩ := exists_digits (l := inputString s) fun ch hch hnone => by
    have := hrange ch hch
    have := b8Val_eq_none_iff.1 hnone
    bv_omega
  have hsyms : inputString s = ds.map b8Sym := eq_map_of_map_some (fun _ _ => (b8Val_eq_some_iff _ _).1) hds
  have hout : (inputString s).map (fun ch => ch - 0x31) = digitBytes ds := by
    rw [hsyms, List.map_map]
    exact List.map_congr_left fun d _ => b8Sym_sub d
  rw [hout]
  exact s2n8_writes hs hu hds hne hcap

/-- Settles O39: the loop ends at the first character that has no value. -/
theorem s2n8SourceErrors : Obligations.S2n8SourceErrors := by
  intro s hs hu hcap hbad
  obtain ⟨pre, ch, post, ds, hsplit, hds, hch⟩ := split_at_invalid (val := b8Val) (l := inputString s)
    (by simpa only [b8Val_eq_none_iff] using hbad)
  have htotal : (inputString s).length = pre.length + (post.length + 1) := by rw [hsplit]; simp
  have hcount : pre.length = ds.length := by simpa using congrArg List.length hds
  obtain ⟨t, hloop, ht⟩ := s2n8Loop_decodedTo hs hu hsplit hds (by omega)
  have hbody : bodyOf .s2n8 s = .stop .srcerror t := by
    rw [s2n8_body_main hu (by simp [hsplit]) hcap, hloop, ht.loop_stop (s2n8Symbol_none hch t)]
  exact failsWindowFree_of_stop hu hbody (by decide) rfl

/-- Settles O32: S2N8 reads the text of ENC8 (O27) as its digits, and DEC8 of them (O28) finds the check of the encode
and gives the bytes back. -/
theorem base8RoundTrip : Obligations.Base8RoundTrip := by
  intro s hs hu hpos hcap
  obtain ⟨t, hexec, ⟨hresult, _⟩, _, _, hout, _⟩ := enc8WritesDigitsAndCheck s hs hu hpos hcap
  have hcount := b8Digits_length (inputBytes s)
  rw [inputBytes_length] at hcount
  have htext : (b8Text (inputBytes s)).length = (8 * s.inLen.toNat + 2) / 3 := by
    rw [b8Text_eq, List.length_map, hcount]
  rw [List.length_append, List.length_singleton, htext] at hout
  refine ⟨t, hexec, hresult, fun u hsu huu hcopy hlen hroom => ?_⟩
  have hstring : inputString u = b8Text (inputBytes s) := by
    refine inputString_of_text (fun ch hch => ?_) (by rw [htext, hcopy, hout]) (by omega)
    obtain ⟨g, _, rfl⟩ := List.mem_map.1 hch
    exact b8Sym_ne_nul g
  have hds : (inputString u).map b8Val = (b8Digits (inputBytes s)).map some := by
    rw [hstring, b8Text_eq, List.map_map]
    exact List.map_congr_left fun g _ => b8Val_b8Sym g
  obtain ⟨v, hexec', ⟨hresult', _⟩, hlength, _, hout', _⟩ :=
    s2n8_writes hsu huu hds (List.length_pos_iff.1 (by rw [hstring, htext]; omega)) (by rwa [hstring, htext])
  rw [List.length_map, hcount] at hout'
  rw [hstring, htext] at hlength
  refine ⟨v, hexec', hresult', hlength, fun x hsx hux hxlen hcopy' hroom' => ?_⟩
  have haligned := b8Digits_aligned s.inLen.toNat
  have hmem : (b8Digits (inputBytes s)).length % 8 ∈ [0, 3, 6] := by
    rw [hcount, haligned]
    simp
    omega
  have hbytes : 3 * ((8 * s.inLen.toNat + 2) / 3 / 8) + (8 * s.inLen.toNat + 2) / 3 % 8 / 3 = s.inLen.toNat := by omega
  have hdecoded := dec8WritesCheckedBytes x (b8Digits (inputBytes s)) hsx hux (hcopy'.trans hout')
    (List.length_pos_iff.1 (by omega)) hmem (by rwa [hcount, hbytes]) (checkPasses_b8Digits _)
  rwa [decodedBytes_b8Digits, hcount, hbytes] at hdecoded

end Sys2Proof.Proofs
end

section
/-! The causes of ERROR and SRCERROR (60_exceptions.md R203, R204): a completion's outcome is OK or one that the rule of its
command lists, and the lists keep the reserved commands apart from the codecs, and the encodes from the decodes. -/

namespace Sys2Proof.Machine

/-- The reserved rows are the commands that are no codec's (41_command_framework.md R132). -/
theorem not_mem_codecCommands_iff {i : Instr} : i ∉ codecCommands ↔ i = .rsvd0 ∨ ∃ op, i = .rsvd8 op := by
  cases i <;> simp [codecCommands]

theorem encodeCommands_subset_codecCommands : encodeCommands ⊆ codecCommands := by decide

theorem not_stopsOf_error {i : Instr} (hi : i ∈ codecCommands) : ¬stopsOf i .error := by
  cases i with
  | rsvd0 | rsvd8 => simp [codecCommands] at hi
  | enc16 | enc32 | enc8 => simp [stopsOf, EncodeCode]
  | dec16 | dec32 | dec8 | s2n8 => simp [stopsOf, DecodeCode]

theorem not_stopsOf_srcerror {i : Instr} (hi : i ∈ encodeCommands) : ¬stopsOf i .srcerror := by
  cases i with
  | enc16 | enc32 | enc8 => simp [stopsOf, EncodeCode]
  | rsvd0 | rsvd8 | dec16 | dec32 | dec8 | s2n8 => simp [encodeCommands] at hi

/-- RESULT names an outcome other than OK only if the command's rule lists it. -/
theorem exec_result {i : Instr} {s t : State} (ht : exec i s = .next t) {code : Code} (hok : code ≠ .ok)
    (hresult : t.result = resultBits code) : stopsOf i code := by
  obtain ⟨code', u, hexec, _, hend⟩ := exec_cases i s
  cases hexec.symm.trans ht
  obtain rfl := resultBits_injective hresult
  rcases hend with ⟨_, rfl⟩ | ⟨_, hstops⟩
  · exact absurd rfl hok
  · exact hstops

end Sys2Proof.Machine

namespace Sys2Proof.Proofs

open Sys2Proof.Machine

/-- Settles O40: a reserved command completes with ERROR, no codec's rule lists ERROR, and no encode's lists SRCERROR. -/
theorem errorOnlyFromReserved : Obligations.ErrorOnlyFromReserved := by
  intro i s
  by_cases hi : i ∈ codecCommands
  · obtain ⟨t, hexec, _⟩ := everyCommandCompletes i s
    have herror : t.result ≠ 4 := fun hresult =>
      not_stopsOf_error hi (exec_result hexec (code := .error) (by decide) hresult)
    have hcodec : ¬(i = .rsvd0 ∨ ∃ op, i = .rsvd8 op) := fun hreserved => not_mem_codecCommands_iff.2 hreserved hi
    exact ⟨t, hexec, iff_of_false herror hcodec, fun hencode hresult =>
      not_stopsOf_srcerror hencode (exec_result hexec (code := .srcerror) (by decide) hresult)⟩
  · exact ⟨_, exec_reserved hi s, iff_of_true rfl (not_mem_codecCommands_iff.1 hi),
      fun hencode => absurd (encodeCommands_subset_codecCommands hencode) hi⟩

end Sys2Proof.Proofs
end

section
/-! Reset and hazards (70_reset_and_hazards.md R230 to R232, R240, R241): what stops the machine, what a host write does
to a busy core, and what a reset and a start leave behind. -/

namespace Sys2Proof.Machine

/-! ### The steps of one event -/

theorem engineTurn_ne_fault (s : State) (f : Fault) : engineTurn s ≠ .fault f := by
  rcases engineTurn_next s with ⟨_, _, _, _, e⟩ | ⟨_, e⟩ <;> rw [e] <;> nofun

theorem engineTurn_ne_refused (s : State) (r : Refusal) : engineTurn s ≠ .refused r := by
  rcases engineTurn_next s with ⟨_, _, _, _, e⟩ | ⟨_, e⟩ <;> rw [e] <;> nofun

theorem step_cmdWrite_of_idle {s : State} {w : Word} {queue : List (Option HostOp)} (hb : s.busy = false)
    (h : s.bus = some (.regWrite .b32 0x00 w) :: queue) :
    step s = .next (startCommand w { s with bus := queue }) := by
  rw [step_regWrite .cmd h, writeReg_cmd_of_idle (s := { s with bus := queue }) w hb]

theorem step_reset {s : State} {queue : List (Option HostOp)} (h : s.bus = some .reset :: queue) :
    step s = .next (assertReset { s with bus := queue }) := by
  rw [step_hostTurn h, hostTurn]

/-! ### The registers that a busy core locks -/

/-- CMD and the operand registers, whose writes a busy core ignores (70_reset_and_hazards.md R241). -/
def lockedWhileBusy : List Reg := [.cmd, .inAddr, .inLen, .outAddr, .outCap]

theorem writeReg_of_locked {r : Reg} (hr : r ∈ lockedWhileBusy) (v : Word) {s : State} (hb : s.busy = true) :
    writeReg r v s = s := by
  cases r with
  | cmd | inAddr | inLen | outAddr | outCap => rw [writeReg, if_pos hb]
  | status | outLen | irqEn | memsize => simp [lockedWhileBusy] at hr

end Sys2Proof.Machine

namespace Sys2Proof.Proofs

open Sys2Proof.Machine

/-- Settles O53: the engine's turn goes on, and a turn of the host stops only at a violation of the buffer port. -/
theorem onlyBusyPortAccessStops : Obligations.OnlyBusyPortAccessStops := by
  intro s
  rcases step_cases s with ⟨_, e⟩ | ⟨queue, _, e⟩ | ⟨op, queue, hbus, e⟩ <;> rw [e]
  · exact ⟨fun f hf => absurd hf (engineTurn_ne_fault _ f), engineTurn_ne_refused _⟩
  · exact ⟨fun f hf => absurd hf (engineTurn_ne_fault _ f), engineTurn_ne_refused _⟩
  · refine ⟨fun f hf => ?_, fun r => hostTurn_refused⟩
    obtain ⟨rfl, hb, a, ha, rfl | ⟨v, rfl⟩⟩ := hostTurn_fault hf
    · exact ⟨rfl, hb, queue, a, ha, .inl hbus⟩
    · exact ⟨rfl, hb, queue, a, ha, .inr ⟨v, hbus⟩⟩

/-- Settles O8: the five offsets are those of the registers that a busy core locks; IRQ_EN and STATUS are not among
them. -/
theorem writesWhileBusy : Obligations.WritesWhileBusy := by
  intro s queue off w h hb
  refine ⟨fun hoff => ?_, ?_, ?_⟩
  · have hmap : off ∈ lockedWhileBusy.map regOffset := hoff
    obtain ⟨r, hr, rfl⟩ := List.mem_map.1 hmap
    rw [step_regWrite r h, writeReg_of_locked (s := { s with bus := queue }) hr w hb]
  · rintro rfl
    exact step_regWrite .irqEn h
  · rintro rfl
    rw [step_regWrite .status h, writeReg_status]

/-- Settles O16: below MEM_SIZE the access is a violation, and elsewhere the step goes on. -/
theorem bufferPortWhileBusyFaults : Obligations.BufferPortWhileBusyFaults := by
  intro s queue a v hb
  refine ⟨fun h => ⟨fun hf => ?_, fun ha => step_portViolation (v := v) hb ha (.inl h)⟩,
    fun h => ⟨fun hf => ?_, fun ha => step_portViolation hb ha (.inr h)⟩⟩
  · by_contra ha
    rw [step_memRead (fun hviolation => ha hviolation.2) h] at hf
    cases hf
  · by_contra ha
    rw [step_memWrite (fun hviolation => ha hviolation.2) h] at hf
    cases hf

/-- Settles O20: memory and the draw counter of `assertReset`, by BUSY; every register is that of `State.resetWith`. -/
theorem resetTurn : Obligations.ResetTurn := by
  intro s queue h
  refine ⟨_, step_reset h, rfl, fun hb => ?_, fun hb => ?_⟩
  · simp [hb]
  · refine ⟨by simp [hb], fun a => ?_⟩
    rw [assertReset_mem, if_pos hb]
    exact readByte_drawOutputWindow _ a

/-- Settles O56: `startCommand` overwrites the whole datapath. -/
theorem startForgetsTheDatapath : Obligations.StartForgetsTheDatapath := by
  intro s d queue w h hb
  have hforgets : startCommand w { s with dp := d, bus := queue } = startCommand w { s with bus := queue } := rfl
  refine ⟨?_, _, step_cmdWrite_of_idle hb h, startCommand_started _ _, opField_eq_extractLsb' w⟩
  rw [step_cmdWrite_of_idle hb h, step_cmdWrite_of_idle (s := { s with dp := d }) hb h, hforgets]

end Sys2Proof.Proofs
end
